-- ==== Sys2Proof/Word.lean ====
section
/-! DEFINITION. The word and byte types (00_scope.md R12, 20_memory.md R54). -/

namespace Sys2Proof

/-- A host-visible register, a command word, the data of a host access: 32 bits (R12, R54). -/
abbrev Word := BitVec 32

/-- One byte of IBUF, OBUF or a unit's content. -/
abbrev Byte := BitVec 8

end Sys2Proof
end

