-- ==== Sys2Proof/Syntax.lean ====
section
/-! DEFINITION. The 21 commands of spec/opcode_table.json (30_encoding.md R90), one constructor per row. -/

namespace Sys2Proof

/-- A command with its operands, as the assembler writes it (30_encoding.md R96): every operand is an unsigned
integer (R14, R91), and `Instr.wellFormed` says which ones fit their fields. -/
inductive Instr where
  /-- `CLEAR`, format N (R103). -/
  | clear
  /-- `ENCODE`, format N (R104). -/
  | encode
  /-- `DECODE N`, format D (R107). -/
  | decode (n : Nat)
  /-- `ADD_UNIT ID, LEN`, format U (R123). -/
  | addUnit (id len : Nat)
  /-- `ADD_DNS4_REQ`, format N (R124). -/
  | addDns4Req
  /-- `ADD_DNS6_REQ`, format N (R125). -/
  | addDns6Req
  /-- `ADD_IPALLOC`, format N (R126). -/
  | addIpalloc
  /-- `ADD_DNS4_ADDR ALEN`, format A (R132). -/
  | addDns4Addr (alen : Nat)
  /-- `ADD_PCSCF4_ADDR ALEN`, format A (R133). -/
  | addPcscf4Addr (alen : Nat)
  /-- `ADD_DNS6_ADDR ALEN`, format A (R134). -/
  | addDns6Addr (alen : Nat)
  /-- `ADD_MTU MTU`, format M (R136). -/
  | addMtu (mtu : Nat)
  /-- `GET_UNIT IDX`, format I (R139). -/
  | getUnit (idx : Nat)
  /-- `GET_BYTE IDX, BIDX`, format IB (R140). -/
  | getByte (idx bidx : Nat)
  /-- `CNT_READ cSEL`, format C (R149). -/
  | cntRead (sel : Nat)
  /-- `CNT_GET_OVF cSEL`, format C (R150). -/
  | cntGetOvf (sel : Nat)
  /-- `CNT_GET_SQN cSEL`, format C (R151). -/
  | cntGetSqn (sel : Nat)
  /-- `CNT_SET cSEL, OVF, SQN`, format CS (R152). -/
  | cntSet (sel ovf sqn : Nat)
  /-- `CNT_SET_OVF cSEL, OVF`, format CO (R153). -/
  | cntSetOvf (sel ovf : Nat)
  /-- `CNT_SET_SQN cSEL, SQN`, format CQ (R154). -/
  | cntSetSqn (sel sqn : Nat)
  /-- `CNT_INC cSEL`, format C (R155). -/
  | cntInc (sel : Nat)
  /-- `TIMER_ENC`, format N (R162). -/
  | timerEnc
deriving DecidableEq, Repr

end Sys2Proof
end

