-- ==== Sys2Proof/WellFormed.lean ====
section
/-! DEFINITION. Which operands fit their fields: the assembler's refusals (30_encoding.md R97, 93 X9). -/

namespace Sys2Proof

/-- N, ID, MTU, IDX and OVF are fields of 16 bits (R89, R97). -/
def fits16 (v : Nat) : Bool := v ≤ 0xFFFF

/-- LEN, BIDX and SQN are fields of 8 bits (R89, R97). -/
def fits8 (v : Nat) : Bool := v ≤ 0xFF

/-- ALEN is a field of 5 bits (R89, R97). -/
def fitsAlen (v : Nat) : Bool := v ≤ 31

/-- SEL is a field of 2 bits: cK with K at most 3 (R89, R97). -/
def fitsSel (v : Nat) : Bool := v ≤ 3

/-- Every operand fits its field (R97). It does not compare an operand with a parameter or with the list: the
block checks those itself (R87, R88). -/
def Instr.wellFormed : Instr → Bool
  | .clear => true
  | .encode => true
  | .decode n => fits16 n
  | .addUnit id len => fits16 id && fits8 len
  | .addDns4Req => true
  | .addDns6Req => true
  | .addIpalloc => true
  | .addDns4Addr alen => fitsAlen alen
  | .addPcscf4Addr alen => fitsAlen alen
  | .addDns6Addr alen => fitsAlen alen
  | .addMtu mtu => fits16 mtu
  | .getUnit idx => fits16 idx
  | .getByte idx bidx => fits16 idx && fits8 bidx
  | .cntRead sel => fitsSel sel
  | .cntGetOvf sel => fitsSel sel
  | .cntGetSqn sel => fitsSel sel
  | .cntSet sel ovf sqn => fitsSel sel && fits16 ovf && fits8 sqn
  | .cntSetOvf sel ovf => fitsSel sel && fits16 ovf
  | .cntSetSqn sel sqn => fitsSel sel && fits8 sqn
  | .cntInc sel => fitsSel sel
  | .timerEnc => true

end Sys2Proof
end

