-- ==== Sys2Proof/Decode.lean ====
section
/-! DEFINITION. Command words: the eleven formats, the opcode map, the decoder (checks 1 and 2 of the envelope) and the encoder (30_encoding.md R82-R93). -/

namespace Sys2Proof

/-- The field `w[hi:lo]` as an unsigned integer (00_scope.md R13). -/
def bits (w : Word) (hi lo : Nat) : Nat := w.toNat / 2 ^ lo % 2 ^ (hi - lo + 1)

/-- The eleven formats of R89. -/
inductive Format where
  | n | d | u | a | m | i | ib | c | cs | co | cq
deriving DecidableEq, Repr

/-- RESERVED_MASK of a format (R89). -/
def Format.reservedMask : Format → Word
  | .n => 0x03FFFFFF
  | .d => 0x03FF0000
  | .u => 0x03000000
  | .a => 0x03FFFFE0
  | .m => 0x03FF0000
  | .i => 0x030000FF
  | .ib => 0x03000000
  | .c => 0x00FFFFFF
  | .cs => 0x00000000
  | .co => 0x000000FF
  | .cq => 0x00FFFF00

/-- Why a word is no valid command (R92): the decoder's two refusals by name. -/
inductive DecodeError where
  /-- OP is not a value of the opcode map (R85). The envelope raises CommandError(BAD_OPCODE). -/
  | badOpcode
  /-- A reserved bit of the command's format is set (R86). The envelope raises CommandError(RESERVED_NONZERO). -/
  | reservedNonzero
deriving DecidableEq, Repr

/-- The opcode map of R90: the format of OP and the command with its operands extracted from the word as R89
says, or none where OP is undefined. -/
def opcodeRow (op : Nat) (w : Word) : Option (Format × Instr) :=
  match op with
  | 0x01 => some (.n, .clear)
  | 0x02 => some (.n, .encode)
  | 0x03 => some (.d, .decode (bits w 15 0))
  | 0x04 => some (.u, .addUnit (bits w 23 8) (bits w 7 0))
  | 0x05 => some (.n, .addDns4Req)
  | 0x06 => some (.n, .addDns6Req)
  | 0x07 => some (.n, .addIpalloc)
  | 0x08 => some (.a, .addDns4Addr (bits w 4 0))
  | 0x09 => some (.a, .addPcscf4Addr (bits w 4 0))
  | 0x0A => some (.a, .addDns6Addr (bits w 4 0))
  | 0x0B => some (.m, .addMtu (bits w 15 0))
  | 0x0C => some (.i, .getUnit (bits w 23 8))
  | 0x0D => some (.ib, .getByte (bits w 23 8) (bits w 7 0))
  | 0x10 => some (.c, .cntRead (bits w 25 24))
  | 0x11 => some (.c, .cntGetOvf (bits w 25 24))
  | 0x12 => some (.c, .cntGetSqn (bits w 25 24))
  | 0x13 => some (.cs, .cntSet (bits w 25 24) (bits w 23 8) (bits w 7 0))
  | 0x14 => some (.co, .cntSetOvf (bits w 25 24) (bits w 23 8))
  | 0x15 => some (.cq, .cntSetSqn (bits w 25 24) (bits w 7 0))
  | 0x16 => some (.c, .cntInc (bits w 25 24))
  | 0x20 => some (.n, .timerEnc)
  | _ => none

/-- The decoder: check 1 (R85) before check 2 (R86). It is total, reads nothing but the word (R93), and puts every
word in one of the three classes of R92. -/
def decode (w : Word) : Except DecodeError Instr :=
  match opcodeRow (bits w 31 26) w with
  | none => .error .badOpcode
  | some (f, i) => if w &&& f.reservedMask = 0 then .ok i else .error .reservedNonzero

/-- The instruction the decoder reads from a table row's word. A command is one 32-bit word moved whole over a port
that has no byte order (R54, R69, R82). -/
def decodeTableWord (nbits w : Nat) : Option Instr :=
  (decode (BitVec.ofNat 32 (w % 2 ^ nbits))).toOption

/-- The assembled word `(OP << 26) | (SEL << 24) | IMM` (R83). -/
def commandWord (op sel imm : Nat) : Word :=
  BitVec.ofNat 32 (op <<< 26 ||| sel <<< 24 ||| imm)

/-- The encoder: the word of a command, its operands placed as R89 and the command's own rule say. -/
def encode : Instr → Word
  | .clear => commandWord 0x01 0 0
  | .encode => commandWord 0x02 0 0
  | .decode n => commandWord 0x03 0 n
  | .addUnit id len => commandWord 0x04 0 (id <<< 8 ||| len)
  | .addDns4Req => commandWord 0x05 0 0
  | .addDns6Req => commandWord 0x06 0 0
  | .addIpalloc => commandWord 0x07 0 0
  | .addDns4Addr alen => commandWord 0x08 0 alen
  | .addPcscf4Addr alen => commandWord 0x09 0 alen
  | .addDns6Addr alen => commandWord 0x0A 0 alen
  | .addMtu mtu => commandWord 0x0B 0 mtu
  | .getUnit idx => commandWord 0x0C 0 (idx <<< 8)
  | .getByte idx bidx => commandWord 0x0D 0 (idx <<< 8 ||| bidx)
  | .cntRead sel => commandWord 0x10 sel 0
  | .cntGetOvf sel => commandWord 0x11 sel 0
  | .cntGetSqn sel => commandWord 0x12 sel 0
  | .cntSet sel ovf sqn => commandWord 0x13 sel (ovf <<< 8 ||| sqn)
  | .cntSetOvf sel ovf => commandWord 0x14 sel (ovf <<< 8)
  | .cntSetSqn sel sqn => commandWord 0x15 sel sqn
  | .cntInc sel => commandWord 0x16 sel 0
  | .timerEnc => commandWord 0x20 0 0

end Sys2Proof
end

