-- ==== Sys2Proof/Config.lean ====
section
/-! DEFINITION. The parameters fixed when the block is built (00_scope.md R6-R11) and the values the spec leaves free (93_implementation_defined.md U1, U2, U7). -/

namespace Sys2Proof

/-- The implementation parameters of 00_scope.md R6-R11, each taken by the model as an argument (93 P1-P6). -/
structure Params where
  /-- `NUM_COUNTERS` (R6). -/
  numCounters : Nat
  /-- `MAX_UNITS` (R7). -/
  maxUnits : Nat
  /-- `IBUF_SIZE` (R8). -/
  ibufSize : Nat
  /-- `OBUF_SIZE` (R8). -/
  obufSize : Nat
  /-- `CAT_DNS_V4_REQ` (R9). -/
  catDnsV4Req : BitVec 16
  /-- `CAT_DNS_V6_REQ` (R9). -/
  catDnsV6Req : BitVec 16
  /-- `CAT_IP_ALLOC_NAS` (R9). -/
  catIpAllocNas : BitVec 16
  /-- `CAT_DNS_V4_ADDR` (R9). -/
  catDnsV4Addr : BitVec 16
  /-- `CAT_PCSCF_V4_ADDR` (R9). -/
  catPcscfV4Addr : BitVec 16
  /-- `CAT_DNS_V6_ADDR` (R9). -/
  catDnsV6Addr : BitVec 16
  /-- `CAT_V4_LINK_MTU` (R9). -/
  catV4LinkMtu : BitVec 16
  /-- `ACCEPT_V4MAPPED` (R10). -/
  acceptV4Mapped : Bool
  /-- `BASE_ADDR` (R11). -/
  baseAddr : Nat
deriving DecidableEq, Repr

/-- The legal ranges of R6-R8; the window's base is a multiple of its size (DEDUCED, log 11). -/
def Params.legal (p : Params) : Bool :=
  1 ≤ p.numCounters && p.numCounters ≤ 4
    && 1 ≤ p.maxUnits && p.maxUnits ≤ 65536
    && (List.range 9).any (fun k => p.ibufSize == 2 ^ (8 + k))
    && (List.range 17).any (fun k => p.obufSize == 2 ^ k)
    && p.baseAddr % 256 == 0

/-- The parameters of `State.reset`: the spec's defaults (R6, R10) and, for the OPEN ones, the values the test
vectors assume (95_test_vectors.md section 0, the catalog values from 93 G1). PRESUMED and unsafe: log 2. -/
def Params.assumed : Params where
  numCounters := 2
  maxUnits := 8
  ibufSize := 256
  obufSize := 256
  catDnsV4Req := 0x000D
  catDnsV6Req := 0x0003
  catIpAllocNas := 0x000A
  catDnsV4Addr := 0x000D
  catPcscfV4Addr := 0x000C
  catDnsV6Addr := 0x0003
  catV4LinkMtu := 0x0010
  acceptV4Mapped := false
  baseAddr := 0

/-- A draw of one byte: what an IBUF or OBUF byte that nothing has written since reset reads as, at the draw's
number (10_state.md R45, 93 U1). No value of it is known: log 3. -/
opaque Config.freeByte : Nat → Byte

/-- A draw of one word: the unspecified bits of a STATUS read while BUSY = 1 (R28, 93 U2) and the answer to a
read dropped by reset (R199, 93 U7). No value of it is known: logs 6 and 8. -/
opaque Config.freeWord : Nat → Word

end Sys2Proof
end

