-- ==== Sys2Proof/Machine/State.lean ====
section
/-! DEFINITION. The machine's state as plain data (10_state.md R19-R51), its reset value, and the reasons a step could stop. -/

namespace Sys2Proof.Machine

/-- A Container Unit (10_state.md R35). Its length is the length of its content; no separate length is stored. -/
structure ContainerUnit where
  id : BitVec 16
  content : List Byte
deriving DecidableEq, Repr

/-- A byte store that knows which bytes have been written: the pairs of index and byte written since reset, indices
strictly rising. An index not listed has no value, and reading it is a draw (R45, log 3). -/
abbrev Memory := List Host.Cell

/-- The state `st` of the decode state machine, with the part of the unit being read that is known in it
(10_state.md R46): the id once READING_ID has read it, the length once READING_LENGTH has. -/
inductive DecodeSt where
  | metaByte
  | readingId
  | readingLength (cid : BitVec 16)
  | readingContent (cid : BitVec 16) (clen : Byte)
  | done
deriving DecidableEq, Repr

/-- The decode state, present only while DECODE runs (10_state.md R46): `st` with the unit being read, the cursor
`cur` into IBUF and the remaining count `rem`. -/
structure DecodeState where
  st : DecodeSt
  cur : Nat
  rem : Nat
deriving DecidableEq, Repr

/-- A host access (20_memory.md R53): a platform address and, for a write, a 32-bit data word. -/
inductive Access where
  | read (addr : Nat)
  | write (addr : Nat) (data : Word)
deriving DecidableEq, Repr

/-- What reaches the block from outside, or happens in it, next (the schedule is an input: 93 U5, U6; log 5). -/
inductive PortEvent where
  /-- A host access arrives at the port. -/
  | access (a : Access)
  /-- The running command, if there is one, completes before anything else happens. -/
  | engine
  /-- The platform asserts reset (70_reset_and_hazards.md R196). -/
  | assertReset
  /-- The platform releases reset (R196). -/
  | releaseReset
deriving DecidableEq, Repr

/-- Everything the spec gives the machine (10_state.md R19), and the model's own fields `params`, `port`, `answer`
and `draws` (INVENTORY.md, State). -/
structure State where
  /-- The build-time parameters; no step changes them (log 1). -/
  params : Params
  /-- STATUS.ERR (R23). -/
  err : Bool
  /-- STATUS.STICKY (R24). -/
  sticky : Bool
  /-- STATUS.ERRCODE (R25). -/
  errCode : BitVec 4
  /-- STATUS.ERRDETAIL (R26). -/
  errDetail : BitVec 4
  /-- STATUS.DEC_STATE (R27). -/
  decState : BitVec 3
  /-- RESULT (R29). -/
  result : Word
  /-- OUT_LEN (R31). -/
  outLen : Word
  /-- IBUF_PTR (R41). -/
  ibufPtr : Word
  /-- OBUF_PTR (R43). -/
  obufPtr : Word
  /-- ARG0 (R32). -/
  arg0 : Word
  /-- ARG1 (R32). -/
  arg1 : Word
  /-- ARG2 (R32). -/
  arg2 : Word
  /-- ARG3 (R32). -/
  arg3 : Word
  /-- COUNT0 (R33). -/
  count0 : Word
  /-- COUNT1 (R33), present if NUM_COUNTERS is at least 2. -/
  count1 : Word
  /-- COUNT2 (R33), present if NUM_COUNTERS is at least 3. -/
  count2 : Word
  /-- COUNT3 (R33), present if NUM_COUNTERS is 4. -/
  count3 : Word
  /-- The unit list (R35-R37). UNIT_COUNT is its length (R19, R30). -/
  units : List ContainerUnit
  /-- IBUF (R39). -/
  ibuf : Memory
  /-- OBUF (R40). -/
  obuf : Memory
  /-- The decode state, present only while DECODE runs (R46). -/
  decoding : Option DecodeState
  /-- The word of the running command; STATUS.BUSY is 1 exactly while there is one (R22, R84). -/
  running : Option Word
  /-- The access the interlock holds until BUSY = 0 (R57). -/
  held : Option Access
  /-- Whether the platform asserts reset (R196). -/
  inReset : Bool
  /-- The schedule: what happens next, in order (log 5). -/
  port : List PortEvent
  /-- The word answered to the latest host read, none if the block did not answer it (log 10). -/
  answer : Option Word
  /-- The number of the next draw (log 4). -/
  draws : Nat
deriving DecidableEq, Repr

/-- The reset state of a block built with parameters `p` (10_state.md R51, 70_reset_and_hazards.md R197): every
register 0, the list empty, no byte of IBUF or OBUF with a value. -/
def State.resetOf (p : Params) : State where
  params := p
  err := false
  sticky := false
  errCode := 0
  errDetail := 0
  decState := 0
  result := 0
  outLen := 0
  ibufPtr := 0
  obufPtr := 0
  arg0 := 0
  arg1 := 0
  arg2 := 0
  arg3 := 0
  count0 := 0
  count1 := 0
  count2 := 0
  count3 := 0
  units := []
  ibuf := []
  obuf := []
  decoding := none
  running := none
  held := none
  inReset := false
  port := []
  answer := none
  draws := 0

/-- The machine right after reset, built with the assumed parameters (log 2). -/
def State.reset : State := State.resetOf Params.assumed

/-- The reasons a step stops the machine: none. NAS-CORE has no trap and never hangs, and every command on every
word completes (60_exceptions.md R170, R186). Safe: nothing the block does is cut short (log 19). -/
inductive Fault where
deriving DecidableEq, Repr

/-- The reasons the model gives an instruction no meaning. -/
inductive Refusal where
  /-- Raised by an arm of exec for an instruction without a meaning; no arm raises it. Safe: it would stop the run. -/
  | notModelled (mnemonic : String)
deriving DecidableEq, Repr

end Sys2Proof.Machine
end

