-- ==== Sys2Proof/Machine/Flags.lean ====
section
/-! DEFINITION. The error kinds with their codes and details (60_exceptions.md R171, R172), the codes of the decode states, and the STATUS word (10_state.md R22-R28). -/

namespace Sys2Proof.Machine

/-- The field of the wire form a codec error names (R172). -/
inductive WireField where
  | metaByte | id | length | content
deriving DecidableEq, Repr

/-- The three failures of TIMER_ENC (R172). -/
inductive Granularity where
  | notMult2s | notMultDecihour | outOfRange
deriving DecidableEq, Repr

/-- The four failures of the command checks (R172, R178). -/
inductive CommandFault where
  | badOpcode | reservedNonzero | badSelect | badOperand
deriving DecidableEq, Repr

/-- The error kinds of R171, each with its detail. -/
inductive CmdError where
  /-- EncodingError: a field write to OBUF would pass its end (R173). -/
  | encoding (f : WireField)
  /-- TruncatedInputError: a decode read needs more bytes than remain (R174). -/
  | truncatedInput (f : WireField)
  /-- InvalidAddressFamily: an address of the other family (R175). -/
  | invalidAddressFamily
  /-- InvalidLength: an address of neither family's length (R176). -/
  | invalidLength
  /-- InvalidGranularity: a timer input off its tier's step or out of range (R177). -/
  | invalidGranularity (g : Granularity)
  /-- CommandError: a malformed word or an operand out of range (R178). -/
  | command (c : CommandFault)
  /-- CapacityError(UNITS): an append to a full unit list (R179). -/
  | capacity
deriving DecidableEq, Repr

/-- The detail value of a field name (R172). -/
def WireField.detail : WireField → BitVec 4
  | .metaByte => 1
  | .id => 2
  | .length => 3
  | .content => 4

/-- The detail value of a timer failure (R172). -/
def Granularity.detail : Granularity → BitVec 4
  | .notMult2s => 1
  | .notMultDecihour => 2
  | .outOfRange => 3

/-- The detail value of a failed command check (R172). -/
def CommandFault.detail : CommandFault → BitVec 4
  | .badOpcode => 1
  | .reservedNonzero => 2
  | .badSelect => 3
  | .badOperand => 4

/-- `code(E)`: the ERRCODE of an error kind (R171). -/
def CmdError.code : CmdError → BitVec 4
  | .encoding _ => 1
  | .truncatedInput _ => 2
  | .invalidAddressFamily => 3
  | .invalidLength => 4
  | .invalidGranularity _ => 5
  | .command _ => 6
  | .capacity => 7

/-- The ERRDETAIL of an error (R172). -/
def CmdError.detail : CmdError → BitVec 4
  | .encoding f => f.detail
  | .truncatedInput f => f.detail
  | .invalidAddressFamily => 0
  | .invalidLength => 0
  | .invalidGranularity g => g.detail
  | .command c => c.detail
  | .capacity => 1

/-- `code(st)`: the DEC_STATE value of a decode state (10_state.md R27). -/
def DecodeSt.code : DecodeSt → BitVec 3
  | .metaByte => 1
  | .readingId => 2
  | .readingLength _ => 3
  | .readingContent _ _ => 4
  | .done => 5

/-- STATUS.BUSY (R22). -/
def State.busy (s : State) : Bool := s.running.isSome

/-- The STATUS word, its fields at the places of R22-R28 and its reserved bits 0: bits 31:19, DEC_STATE, ERRDETAIL,
ERRCODE, bits 7:3, STICKY, ERR, BUSY. -/
def State.statusWord (s : State) : Word :=
  0#13 ++ s.decState ++ s.errDetail ++ s.errCode ++ 0#5
    ++ BitVec.ofBool s.sticky ++ BitVec.ofBool s.err ++ BitVec.ofBool s.busy

/-- A STATUS read while BUSY = 1: bit 0 reads 1 and bits 31:1 are unspecified, a draw (R28, R213, 93 U2). -/
def State.busyStatusWord (s : State) : Word :=
  (Config.freeWord s.draws).extractLsb' 1 31 ++ 1#1

/-- The UNIT_COUNT register: the number of units in the list (R19, R30). -/
def State.unitCount (s : State) : Word := BitVec.ofNat 32 s.units.length

end Sys2Proof.Machine
end

