-- ==== Sys2Proof/Machine/Ops.lean ====
section
/-! DEFINITION. The named operations over memory and registers, the ending of a command (the spec's way to take an error: 30_encoding.md R84, 60_exceptions.md R180), and reset. -/

namespace Sys2Proof.Machine

/-- What index `a` of a byte store holds: none if nothing has written it since reset (10_state.md R45). -/
def Memory.read : Memory → Nat → Option Byte
  | [], _ => none
  | (k, v) :: m, a => if k = a then some v else Memory.read m a

/-- Store byte `b` at index `a`, keeping the indices strictly rising. -/
def Memory.write : Memory → Nat → Byte → Memory
  | [], a, b => [(a, b)]
  | (k, v) :: m, a, b =>
    if a < k then (a, b) :: (k, v) :: m
    else if a = k then (a, b) :: m
    else (k, v) :: Memory.write m a b

/-- `MemWrite`: store `bytes[j]` at index `a + j` for each j (00_scope.md R17). -/
def Memory.writeBytes : Memory → Nat → List Byte → Memory
  | m, _, [] => m
  | m, a, b :: bs => Memory.writeBytes (Memory.write m a b) (a + 1) bs

/-- The canonical form of a byte store: indices strictly rising. Every listed index differs from an unlisted one,
which has no value. -/
abbrev Memory.wf (m : Memory) : Prop := m.Pairwise (fun c d => c.1 < d.1)

/-- Every index of the store lies below `size` (10_state.md R39, R40). -/
abbrev Memory.within (m : Memory) (size : Nat) : Prop := ∀ c ∈ m, c.1 < size

/-- The byte read at index `a` of IBUF, draw number `j` of this command if nothing has written it (R45). -/
def State.ibufByte (s : State) (a j : Nat) : Byte :=
  (s.ibuf.read a).getD (Config.freeByte (s.draws + j))

/-- `MemRead(IBUF, a, n)` (00_scope.md R17). -/
def State.ibufBytes (s : State) (a n : Nat) : List Byte :=
  (List.range n).map fun j => s.ibufByte (a + j) j

/-- The byte read at index `a` of OBUF, a draw if no ENCODE has written it (R45, 20_memory.md R63). -/
def State.obufByte (s : State) (a : Nat) : Byte :=
  (s.obuf.read a).getD (Config.freeByte s.draws)

/-- `n` draws have been taken: later ones are new values (93 U1, log 3). -/
def State.drawn (n : Nat) (s : State) : State := { s with draws := s.draws + n }

/-- ARG[k] (10_state.md R32); the block has k = 0 to 3. -/
def State.arg (s : State) (k : Nat) : Word :=
  match k with
  | 0 => s.arg0
  | 1 => s.arg1
  | 2 => s.arg2
  | _ => s.arg3

/-- ARG[k] <- w (20_memory.md R64). -/
def State.setArg (k : Nat) (w : Word) (s : State) : State :=
  match k with
  | 0 => { s with arg0 := w }
  | 1 => { s with arg1 := w }
  | 2 => { s with arg2 := w }
  | _ => { s with arg3 := w }

/-- COUNT[k] (10_state.md R33); the block has at most k = 0 to 3 (log 18). -/
def State.count (s : State) (k : Nat) : Word :=
  match k with
  | 0 => s.count0
  | 1 => s.count1
  | 2 => s.count2
  | _ => s.count3

/-- COUNT[k] <- v, reduced modulo 2^24: bits 31:24 are hardwired 0 (10_state.md R34, 42_security_counter.md R143). -/
def State.setCount (k v : Nat) (s : State) : State :=
  let w := BitVec.ofNat 32 (v % 2 ^ 24)
  match k with
  | 0 => { s with count0 := w }
  | 1 => { s with count1 := w }
  | 2 => { s with count2 := w }
  | _ => { s with count3 := w }

/-- RESULT <- w (10_state.md R29). -/
def State.setResult (w : Word) (s : State) : State := { s with result := w }

/-- The unit list becomes `us`, and UNIT_COUNT its length (10_state.md R30). -/
def State.setUnits (us : List ContainerUnit) (s : State) : State := { s with units := us }

/-- The decode state becomes `d` (10_state.md R46). -/
def State.setDecoding (d : DecodeState) (s : State) : State := { s with decoding := some d }

/-- DECODE ends in the state of code `c`, and its decode state is gone (10_state.md R46, 40_tlv_codec.md R115). -/
def State.endDecode (c : BitVec 3) (s : State) : State := { s with decState := c, decoding := none }

/-- ENCODE ends having written `o` bytes: OUT_LEN <- o and OBUF_PTR <- 0 (40_tlv_codec.md R106). -/
def State.endEncode (o : Nat) (s : State) : State :=
  { s with outLen := BitVec.ofNat 32 o, obufPtr := 0 }

/-- `MemWrite(OBUF, o, bytes)` (00_scope.md R17). -/
def State.writeObuf (o : Nat) (bytes : List Byte) (s : State) : State :=
  { s with obuf := s.obuf.writeBytes o bytes }

/-- The schedule becomes `es` (log 5). -/
def State.setPort (es : List PortEvent) (s : State) : State := { s with port := es }

/-- The interlock holds `a`, or nothing (20_memory.md R57). -/
def State.setHeld (a : Option Access) (s : State) : State := { s with held := a }

/-- The latest host read is answered `w`, or not at all (log 10). -/
def State.setAnswer (w : Option Word) (s : State) : State := { s with answer := w }

/-- The command of word `w` runs, so BUSY is 1 (20_memory.md R65). -/
def State.setRunning (w : Word) (s : State) : State := { s with running := some w }

/-- STICKY <- 0 (20_memory.md R58). -/
def State.clearSticky (s : State) : State := { s with sticky := false }

/-- IBUF_PTR <- w (10_state.md R41). -/
def State.setIbufPtr (w : Word) (s : State) : State := { s with ibufPtr := w }

/-- OBUF_PTR <- w (10_state.md R43). -/
def State.setObufPtr (w : Word) (s : State) : State := { s with obufPtr := w }

/-- IBUF[a] <- b (20_memory.md R60). -/
def State.writeIbuf (a : Nat) (b : Byte) (s : State) : State := { s with ibuf := s.ibuf.write a b }

/-- How a command's pseudocode ends: with success, or with `raise E(d)`, the writes made before it standing
(00_scope.md R18). -/
inductive Ended where
  | ok (s : State)
  | raised (e : CmdError) (s : State)
deriving DecidableEq, Repr

/-- The end of the envelope (30_encoding.md R84, 60_exceptions.md R180), the block's whole error taking: a success
clears ERR, ERRCODE and ERRDETAIL; an error sets ERR and STICKY and records its code and detail; BUSY becomes 0. -/
def Ended.complete : Ended → State
  | .ok s => { s with err := false, errCode := 0, errDetail := 0, running := none }
  | .raised e s =>
    { s with err := true, errCode := e.code, errDetail := e.detail, sticky := true, running := none }

/-- `append(u)`: the only way a command adds a unit (10_state.md R38). -/
def State.append (u : ContainerUnit) (s : State) : Ended :=
  if s.units.length = s.params.maxUnits then .raised .capacity s
  else .ok (s.setUnits (s.units ++ [u]))

/-- Reset is asserted (70_reset_and_hazards.md R196, R199): the running command ends with no report. An access held
by the interlock is dropped, and a held read answers an unspecified word (93 U7, log 8). -/
def State.assertReset (s : State) : State :=
  { s with
    inReset := true
    running := none
    decoding := none
    held := none
    answer := match s.held with
      | some (.read _) => some (Config.freeWord s.draws)
      | _ => s.answer
    draws := s.draws + 1 }

/-- Reset is released: the reset state of R197, IBUF and OBUF unspecified again (R198). What is not the block's
stays: the parameters, the schedule, the host's last answer and the number of the next draw (log 9). -/
def State.releaseReset (s : State) : State :=
  { State.resetOf s.params with port := s.port, answer := s.answer, draws := s.draws }

end Sys2Proof.Machine
end

