-- ==== Sys2Proof/Machine/Operands.lean ====
section
/-! DEFINITION. Operand forms: byte order (20_memory.md R68), address operands (41_tlv_builders.md R128-R131), counter fields (42_security_counter.md R142), the timer's conversion (43_gprs_timer.md R162-R166). -/

namespace Sys2Proof.Machine

/-- `be16`: a big-endian 16-bit value from two bytes (00_scope.md R17, R68). -/
def be16 (b0 b1 : Byte) : BitVec 16 := b0 ++ b1

/-- A 16-bit value as two bytes, the most significant first (R68). -/
def bytes16 (v : BitVec 16) : List Byte := [v.extractLsb' 8 8, v.extractLsb' 0 8]

/-- `addr(k)`: byte k of the address in ARG0-ARG3, byte 0 in ARG0[31:24] (R128). -/
def State.addrByte (s : State) (k : Nat) : Byte :=
  (s.arg (k / 4)).extractLsb' (24 - 8 * (k % 4)) 8

/-- The address bytes `[addr(first), ..., addr(first + n - 1)]`. -/
def State.addrBytes (s : State) (first n : Nat) : List Byte :=
  (List.range n).map fun j => s.addrByte (first + j)

/-- Bytes 0 to 9 are 0x00 and bytes 10 and 11 are 0xFF: an IPv4-mapped IPv6 address (R129, 93 G2). -/
def State.v4Mapped (s : State) : Bool :=
  s.addrBytes 0 10 == List.replicate 10 0x00 && s.addrBytes 10 2 == [0xFF, 0xFF]

/-- `ipv4_operand()` (R129). -/
def State.ipv4Operand (alen : Nat) (s : State) : Except CmdError (List Byte) :=
  if alen = 4 then .ok (s.addrBytes 0 4)
  else if alen = 16 then
    if s.params.acceptV4Mapped && s.v4Mapped then .ok (s.addrBytes 12 4)
    else .error .invalidAddressFamily
  else .error .invalidLength

/-- `ipv6_operand()` (R130). -/
def State.ipv6Operand (alen : Nat) (s : State) : Except CmdError (List Byte) :=
  if alen = 16 then .ok (s.addrBytes 0 16)
  else if alen = 4 then .error .invalidAddressFamily
  else .error .invalidLength

/-- COUNT[k][23:8] (R142). -/
def overflowOf (c : Word) : Nat := c.toNat / 2 ^ 8 % 2 ^ 16

/-- COUNT[k][7:0] (R142). -/
def sqnOf (c : Word) : Nat := c.toNat % 2 ^ 8

/-- `(overflow << 8) | sqn` (R142). -/
def countOf (ovf sqn : Nat) : Nat := ovf <<< 8 ||| sqn

/-- The byte TIMER_ENC makes of `sec` seconds, or its error: the three tiers of R161 in order, the sub-minute
remainder dropped (R164) and the multiple-of-6 check before the range check (R165, R166). -/
def timerByte (sec : Nat) : Except CmdError Nat :=
  if sec ≤ 64 then
    if sec % 2 = 0 then .ok (sec / 2) else .error (.invalidGranularity .notMult2s)
  else if sec / 60 ≤ 31 then .ok (0x20 ||| sec / 60)
  else if sec / 60 % 6 ≠ 0 then .error (.invalidGranularity .notMultDecihour)
  else if sec / 60 / 6 > 31 then .error (.invalidGranularity .outOfRange)
  else .ok (0x40 ||| sec / 60 / 6)

end Sys2Proof.Machine
end

