-- ==== Sys2Proof/Machine/Builders.lean ====
section
/-! DEFINITION. The commands that append one unit, ADD_UNIT and the seven builders (41_tlv_builders.md R123-R137). -/

namespace Sys2Proof.Machine

/-- Append a unit whose content is an operand that may itself have raised: the operand's error comes first (R127,
R131, 60_exceptions.md R183). -/
def State.appendOperand (id : BitVec 16) (c : Except CmdError (List Byte)) (s : State) : Ended :=
  match c with
  | .error e => .raised e s
  | .ok content => s.append ⟨id, content⟩

/-- ADD_UNIT ID, LEN (R123): the content is IBUF[0..LEN-1]. -/
def execAddUnit (id len : Nat) (s : State) : Host.Outcome State Fault Refusal :=
  .next ((s.drawn len).append ⟨BitVec.ofNat 16 id, s.ibufBytes 0 len⟩).complete

/-- ADD_DNS4_REQ (R124). -/
def execAddDns4Req (s : State) : Host.Outcome State Fault Refusal :=
  .next (s.append ⟨s.params.catDnsV4Req, []⟩).complete

/-- ADD_DNS6_REQ (R125). -/
def execAddDns6Req (s : State) : Host.Outcome State Fault Refusal :=
  .next (s.append ⟨s.params.catDnsV6Req, []⟩).complete

/-- ADD_IPALLOC (R126). -/
def execAddIpalloc (s : State) : Host.Outcome State Fault Refusal :=
  .next (s.append ⟨s.params.catIpAllocNas, []⟩).complete

/-- ADD_DNS4_ADDR ALEN (R132). -/
def execAddDns4Addr (alen : Nat) (s : State) : Host.Outcome State Fault Refusal :=
  .next (s.appendOperand s.params.catDnsV4Addr (s.ipv4Operand alen)).complete

/-- ADD_PCSCF4_ADDR ALEN (R133). -/
def execAddPcscf4Addr (alen : Nat) (s : State) : Host.Outcome State Fault Refusal :=
  .next (s.appendOperand s.params.catPcscfV4Addr (s.ipv4Operand alen)).complete

/-- ADD_DNS6_ADDR ALEN (R134). -/
def execAddDns6Addr (alen : Nat) (s : State) : Host.Outcome State Fault Refusal :=
  .next (s.appendOperand s.params.catDnsV6Addr (s.ipv6Operand alen)).complete

/-- ADD_MTU MTU (R136): the MTU as two big-endian bytes. -/
def execAddMtu (mtu : Nat) (s : State) : Host.Outcome State Fault Refusal :=
  .next (s.append ⟨s.params.catV4LinkMtu, bytes16 (BitVec.ofNat 16 mtu)⟩).complete

end Sys2Proof.Machine
end

