-- ==== Sys2Proof/Machine/Codec.lean ====
section
/-! DEFINITION. The codec commands CLEAR, ENCODE and DECODE (40_tlv_codec.md R99-R118). -/

namespace Sys2Proof.Machine

/-- CLEAR (R103). -/
def execClear (s : State) : Host.Outcome State Fault Refusal :=
  .next (Ended.ok (s.setUnits [])).complete

/-- `put(f, bytes)` at offset `o` (R105): the field is written whole and ENCODE goes on as `k` says, or it would
pass the end of OBUF and ENCODE ends with EncodingError(f), OUT_LEN = o and OBUF_PTR = 0. -/
def State.put (f : WireField) (bytes : List Byte) (o : Nat) (s : State) (k : Nat → State → Ended) : Ended :=
  if o + bytes.length > s.params.obufSize then .raised (.encoding f) (s.endEncode o)
  else k (o + bytes.length) (s.writeObuf o bytes)

/-- ENCODE's loop over the units not yet written, from offset `o` (R104). -/
def encodeUnits : List ContainerUnit → Nat → State → Ended
  | [], o, s => .ok (s.endEncode o)
  | u :: us, o, s =>
    s.put .id (bytes16 u.id) o fun o s =>
      s.put .length [BitVec.ofNat 8 u.content.length] o fun o s =>
        s.put .content u.content o fun o s => encodeUnits us o s

/-- ENCODE (R104-R106): the meta byte 0x80 (R100), then the units in list order. -/
def execEncode (s : State) : Host.Outcome State Fault Refusal :=
  .next (s.put .metaByte [0x80] 0 fun o t => encodeUnits s.units o t).complete

/-- `fail(f)`: DEC_STATE records the state whose read failed (R108). -/
def decodeFail (d : DecodeState) (f : WireField) (s : State) : Ended :=
  .raised (.truncatedInput f) (s.endDecode d.st.code)

/-- `appendD(u)`, then the decode state becomes `next`: if the list is full, DEC_STATE records the state first and
CapacityError(UNITS) is raised (R108). -/
def decodeAppend (d next : DecodeState) (u : ContainerUnit) (s : State) : Ended :=
  match s.append u with
  | .raised e s => .raised e (s.endDecode d.st.code)
  | .ok s => .ok (s.setDecoding next)

/-- Step META (R109): the meta byte is read and discarded. -/
def decodeMeta (d : DecodeState) (s : State) : Ended :=
  if d.rem < 1 then decodeFail d .metaByte s
  else .ok ((s.drawn 1).setDecoding ⟨.readingId, d.cur + 1, d.rem - 1⟩)

/-- Step READING_ID (R110): a big-endian id. -/
def decodeId (d : DecodeState) (s : State) : Ended :=
  if d.rem < 2 then decodeFail d .id s
  else
    let cid := be16 (s.ibufByte d.cur 0) (s.ibufByte (d.cur + 1) 1)
    .ok ((s.drawn 2).setDecoding ⟨.readingLength cid, d.cur + 2, d.rem - 2⟩)

/-- Step READING_LENGTH (R111): a unit of length 0 is complete and appended at once. -/
def decodeLength (cid : BitVec 16) (d : DecodeState) (s : State) : Ended :=
  if d.rem < 1 then decodeFail d .length s
  else
    let clen := s.ibufByte d.cur 0
    if clen = 0 then decodeAppend d ⟨.readingId, d.cur + 1, d.rem - 1⟩ ⟨cid, []⟩ (s.drawn 1)
    else .ok ((s.drawn 1).setDecoding ⟨.readingContent cid clen, d.cur + 1, d.rem - 1⟩)

/-- Step READING_CONTENT (R112): exactly `clen` bytes, then the unit is appended. -/
def decodeContent (cid : BitVec 16) (clen : Byte) (d : DecodeState) (s : State) : Ended :=
  if d.rem < clen.toNat then decodeFail d .content s
  else
    decodeAppend d ⟨.readingId, d.cur + clen.toNat, d.rem - clen.toNat⟩
      ⟨cid, s.ibufBytes d.cur clen.toNat⟩ (s.drawn clen.toNat)

/-- One step of the state machine (R118). Without a decode state, or in DONE, there is no step to run. -/
def decodeStep (s : State) : Ended :=
  match s.decoding with
  | none => .ok s
  | some d =>
    match d.st with
    | .metaByte => decodeMeta d s
    | .readingId => decodeId d s
    | .readingLength cid => decodeLength cid d s
    | .readingContent cid clen => decodeContent cid clen d s
    | .done => .ok s

/-- The exit test of R113: READING_ID with no byte remaining. -/
def State.decodeFinished (s : State) : Bool :=
  match s.decoding with
  | some d => d.st == .readingId && d.rem == 0
  | none => false

/-- The loop of R113, at most `fuel` steps: a step runs, then the exit test; DEC_STATE becomes DONE on success
(R115). N + 1 steps always suffice (R119, log 14), so the fuel never runs out. -/
def decodeLoop : Nat → State → Ended
  | 0, s => .ok s
  | fuel + 1, s =>
    match decodeStep s with
    | .raised e s => .raised e s
    | .ok s => if s.decodeFinished then .ok (s.endDecode DecodeSt.done.code) else decodeLoop fuel s

/-- DECODE N (R107): check 4, then the list is emptied and the state machine runs from META (R108, R109). -/
def execDecode (n : Nat) (s : State) : Host.Outcome State Fault Refusal :=
  .next (if n > s.params.ibufSize then Ended.raised (.command .badOperand) s
    else decodeLoop (n + 1) ((s.setUnits []).setDecoding ⟨.metaByte, 0, n⟩)).complete

end Sys2Proof.Machine
end

