-- ==== Sys2Proof/Machine/Counter.lean ====
section
/-! DEFINITION. The seven security counter commands (42_security_counter.md R142-R155). -/

namespace Sys2Proof.Machine

/-- Check 3 of the envelope (30_encoding.md R87), then the counter command's own effect. -/
def State.withCounter (sel : Nat) (s : State) (effect : State → State) : Ended :=
  if sel ≥ s.params.numCounters then .raised (.command .badSelect) s else .ok (effect s)

/-- CNT_READ (R149). -/
def execCntRead (sel : Nat) (s : State) : Host.Outcome State Fault Refusal :=
  .next (s.withCounter sel (State.setResult (s.count sel))).complete

/-- CNT_GET_OVF (R150). -/
def execCntGetOvf (sel : Nat) (s : State) : Host.Outcome State Fault Refusal :=
  .next (s.withCounter sel (State.setResult (BitVec.ofNat 32 (overflowOf (s.count sel))))).complete

/-- CNT_GET_SQN (R151). -/
def execCntGetSqn (sel : Nat) (s : State) : Host.Outcome State Fault Refusal :=
  .next (s.withCounter sel (State.setResult (BitVec.ofNat 32 (sqnOf (s.count sel))))).complete

/-- CNT_SET (R152). -/
def execCntSet (sel ovf sqn : Nat) (s : State) : Host.Outcome State Fault Refusal :=
  .next (s.withCounter sel (State.setCount sel (countOf ovf sqn))).complete

/-- CNT_SET_OVF (R153): sqn is unchanged. -/
def execCntSetOvf (sel ovf : Nat) (s : State) : Host.Outcome State Fault Refusal :=
  .next (s.withCounter sel (State.setCount sel (countOf ovf (sqnOf (s.count sel))))).complete

/-- CNT_SET_SQN (R154): overflow is unchanged. -/
def execCntSetSqn (sel sqn : Nat) (s : State) : Host.Outcome State Fault Refusal :=
  .next (s.withCounter sel (State.setCount sel (countOf (overflowOf (s.count sel)) sqn))).complete

/-- CNT_INC (R155): the wrap from 0xFFFFFF to 0 is silent (R145). -/
def execCntInc (sel : Nat) (s : State) : Host.Outcome State Fault Refusal :=
  .next (s.withCounter sel (State.setCount sel ((s.count sel).toNat + 1))).complete

end Sys2Proof.Machine
end

