-- ==== Sys2Proof/Machine/Readback.lean ====
section
/-! DEFINITION. The commands that read the unit list back, GET_UNIT and GET_BYTE (41_tlv_builders.md R138-R140). -/

namespace Sys2Proof.Machine

/-- The word GET_UNIT returns: the id in bits 23:8 and the length in bits 7:0 (R139, 20_memory.md R69). -/
def ContainerUnit.header (u : ContainerUnit) : Word :=
  BitVec.ofNat 32 (u.id.toNat <<< 8 ||| u.content.length)

/-- GET_UNIT IDX (R139), its check 4 first. -/
def execGetUnit (idx : Nat) (s : State) : Host.Outcome State Fault Refusal :=
  .next (match s.units[idx]? with
    | none => Ended.raised (.command .badOperand) s
    | some u => Ended.ok (s.setResult u.header)).complete

/-- GET_BYTE IDX, BIDX (R140), its check 4 first. -/
def execGetByte (idx bidx : Nat) (s : State) : Host.Outcome State Fault Refusal :=
  .next (match s.units[idx]? with
    | none => Ended.raised (.command .badOperand) s
    | some u =>
      match u.content[bidx]? with
      | none => Ended.raised (.command .badOperand) s
      | some b => Ended.ok (s.setResult (b.setWidth 32))).complete

end Sys2Proof.Machine
end

