-- ==== Sys2Proof/Machine/Timer.lean ====
section
/-! DEFINITION. The GPRS Timer 2 command TIMER_ENC (43_gprs_timer.md R159-R166). -/

namespace Sys2Proof.Machine

/-- TIMER_ENC (R162): the seconds are ARG0 (R160); RESULT is written on success only. -/
def execTimerEnc (s : State) : Host.Outcome State Fault Refusal :=
  .next (match timerByte s.arg0.toNat with
    | .error e => Ended.raised e s
    | .ok r => Ended.ok (s.setResult (BitVec.ofNat 32 r))).complete

end Sys2Proof.Machine
end

