-- ==== Sys2Proof/Machine/Dispatch.lean ====
section
/-! DEFINITION. One arm per command: what it does once its word has passed checks 1 and 2 (30_encoding.md R84-R90). -/

namespace Sys2Proof.Machine

def exec (i : Instr) (s : State) : Host.Outcome State Fault Refusal :=
  match i with
  | .clear => Sys2Proof.Machine.execClear s
  | .encode => Sys2Proof.Machine.execEncode s
  | .decode n => Sys2Proof.Machine.execDecode n s
  | .addUnit id len => Sys2Proof.Machine.execAddUnit id len s
  | .addDns4Req => Sys2Proof.Machine.execAddDns4Req s
  | .addDns6Req => Sys2Proof.Machine.execAddDns6Req s
  | .addIpalloc => Sys2Proof.Machine.execAddIpalloc s
  | .addDns4Addr alen => Sys2Proof.Machine.execAddDns4Addr alen s
  | .addPcscf4Addr alen => Sys2Proof.Machine.execAddPcscf4Addr alen s
  | .addDns6Addr alen => Sys2Proof.Machine.execAddDns6Addr alen s
  | .addMtu mtu => Sys2Proof.Machine.execAddMtu mtu s
  | .getUnit idx => Sys2Proof.Machine.execGetUnit idx s
  | .getByte idx bidx => Sys2Proof.Machine.execGetByte idx bidx s
  | .cntRead sel => Sys2Proof.Machine.execCntRead sel s
  | .cntGetOvf sel => Sys2Proof.Machine.execCntGetOvf sel s
  | .cntGetSqn sel => Sys2Proof.Machine.execCntGetSqn sel s
  | .cntSet sel ovf sqn => Sys2Proof.Machine.execCntSet sel ovf sqn s
  | .cntSetOvf sel ovf => Sys2Proof.Machine.execCntSetOvf sel ovf s
  | .cntSetSqn sel sqn => Sys2Proof.Machine.execCntSetSqn sel sqn s
  | .cntInc sel => Sys2Proof.Machine.execCntInc sel s
  | .timerEnc => Sys2Proof.Machine.execTimerEnc s

end Sys2Proof.Machine
end

