-- ==== Sys2Proof/Machine/Port.lean ====
section
/-! DEFINITION. The host register window: what every host read and write does (10_state.md R20, 20_memory.md R52-R67). -/

namespace Sys2Proof.Machine

/-- The registers of the window (R20); `unmapped` is an offset with no register (R55). -/
inductive Reg where
  | cmd | status | result | unitCount | outLen | ibufPtr | ibufData | obufPtr | obufData
  | arg (k : Nat)
  | count (k : Nat)
  | unmapped
deriving DecidableEq, Repr

/-- The platform selects the block for addresses BASE_ADDR to BASE_ADDR + 0xFF (R53). -/
def selects (p : Params) (addr : Nat) : Bool :=
  p.baseAddr ≤ addr && addr ≤ p.baseAddr + 0xFF

/-- The register at an address: index A[7:2], A[1:0] ignored (R53), by the map of R20. COUNTk exists for k below
NUM_COUNTERS only (R55). -/
def regAt (p : Params) (addr : Nat) : Reg :=
  match addr / 4 % 64 with
  | 0 => .cmd
  | 1 => .status
  | 2 => .result
  | 3 => .unitCount
  | 4 => .outLen
  | 5 => .ibufPtr
  | 6 => .ibufData
  | 7 => .obufPtr
  | 8 => .obufData
  | 9 => .arg 0
  | 10 => .arg 1
  | 11 => .arg 2
  | 12 => .arg 3
  | 13 => if 0 < p.numCounters then .count 0 else .unmapped
  | 14 => if 1 < p.numCounters then .count 1 else .unmapped
  | 15 => if 2 < p.numCounters then .count 2 else .unmapped
  | 16 => if 3 < p.numCounters then .count 3 else .unmapped
  | _ => .unmapped

/-- A buffer pointer reduced to an index below the buffer's size (R59, R60, R62). -/
def pointerOf (v size : Nat) : Word := BitVec.ofNat 32 (v % size)

/-- A pointer after its post-increment: `(p + 1) mod size` (R60, R61, R63). -/
def pointerNext (p : Word) (size : Nat) : Word := pointerOf (p.toNat + 1) size

/-- The word a host read of a register answers (R55, R56, R58-R67). -/
def State.readWord (r : Reg) (s : State) : Word :=
  match r with
  | .cmd => 0
  | .status => if s.busy then s.busyStatusWord else s.statusWord
  | .result => s.result
  | .unitCount => s.unitCount
  | .outLen => s.outLen
  | .ibufPtr => s.ibufPtr
  | .ibufData => (s.ibufByte s.ibufPtr.toNat 0).setWidth 32
  | .obufPtr => s.obufPtr
  | .obufData => (s.obufByte s.obufPtr.toNat).setWidth 32
  | .arg k => s.arg k
  | .count k => s.count k
  | .unmapped => 0

/-- What a host read changes: the IBUF_DATA and OBUF_DATA reads advance their pointers (R61, R63, R73), a read that
may draw takes a new draw, and no other read has an effect. -/
def State.afterRead (r : Reg) (s : State) : State :=
  match r with
  | .status => if s.busy then s.drawn 1 else s
  | .ibufData => (s.drawn 1).setIbufPtr (pointerNext s.ibufPtr s.params.ibufSize)
  | .obufData => (s.drawn 1).setObufPtr (pointerNext s.obufPtr s.params.obufSize)
  | _ => s

/-- What a host write of word `w` to a register does (R55, R56, R58-R65). A write to CMD sets BUSY and starts the
command w (R65). -/
def State.writeReg (r : Reg) (w : Word) (s : State) : State :=
  match r with
  | .cmd => s.setRunning w
  | .status => if w.getLsbD 2 then s.clearSticky else s
  | .result => s
  | .unitCount => s
  | .outLen => s
  | .ibufPtr => s.setIbufPtr (pointerOf w.toNat s.params.ibufSize)
  | .ibufData =>
    (s.writeIbuf s.ibufPtr.toNat (w.setWidth 8)).setIbufPtr (pointerNext s.ibufPtr s.params.ibufSize)
  | .obufPtr => s.setObufPtr (pointerOf w.toNat s.params.obufSize)
  | .obufData => s
  | .arg k => s.setArg k w
  | .count _ => s
  | .unmapped => s

/-- The address of an access. -/
def Access.addr : Access → Nat
  | .read a => a
  | .write a _ => a

/-- A host access, performed in one indivisible action (R74). An access outside the window does not reach the
block: no effect and no answer (log 11). -/
def State.perform (a : Access) (s : State) : State :=
  match a with
  | .read addr =>
    if selects s.params addr then
      (s.afterRead (regAt s.params addr)).setAnswer (some (s.readWord (regAt s.params addr)))
    else s.setAnswer none
  | .write addr w => if selects s.params addr then s.writeReg (regAt s.params addr) w else s

/-- An access that the interlock does not hold while BUSY = 1: a read of STATUS (R57), or one that does not reach
the block at all. -/
def Access.passes (p : Params) : Access → Bool
  | .read addr => !selects p addr || regAt p addr == .status
  | .write addr _ => !selects p addr

/-- While reset is asserted the block ignores host accesses (70_reset_and_hazards.md R196); a read has no answer. -/
def State.ignore (a : Access) (s : State) : State :=
  match a with
  | .read _ => s.setAnswer none
  | .write _ _ => s

end Sys2Proof.Machine
end

