-- ==== Sys2Proof/Machine/Engine.lean ====
section
/-! DEFINITION. The engine and the interlock: how a command word runs (30_encoding.md R84-R88) and which of the schedule's events is taken when (20_memory.md R57, R77, 70_reset_and_hazards.md R196-R199). -/

namespace Sys2Proof.Machine

/-- The named error of a word that is no valid command (R85, R86). -/
def CommandFault.ofDecode : DecodeError → CommandFault
  | .badOpcode => .badOpcode
  | .reservedNonzero => .reservedNonzero

/-- The envelope of R84 on the running command word `w`: checks 1 and 2, then the command. -/
def runCommand (w : Word) (s : State) : Host.Outcome State Fault Refusal :=
  match decode w with
  | .error e => .next (Ended.raised (.command (CommandFault.ofDecode e)) s).complete
  | .ok i => exec i s

/-- A step while reset is asserted: accesses are ignored, and the release gives the reset state (R196, R197). -/
def resetTurn (s : State) : State :=
  match s.port with
  | [] => s
  | .access a :: rest => (s.setPort rest).ignore a
  | .engine :: rest => s.setPort rest
  | .assertReset :: rest => s.setPort rest
  | .releaseReset :: rest => (s.setPort rest).releaseReset

/-- A step while command `w` runs (BUSY = 1). A STATUS read is performed at once; another access is held, and the
command completes before a second one is taken; with nothing else to do the command completes (R57, R212, logs 6
and 7). -/
def busyTurn (w : Word) (s : State) : Host.Outcome State Fault Refusal :=
  match s.port with
  | [] => runCommand w s
  | .access a :: rest =>
    if a.passes s.params then .next ((s.setPort rest).perform a)
    else
      match s.held with
      | none => .next ((s.setHeld (some a)).setPort rest)
      | some _ => runCommand w s
  | .engine :: rest => runCommand w (s.setPort rest)
  | .assertReset :: rest => .next (s.setPort rest).assertReset
  | .releaseReset :: rest => .next (s.setPort rest)

/-- A step while no command runs (BUSY = 0): the held access is performed first, then the schedule's next event;
with nothing scheduled the block waits (R57, R77, log 5). -/
def idleTurn (s : State) : State :=
  match s.held with
  | some a => (s.setHeld none).perform a
  | none =>
    match s.port with
    | [] => s
    | .access a :: rest => (s.setPort rest).perform a
    | .engine :: rest => s.setPort rest
    | .assertReset :: rest => (s.setPort rest).assertReset
    | .releaseReset :: rest => s.setPort rest

/-- One step of the block. -/
def turn (s : State) : Host.Outcome State Fault Refusal :=
  if s.inReset then .next (resetTurn s)
  else
    match s.running with
    | some w => busyTurn w s
    | none => .next (idleTurn s)

/-- The command word `w` is the running command and the engine moves next, so that the very next step runs it. It
stands for a host write of `w` to CMD that the port has just accepted (R65, log 5). -/
def State.startCommand (w : Word) (s : State) : State :=
  { (s.setRunning w).setPort (match s.port with
      | [] => []
      | p => .engine :: p) with inReset := false }

end Sys2Proof.Machine
end

