-- ==== Sys2Proof/Machine/Step.lean ====
section
/-! DEFINITION. The step function and the fetch of one command word. -/

namespace Sys2Proof.Machine

/-- One step of the machine: a host access, a command, a reset change, or nothing (70_reset_and_hazards.md R212). -/
def step (s : State) : Host.Outcome State Fault Refusal := turn s

/-- `s` with the command word of a table row in the engine, so that the very next step runs it (log 5). -/
def State.withFetchWord (s : State) (nbits w : Nat) : State :=
  s.startCommand (BitVec.ofNat 32 (w % 2 ^ nbits))

end Sys2Proof.Machine
end

