-- ==== Sys2Proof/Machine/Program.lean ====
section
/-! DEFINITION. Host programs: the assembler's statements, refusals and pseudo-instructions as the accesses they stand for (30_encoding.md R94-R98). -/

namespace Sys2Proof.Machine

/-- The offset of a register in the window (10_state.md R20). DESIGN CHOICE (log 22): `.arg k` and `.count k` with
k > 3 and `.unmapped` are no names of R20, and the spec says nothing of a `wr` or `rd` line that has them; the model
gives them an offset too, so the line is accepted and reaches whatever stands there. -/
def Reg.offset : Reg → Nat
  | .cmd => 0x00
  | .status => 0x04
  | .result => 0x08
  | .unitCount => 0x0C
  | .outLen => 0x10
  | .ibufPtr => 0x14
  | .ibufData => 0x18
  | .obufPtr => 0x1C
  | .obufData => 0x20
  | .arg k => 0x24 + 4 * k
  | .count k => 0x34 + 4 * k
  | .unmapped => 0x44

/-- The lines of a host program (R94): the statements of R95 and the pseudo-instructions of R98. -/
inductive HostLine where
  /-- `wr REG, v`. -/
  | wr (r : Reg) (v : Word)
  /-- `rd REG`. -/
  | rd (r : Reg)
  /-- A command statement (R96). -/
  | command (i : Instr)
  /-- `ibuf b0, b1, ..., bn`. DESIGN CHOICE (log 21): an operand above 0xFF, for which R97 gives no refusal and R98
  no outcome, cannot be written; a line with no operand can, and writes only the pointer. -/
  | ibuf (bytes : List Byte)
  /-- `obuf_read n`. -/
  | obufRead (n : Nat)
  /-- `arg4 a.b.c.d`. DESIGN CHOICE (log 21): a part above 255, for which R97 gives no refusal and R98 no outcome,
  cannot be written. -/
  | arg4 (a b c d : Byte)
  /-- `arg16 x0, x1, x2, x3`. DESIGN CHOICE (log 21): a part of more than 32 bits cannot be written. -/
  | arg16 (x0 x1 x2 x3 : Word)
  /-- `clr_sticky`. -/
  | clrSticky
  /-- `cmd w`, any word. -/
  | cmd (w : Word)
deriving DecidableEq, Repr

/-- A host write of `v` to a register. A write to CMD is followed by the engine's move: the host's next line comes
after the command has completed (20_memory.md R77, log 5). -/
def writeEvents (p : Params) (r : Reg) (v : Word) : List PortEvent :=
  .access (.write (p.baseAddr + r.offset) v) :: (if r = .cmd then [.engine] else [])

/-- A host read of a register. -/
def readEvent (p : Params) (r : Reg) : PortEvent := .access (.read (p.baseAddr + r.offset))

/-- The accesses one line makes (R95, R98), or none where the assembler refuses the line (R97). -/
def HostLine.events (p : Params) : HostLine → Option (List PortEvent)
  | .wr r v => some (writeEvents p r v)
  | .rd r => some [readEvent p r]
  | .command i => if i.wellFormed then some (writeEvents p .cmd (encode i)) else none
  | .ibuf bytes =>
    some (writeEvents p .ibufPtr 0 ++ bytes.flatMap fun b => writeEvents p .ibufData (b.setWidth 32))
  | .obufRead n => some (writeEvents p .obufPtr 0 ++ List.replicate n (readEvent p .obufData))
  | .arg4 a b c d => some (writeEvents p (.arg 0) (a ++ b ++ c ++ d))
  | .arg16 x0 x1 x2 x3 =>
    some (writeEvents p (.arg 0) x0 ++ writeEvents p (.arg 1) x1
      ++ writeEvents p (.arg 2) x2 ++ writeEvents p (.arg 3) x3)
  | .clrSticky => some (writeEvents p .status 0x4)
  | .cmd w => some (writeEvents p .cmd w)

/-- The schedule of a host program, or the number of the first line the assembler refuses (R94, R97). -/
def assemble (p : Params) (lineNumber : Nat) : List HostLine → Except Nat (List PortEvent)
  | [] => .ok []
  | line :: rest =>
    match line.events p with
    | none => .error lineNumber
    | some es =>
      match assemble p (lineNumber + 1) rest with
      | .error n => .error n
      | .ok more => .ok (es ++ more)

/-- The assembler's text of a command (R96), numbers in decimal (R94). -/
def asmText : Instr → String
  | .clear => "clear"
  | .encode => "encode"
  | .decode n => "decode " ++ toString n
  | .addUnit id len => "add_unit " ++ toString id ++ ", " ++ toString len
  | .addDns4Req => "add_dns4_req"
  | .addDns6Req => "add_dns6_req"
  | .addIpalloc => "add_ipalloc"
  | .addDns4Addr alen => "add_dns4_addr " ++ toString alen
  | .addPcscf4Addr alen => "add_pcscf4_addr " ++ toString alen
  | .addDns6Addr alen => "add_dns6_addr " ++ toString alen
  | .addMtu mtu => "add_mtu " ++ toString mtu
  | .getUnit idx => "get_unit " ++ toString idx
  | .getByte idx bidx => "get_byte " ++ toString idx ++ ", " ++ toString bidx
  | .cntRead sel => "cnt_read c" ++ toString sel
  | .cntGetOvf sel => "cnt_get_ovf c" ++ toString sel
  | .cntGetSqn sel => "cnt_get_sqn c" ++ toString sel
  | .cntSet sel ovf sqn => "cnt_set c" ++ toString sel ++ ", " ++ toString ovf ++ ", " ++ toString sqn
  | .cntSetOvf sel ovf => "cnt_set_ovf c" ++ toString sel ++ ", " ++ toString ovf
  | .cntSetSqn sel sqn => "cnt_set_sqn c" ++ toString sel ++ ", " ++ toString sqn
  | .cntInc sel => "cnt_inc c" ++ toString sel
  | .timerEnc => "timer_enc"

end Sys2Proof.Machine
end

