-- ==== Sys2Proof/Safety.lean ====
section
/-! DEFINITION. The terms the statements use: how a command's end reads in STATUS, what a command leaves alone, the wire form as a list of bytes, and the machine's invariant. -/

namespace Sys2Proof.Machine

/-- What STATUS says after a command that succeeded, from state `s` before it (30_encoding.md R84, 10_state.md
R22-R26). -/
def Succeeded (s t : State) : Prop :=
  t.err = false ∧ t.errCode = 0 ∧ t.errDetail = 0 ∧ t.sticky = s.sticky ∧ t.busy = false

/-- What STATUS says after a command that raised the error of this ERRCODE and ERRDETAIL (60_exceptions.md R171,
R172, R180). -/
def Failed (code detail : BitVec 4) (t : State) : Prop :=
  t.err = true ∧ t.errCode = code ∧ t.errDetail = detail ∧ t.sticky = true ∧ t.busy = false

/-- The parts of the state a command can write, besides STATUS.BUSY, ERR, STICKY, ERRCODE and ERRDETAIL. -/
inductive Part where
  /-- RESULT. -/
  | result
  /-- The unit list, and with it UNIT_COUNT. -/
  | units
  /-- COUNTk. -/
  | counter (k : Nat)
  /-- The bytes of OBUF. -/
  | obuf
  /-- OUT_LEN and OBUF_PTR. -/
  | outPort
  /-- STATUS.DEC_STATE. -/
  | decState
deriving DecidableEq, Repr

/-- What no command changes: ARG0-ARG3 (10_state.md R32), every byte of IBUF (R39), IBUF_PTR (70_reset_and_hazards.md
R205), and what is outside the engine. The number of the next draw is the model's own and may change. -/
def OperandsUnchanged (s t : State) : Prop :=
  t.arg0 = s.arg0 ∧ t.arg1 = s.arg1 ∧ t.arg2 = s.arg2 ∧ t.arg3 = s.arg3
    ∧ (∀ a, t.ibuf.read a = s.ibuf.read a) ∧ t.ibufPtr = s.ibufPtr
    ∧ t.params = s.params ∧ t.held = s.held ∧ t.inReset = s.inReset ∧ t.port = s.port ∧ t.answer = s.answer

/-- A command's frame: every part of the state but the listed ones, and every byte of OBUF unless it is listed, is
as it was. -/
def UnchangedBut (written : List Part) (s t : State) : Prop :=
  (.result ∉ written → t.result = s.result)
    ∧ (.units ∉ written → t.units = s.units)
    ∧ (∀ k, k < 4 → .counter k ∉ written → t.count k = s.count k)
    ∧ (.obuf ∉ written → ∀ a, t.obuf.read a = s.obuf.read a)
    ∧ (.outPort ∉ written → t.outLen = s.outLen ∧ t.obufPtr = s.obufPtr)
    ∧ (.decState ∉ written → t.decState = s.decState)
    ∧ OperandsUnchanged s t

/-- The wire form of a unit: the id big-endian, the length, the content (40_tlv_codec.md R101). -/
def wireUnit (u : ContainerUnit) : List Byte :=
  [BitVec.ofNat 8 (u.id.toNat / 256), BitVec.ofNat 8 (u.id.toNat % 256), BitVec.ofNat 8 u.content.length] ++ u.content

/-- The wire forms of the units, in list order (R102). -/
def wireUnits (us : List ContainerUnit) : List Byte := us.flatMap wireUnit

/-- The wire form of a list, the meta byte 0x80 first (R100, R102). -/
def wireForm (us : List ContainerUnit) : List Byte := 0x80 :: wireUnits us

/-- The size of a list's wire form in bytes (R102). -/
def wireSize (us : List ContainerUnit) : Nat := 1 + (us.map fun u => 3 + u.content.length).sum

/-- The fields of a list's wire form in the order they are written, each with the detail value of its name: 1 META,
2 ID, 3 LENGTH, 4 CONTENT (R104, 60_exceptions.md R172). -/
def wireFields (us : List ContainerUnit) : List (BitVec 4 × List Byte) :=
  (1, [0x80]) :: us.flatMap fun u =>
    [(2, [BitVec.ofNat 8 (u.id.toNat / 256), BitVec.ofNat 8 (u.id.toNat % 256)]),
      (3, [BitVec.ofNat 8 u.content.length]), (4, u.content)]

/-- The four bytes of a register, the most significant first (20_memory.md R69, 41_tlv_builders.md R128). -/
def registerBytes (w : Word) : List Byte :=
  [BitVec.ofNat 8 (w.toNat / 2 ^ 24), BitVec.ofNat 8 (w.toNat / 2 ^ 16), BitVec.ofNat 8 (w.toNat / 2 ^ 8),
    BitVec.ofNat 8 w.toNat]

/-- Every unit's content has at most 255 bytes (10_state.md R35). -/
def ContentsFit (us : List ContainerUnit) : Prop := ∀ u ∈ us, u.content.length ≤ 255

/-- The bytes of a store from index `a` on are `bytes`, each of them written. -/
def Holds (m : Memory) (a : Nat) (bytes : List Byte) : Prop :=
  ∀ j, j < bytes.length → m.read (a + j) = bytes[j]?

/-- A non-empty beginning of a unit's wire form that lacks at least one byte of it (40_tlv_codec.md R113): fewer than
the three header bytes, or fewer content bytes than the length byte says. -/
def OpenUnit (r : List Byte) : Prop :=
  0 < r.length ∧ ∀ l, r[2]? = some l → r.length < 3 + l.toNat

/-- The combinations of ERR, ERRCODE and ERRDETAIL the block can report (60_exceptions.md R171, R172, 93 X8). -/
def legalReport (err : Bool) (code detail : BitVec 4) : Bool :=
  if err then
    match code.toNat with
    | 1 => 1 ≤ detail.toNat && detail.toNat ≤ 4
    | 2 => 1 ≤ detail.toNat && detail.toNat ≤ 4
    | 3 => detail.toNat == 0
    | 4 => detail.toNat == 0
    | 5 => 1 ≤ detail.toNat && detail.toNat ≤ 3
    | 6 => 1 ≤ detail.toNat && detail.toNat ≤ 4
    | 7 => detail.toNat == 1
    | _ => false
  else code.toNat == 0 && detail.toNat == 0

/-- Each command's OP and RESERVED_MASK as spec/opcode_table.json lists them (30_encoding.md R86, R90). -/
def tableOpcodes : List (Nat × Word) :=
  [(0x01, 0x03FFFFFF), (0x02, 0x03FFFFFF), (0x03, 0x03FF0000), (0x04, 0x03000000), (0x05, 0x03FFFFFF),
    (0x06, 0x03FFFFFF), (0x07, 0x03FFFFFF), (0x08, 0x03FFFFE0), (0x09, 0x03FFFFE0), (0x0A, 0x03FFFFE0),
    (0x0B, 0x03FF0000), (0x0C, 0x030000FF), (0x0D, 0x03000000), (0x10, 0x00FFFFFF), (0x11, 0x00FFFFFF),
    (0x12, 0x00FFFFFF), (0x13, 0x00000000), (0x14, 0x000000FF), (0x15, 0x00FFFF00), (0x16, 0x00FFFFFF),
    (0x20, 0x03FFFFFF)]

/-- No host access is under way and no command runs: the next step takes the schedule's next event. -/
def Idle (s : State) : Prop := s.inReset = false ∧ s.running = none ∧ s.held = none

/-- Command word `w` runs and the next step completes it from state `u`: nothing is scheduled, the engine moves next,
or an access that must wait arrives while another is held (20_memory.md R57, logs 5 and 7). -/
def CompletesFrom (w : Word) (s u : State) : Prop :=
  s.inReset = false ∧ s.running = some w
    ∧ ((s.port = [] ∧ u = s)
      ∨ (∃ rest, s.port = .engine :: rest ∧ u = { s with port := rest })
      ∨ ∃ a b rest, s.port = .access a :: rest ∧ a.passes s.params = false ∧ s.held = some b ∧ u = s)

/-- The errors of DECODE, each with the DEC_STATE values of the states whose steps raise it: TruncatedInputError of a
field in the state that reads the field, CapacityError in READING_LENGTH or READING_CONTENT (40_tlv_codec.md R115,
R118). -/
def DecodeErrorAt (e : CmdError) (c : BitVec 3) : Prop :=
  (∃ f, e = .truncatedInput f ∧ c.toNat = f.detail.toNat) ∨ (e = .capacity ∧ (c = 3 ∨ c = 4))

/-- What holds of the machine between any two steps. -/
structure State.Inv (s : State) : Prop where
  /-- The parameters lie in their legal ranges (00_scope.md R6-R8). -/
  params_legal : s.params.legal = true
  /-- COUNTk bits 31:24 are 0 (10_state.md R34). -/
  counts_masked : ∀ k, k < 4 → (s.count k).toNat < 2 ^ 24
  /-- The list holds at most MAX_UNITS units (R37). -/
  units_bounded : s.units.length ≤ s.params.maxUnits
  /-- Every unit's content has 0 to 255 bytes (R35). -/
  contents_fit : ContentsFit s.units
  /-- IBUF_PTR is an index of IBUF (R41). -/
  ibufPtr_in : s.ibufPtr.toNat < s.params.ibufSize
  /-- OBUF_PTR is an index of OBUF (R43). -/
  obufPtr_in : s.obufPtr.toNat < s.params.obufSize
  /-- OUT_LEN is at most OBUF_SIZE (R31). -/
  outLen_in : s.outLen.toNat ≤ s.params.obufSize
  /-- IBUF's store is in canonical form and lists only indices of IBUF (R39). -/
  ibuf_wf : s.ibuf.wf ∧ s.ibuf.within s.params.ibufSize
  /-- OBUF's store is in canonical form and lists only indices of OBUF (R40). -/
  obuf_wf : s.obuf.wf ∧ s.obuf.within s.params.obufSize
  /-- ERR, ERRCODE and ERRDETAIL are a report of R171 and R172 (R25, R26, 93 X8). -/
  report_legal : legalReport s.err s.errCode s.errDetail = true
  /-- DEC_STATE is never 6 or 7 (R27). -/
  decState_legal : s.decState.toNat ≤ 5
  /-- No decode state survives the command (R46). -/
  decode_gone : s.decoding = none
  /-- While reset is asserted no command runs and no access is held (70_reset_and_hazards.md R196, R199). -/
  reset_quiet : s.inReset = true → s.running = none ∧ s.held = none

end Sys2Proof.Machine
end

