-- ==== Sys2Proof/Certificates/Slice0/Obligations.lean ====
section
/-! DEFINITION. The statements for the provers, from the numbered rules of spec/. -/

open Sys2Proof Sys2Proof.Machine

/-! ## Command words -/

/-- R83, R89, R90: the decoder reads from the word of a well-formed command that command, every operand at every
value its field admits. -/
def Obligations.EncodedCommandDecodesToItself : Prop :=
  ∀ i : Instr, i.wellFormed = true → decode (encode i) = .ok i

/-- R89, R92: a word that decodes has no bit the command does not give it: it is the command's encoding, and its
operands fit their fields. -/
def Obligations.DecodedWordIsItsCommandsEncoding : Prop :=
  ∀ (w : Word) (i : Instr), decode w = .ok i → i.wellFormed = true ∧ encode i = w

/-- R85, R86, R92: an OP outside the table is the bad opcode; an OP of the table with a reserved bit set is the
reserved error; every other word decodes. -/
def Obligations.WordFallsInOneOfThreeClasses : Prop :=
  ∀ w : Word,
    (decode w = .error .badOpcode ↔ ∀ row ∈ tableOpcodes, row.1 ≠ w.toNat / 2 ^ 26)
      ∧ (decode w = .error .reservedNonzero ↔ ∃ row ∈ tableOpcodes, row.1 = w.toNat / 2 ^ 26 ∧ w &&& row.2 ≠ 0)
      ∧ ((∃ i, decode w = .ok i) ↔ ∃ row ∈ tableOpcodes, row.1 = w.toNat / 2 ^ 26 ∧ w &&& row.2 = 0)

/-- R96: words of the assembler's example table, one per format, decode to the commands of their lines. -/
def Obligations.AssemblerExampleWordsDecode : Prop :=
  decode 0x08000000 = .ok .encode ∧ decode 0x0C000006 = .ok (.decode 6)
    ∧ decode 0x10000A02 = .ok (.addUnit 0x000A 2) ∧ decode 0x20000004 = .ok (.addDns4Addr 4)
    ∧ decode 0x2C0005DC = .ok (.addMtu 1500) ∧ decode 0x30000100 = .ok (.getUnit 1)
    ∧ decode 0x34000103 = .ok (.getByte 1 3) ∧ decode 0x59000000 = .ok (.cntInc 1)
    ∧ decode 0x4C123456 = .ok (.cntSet 0 0x1234 0x56) ∧ decode 0x50FFFF00 = .ok (.cntSetOvf 0 0xFFFF)
    ∧ decode 0x5400007F = .ok (.cntSetSqn 0 0x7F)

/-- R95, R97: a command line the assembler accepts writes to CMD a word that decodes to that command, so no reserved
bit of it is set; the engine moves next (log 5). -/
def Obligations.AssembledCommandWritesAValidWordToCmd : Prop :=
  ∀ (p : Params) (i : Instr) (es : List PortEvent), (HostLine.command i).events p = some es →
    i.wellFormed = true ∧ ∃ w, decode w = .ok i ∧ es = [.access (.write p.baseAddr w), .engine]

/-! ## The step, the envelope and the interlock -/

/-- R84: the step at a state whose running word decodes to `i` is exec of `i` there. It adds nothing around exec but
taking an engine move off the schedule; a second access that must wait for the first one also lets the command
complete (log 7). -/
def Obligations.StepRunsTheDecodedCommand : Prop :=
  ∀ (s : State) (w : Word) (i : Instr), s.inReset = false → s.running = some w → decode w = .ok i →
    (s.port = [] → step s = exec i s)
      ∧ (∀ rest, s.port = .engine :: rest → step s = exec i { s with port := rest })
      ∧ (∀ a b rest, s.port = .access a :: rest → a.passes s.params = false → s.held = some b → step s = exec i s)

/-- R65, R21: a host write to CMD (offset 0x00) of an idle block makes its data word the running command, which sets
BUSY, and changes nothing else. -/
def Obligations.CmdWriteStartsTheCommand : Prop :=
  ∀ (s : State) (addr : Nat) (w : Word) (rest : List PortEvent), Idle s →
    s.port = .access (.write addr w) :: rest → s.params.baseAddr ≤ addr → addr ≤ s.params.baseAddr + 0xFF →
    addr / 4 % 64 = 0 →
    ∃ t, step s = .next t ∧ t.busy = true ∧ t = { s with port := rest, running := some w }

/-- R85, R86, R178: a running word with an undefined OP raises CommandError(BAD_OPCODE), one with a defined OP and a
reserved bit set raises CommandError(RESERVED_NONZERO), and nothing but STATUS changes, however the word comes to
complete: with nothing scheduled, by an engine move, which is taken off the schedule, or by a second access that must
wait (the model's choice: logs 5 and 7). -/
def Obligations.IllegalWordChangesOnlyStatus : Prop :=
  ∀ (s u : State) (w : Word), CompletesFrom w s u →
    ((∀ row ∈ tableOpcodes, row.1 ≠ w.toNat / 2 ^ 26) →
        ∃ t, step s = .next t ∧ Failed 6 1 t ∧ UnchangedBut [] u t)
      ∧ ((∃ row ∈ tableOpcodes, row.1 = w.toNat / 2 ^ 26 ∧ w &&& row.2 ≠ 0) →
        ∃ t, step s = .next t ∧ Failed 6 2 t ∧ UnchangedBut [] u t)

/-- R57: while a command runs, an access to the window other than a read of STATUS (offset 0x04) is held and changes
nothing; once no command runs, a held access is performed before anything the schedule holds. -/
def Obligations.InterlockHoldsAccessesUntilIdle : Prop :=
  (∀ (s : State) (w : Word) (a : Access) (rest : List PortEvent), s.inReset = false → s.running = some w →
      s.held = none → s.port = .access a :: rest →
      s.params.baseAddr ≤ a.addr → a.addr ≤ s.params.baseAddr + 0xFF →
      (a.addr / 4 % 64 ≠ 1 ∨ ∃ addr v, a = .write addr v) →
      step s = .next { s with held := some a, port := rest })
    ∧ (∀ (s : State) (a : Access), s.inReset = false → s.running = none → s.held = some a →
      step s = .next ({ s with held := none }.perform a))

/-- R57, R213: a read of STATUS while a command runs is answered at once with bit 0 = 1, and changes neither the
command nor any register. -/
def Obligations.BusyStatusReadIsAnsweredAtOnce : Prop :=
  ∀ (s : State) (w : Word) (addr : Nat) (rest : List PortEvent), s.inReset = false → s.running = some w →
    s.port = .access (.read addr) :: rest → s.params.baseAddr ≤ addr → addr ≤ s.params.baseAddr + 0xFF →
    addr / 4 % 64 = 1 →
    ∃ v n, v.getLsbD 0 = true ∧ step s = .next { s with port := rest, answer := some v, draws := n }

/-- R186: no step stops the machine. -/
def Obligations.EveryStepAnswersANextState : Prop :=
  ∀ s : State, ∃ t, step s = .next t

/-- R84, R186: every command on every state completes, with BUSY = 0 and with success or exactly one error of R171
and R172; no command clears STICKY. -/
def Obligations.EveryCommandReportsOneLegalOutcome : Prop :=
  ∀ (i : Instr) (s : State), ∃ t, exec i s = .next t ∧ t.busy = false
    ∧ legalReport t.err t.errCode t.errDetail = true ∧ t.sticky = (s.sticky || t.err)

/-- R32, R39, R205: no command writes ARG0-ARG3, a byte of IBUF or IBUF_PTR, nor anything outside the engine. -/
def Obligations.NoCommandWritesItsOperands : Prop :=
  ∀ (i : Instr) (s t : State), exec i s = .next t → OperandsUnchanged s t

/-- R29: RESULT changes only when CNT_READ, CNT_GET_OVF, CNT_GET_SQN, TIMER_ENC, GET_UNIT or GET_BYTE succeeds. -/
def Obligations.OnlySuccessfulQueriesWriteResult : Prop :=
  ∀ (i : Instr) (s t : State), exec i s = .next t → t.result ≠ s.result →
    t.err = false ∧ ((∃ k, i = .cntRead k) ∨ (∃ k, i = .cntGetOvf k) ∨ (∃ k, i = .cntGetSqn k) ∨ i = .timerEnc
      ∨ (∃ x, i = .getUnit x) ∨ ∃ x b, i = .getByte x b)

/-- R37: only CLEAR, DECODE, ADD_UNIT and the seven builders change the unit list. -/
def Obligations.OnlyListCommandsChangeTheList : Prop :=
  ∀ (i : Instr) (s t : State), exec i s = .next t → t.units ≠ s.units →
    i = .clear ∨ (∃ n, i = .decode n) ∨ (∃ id len, i = .addUnit id len) ∨ i = .addDns4Req ∨ i = .addDns6Req
      ∨ i = .addIpalloc ∨ (∃ l, i = .addDns4Addr l) ∨ (∃ l, i = .addPcscf4Addr l) ∨ (∃ l, i = .addDns6Addr l)
      ∨ ∃ m, i = .addMtu m

/-- R31, R40, R205: only ENCODE writes OBUF, OUT_LEN or OBUF_PTR; R27: only DECODE writes DEC_STATE. -/
def Obligations.OnlyTheCodecWritesItsRegisters : Prop :=
  ∀ (i : Instr) (s t : State), exec i s = .next t →
    (i ≠ .encode → (∀ a, t.obuf.read a = s.obuf.read a) ∧ t.outLen = s.outLen ∧ t.obufPtr = s.obufPtr)
      ∧ ((∀ n, i ≠ .decode n) → t.decState = s.decState)

/-! ## The codec -/

/-- R103: CLEAR empties the unit list, so UNIT_COUNT is 0, and changes nothing else. -/
def Obligations.ClearEmptiesTheList : Prop :=
  ∀ s : State, ∃ t, exec .clear s = .next t ∧ Succeeded s t ∧ t.units = [] ∧ t.unitCount = 0
    ∧ UnchangedBut [.units] s t

/-- R104, R106: where the list's wire form fits in OBUF, ENCODE writes exactly it at OBUF[0], OUT_LEN is its size and
OBUF_PTR is 0; every other byte of OBUF and the list are unchanged. -/
def Obligations.EncodeWritesTheWireForm : Prop :=
  ∀ s : State, wireSize s.units ≤ s.params.obufSize →
    ∃ t, exec .encode s = .next t ∧ Succeeded s t
      ∧ t.outLen = BitVec.ofNat 32 (wireSize s.units) ∧ t.obufPtr = 0
      ∧ Holds t.obuf 0 (wireForm s.units)
      ∧ (∀ a, wireSize s.units ≤ a → t.obuf.read a = s.obuf.read a)
      ∧ UnchangedBut [.obuf, .outPort] s t

/-- R105, R106, R173: where the wire form does not fit, ENCODE writes the fields before the first one that passes the
end of OBUF, whole, raises EncodingError naming that field, and OUT_LEN is the number of bytes written. -/
def Obligations.EncodeStopsAtTheFirstFieldThatDoesNotFit : Prop :=
  ∀ s : State, s.params.obufSize < wireSize s.units →
    ∃ before f bytes after t, wireFields s.units = before ++ (f, bytes) :: after
      ∧ (before.flatMap Prod.snd).length ≤ s.params.obufSize
      ∧ s.params.obufSize < (before.flatMap Prod.snd).length + bytes.length
      ∧ exec .encode s = .next t ∧ Failed 1 f t
      ∧ t.outLen = BitVec.ofNat 32 (before.flatMap Prod.snd).length ∧ t.obufPtr = 0
      ∧ Holds t.obuf 0 (before.flatMap Prod.snd)
      ∧ (∀ a, (before.flatMap Prod.snd).length ≤ a → t.obuf.read a = s.obuf.read a)
      ∧ UnchangedBut [.obuf, .outPort] s t

/-- R8: with OBUF_SIZE at least 1 + 258 * MAX_UNITS, ENCODE of a list the block can hold never fails. -/
def Obligations.EncodeNeverFailsWithRoomForEveryUnit : Prop :=
  ∀ s : State, s.units.length ≤ s.params.maxUnits → ContentsFit s.units →
    1 + 258 * s.params.maxUnits ≤ s.params.obufSize →
    ∃ t, exec .encode s = .next t ∧ Succeeded s t

/-- R73, R104: a second ENCODE with no command between leaves the very same state, whether the first succeeded or
failed. -/
def Obligations.EncodeTwiceIsEncodeOnce : Prop :=
  ∀ s t : State, s.obuf.wf → exec .encode s = .next t → exec .encode t = .next t

/-- R88, R107: DECODE with N above IBUF_SIZE raises CommandError(BAD_OPERAND) and changes nothing, not even the list
or DEC_STATE. -/
def Obligations.DecodeRefusesMoreBytesThanIbufHolds : Prop :=
  ∀ (s : State) (n : Nat), s.params.ibufSize < n →
    ∃ t, exec (.decode n) s = .next t ∧ Failed 6 4 t ∧ UnchangedBut [] s t

/-- R107, R115, R117, R118: DECODE of any meta byte followed by the wire form of a list that fits recovers that list,
whatever the list before, and DEC_STATE is DONE. -/
def Obligations.DecodeRecoversTheUnitsOfAWireForm : Prop :=
  ∀ (s : State) (n : Nat) (m : Byte) (us : List ContainerUnit), n ≤ s.params.ibufSize →
    Holds s.ibuf 0 (m :: wireUnits us) → n = 1 + (wireUnits us).length →
    ContentsFit us → us.length ≤ s.params.maxUnits →
    ∃ t, exec (.decode n) s = .next t ∧ Succeeded s t ∧ t.units = us ∧ t.decState = 5
      ∧ UnchangedBut [.units, .decState] s t

/-- R107, R112, R118: a DECODE of written bytes that succeeds has read a meta byte and then exactly the wire form of
the list it leaves, no byte over and no unit cut short. -/
def Obligations.SuccessfulDecodeReadAWholeWireForm : Prop :=
  ∀ (s t : State) (bytes : List Byte), bytes.length ≤ s.params.ibufSize → Holds s.ibuf 0 bytes →
    exec (.decode bytes.length) s = .next t → t.err = false →
    ContentsFit t.units ∧ ∃ m, bytes = m :: wireUnits t.units

/-- R109, R113, R116, R121: where the bytes end inside a unit, DECODE raises TruncatedInputError naming the field
whose read failed (2 ID, 3 LENGTH, 4 CONTENT), DEC_STATE is that field's state, and the list holds exactly the units
completed before. -/
def Obligations.DecodeNeverStoresAnOpenUnit : Prop :=
  ∀ (s : State) (m : Byte) (us : List ContainerUnit) (r : List Byte),
    1 + (wireUnits us).length + r.length ≤ s.params.ibufSize →
    Holds s.ibuf 0 (m :: wireUnits us ++ r) → ContentsFit us → us.length ≤ s.params.maxUnits → OpenUnit r →
    ∃ t, exec (.decode (1 + (wireUnits us).length + r.length)) s = .next t ∧ t.units = us
      ∧ (r.length = 1 → Failed 2 2 t ∧ t.decState = 2)
      ∧ (r.length = 2 → Failed 2 3 t ∧ t.decState = 3)
      ∧ (3 ≤ r.length → Failed 2 4 t ∧ t.decState = 4)
      ∧ UnchangedBut [.units, .decState] s t

/-- R108, R109: DECODE of no bytes raises TruncatedInputError(META), with the list emptied and DEC_STATE META. -/
def Obligations.DecodeOfNoBytesFailsAtTheMetaByte : Prop :=
  ∀ s : State, ∃ t, exec (.decode 0) s = .next t ∧ Failed 2 1 t ∧ t.units = [] ∧ t.decState = 1
    ∧ UnchangedBut [.units, .decState] s t

/-- R108, R116, R179: when a unit is complete and the list is full, DECODE raises CapacityError(UNITS), keeps the
units before it, and DEC_STATE is READING_LENGTH for an empty unit and READING_CONTENT for another. -/
def Obligations.DecodeStopsWhenTheListIsFull : Prop :=
  ∀ (s : State) (m : Byte) (us : List ContainerUnit) (u : ContainerUnit) (rest : List Byte),
    1 + (wireUnits (us ++ [u])).length + rest.length ≤ s.params.ibufSize →
    Holds s.ibuf 0 (m :: wireUnits (us ++ [u]) ++ rest) → ContentsFit (us ++ [u]) → us.length = s.params.maxUnits →
    ∃ t, exec (.decode (1 + (wireUnits (us ++ [u])).length + rest.length)) s = .next t ∧ Failed 7 1 t
      ∧ t.units = us ∧ t.decState = (if u.content = [] then 3 else 4)
      ∧ UnchangedBut [.units, .decState] s t

/-- R114, R119: a decode step that does not raise moves as many bytes from the remaining count to the cursor, and at
least one: their sum stays N, and the count never goes below 0. -/
def Obligations.DecodeStepKeepsCursorPlusRemaining : Prop :=
  ∀ (s t : State) (d d' : DecodeState), s.decoding = some d → decodeStep s = .ok t → t.decoding = some d' →
    d'.cur + d'.rem = d.cur + d.rem
      ∧ (d.st ≠ .done → (∀ cid, d.st ≠ .readingContent cid 0) → d'.rem < d.rem)

/-- R115, R119: on every input DECODE's state machine ends within N + 1 steps, DONE or with an error and the code of a
state that raises it: TruncatedInputError of a field with the state that reads that field, CapacityError with
READING_LENGTH or READING_CONTENT. Allowing it more steps changes nothing (log 14). -/
def Obligations.DecodeStopsWithinNPlusOneSteps : Prop :=
  ∀ (s : State) (n : Nat), ∃ t, t.decoding = none
    ∧ (decodeLoop (n + 1) ((s.setUnits []).setDecoding ⟨.metaByte, 0, n⟩) = .ok t ∧ t.decState = 5
      ∨ ∃ e, decodeLoop (n + 1) ((s.setUnits []).setDecoding ⟨.metaByte, 0, n⟩) = .raised e t
        ∧ DecodeErrorAt e t.decState)
    ∧ ∀ extra, decodeLoop (n + 1 + extra) ((s.setUnits []).setDecoding ⟨.metaByte, 0, n⟩)
      = decodeLoop (n + 1) ((s.setUnits []).setDecoding ⟨.metaByte, 0, n⟩)

/-- R120: ENCODE of a list that fits both buffers succeeds with OUT_LEN = S; copy OBUF[0..S-1] to IBUF[0..S-1], whatever
else changes, and DECODE of S bytes leaves the list that was encoded. S may be 65536 here, which no command word can
name (log 20). -/
def Obligations.DecodeAfterEncodeReturnsTheList : Prop :=
  ∀ s : State, ContentsFit s.units → s.units.length ≤ s.params.maxUnits →
    wireSize s.units ≤ s.params.obufSize → wireSize s.units ≤ s.params.ibufSize →
    ∃ t, exec .encode s = .next t ∧ Succeeded s t ∧ t.outLen = BitVec.ofNat 32 (wireSize s.units)
      ∧ ∀ c : State, c.params = s.params → (∀ j, j < wireSize s.units → c.ibuf.read j = t.obuf.read j) →
        ∃ d, exec (.decode (wireSize s.units)) c = .next d ∧ Succeeded c d ∧ d.units = s.units

/-! ## Builders and readback -/

/-- R123: ADD_UNIT appends a unit with the given id and LEN content bytes, each the byte IBUF holds at its index
where that byte has been written. -/
def Obligations.AddUnitAppendsTheIbufBytes : Prop :=
  ∀ (s : State) (id len : Nat), id ≤ 0xFFFF → len ≤ 0xFF → s.units.length < s.params.maxUnits →
    ∃ t content, exec (.addUnit id len) s = .next t ∧ Succeeded s t
      ∧ t.units = s.units ++ [⟨BitVec.ofNat 16 id, content⟩] ∧ content.length = len
      ∧ (∀ j b, j < len → s.ibuf.read j = some b → content[j]? = some b)
      ∧ UnchangedBut [.units] s t

/-- R124, R125, R126, R136: the three request builders append an empty unit, and ADD_MTU the MTU as two big-endian
bytes, under their catalog identifiers. -/
def Obligations.RequestAndMtuBuildersAppendTheirUnit : Prop :=
  ∀ (s : State) (mtu : Nat), mtu ≤ 0xFFFF → s.units.length < s.params.maxUnits →
    (∃ t, exec .addDns4Req s = .next t ∧ Succeeded s t ∧ t.units = s.units ++ [⟨s.params.catDnsV4Req, []⟩]
        ∧ UnchangedBut [.units] s t)
      ∧ (∃ t, exec .addDns6Req s = .next t ∧ Succeeded s t ∧ t.units = s.units ++ [⟨s.params.catDnsV6Req, []⟩]
        ∧ UnchangedBut [.units] s t)
      ∧ (∃ t, exec .addIpalloc s = .next t ∧ Succeeded s t ∧ t.units = s.units ++ [⟨s.params.catIpAllocNas, []⟩]
        ∧ UnchangedBut [.units] s t)
      ∧ (∃ t, exec (.addMtu mtu) s = .next t ∧ Succeeded s t
        ∧ t.units = s.units ++ [⟨s.params.catV4LinkMtu, [BitVec.ofNat 8 (mtu / 256), BitVec.ofNat 8 (mtu % 256)]⟩]
        ∧ UnchangedBut [.units] s t)

/-- R128, R129, R132, R133: the IPv4 builders accept ALEN = 4 as the bytes of ARG0, the most significant first, and,
where ACCEPT_V4MAPPED is true, ALEN = 16 with an IPv4-mapped address as the bytes of ARG3. -/
def Obligations.Ipv4BuildersAppendFourAddressBytes : Prop :=
  ∀ (s : State) (alen : Nat) (reg : Word), s.units.length < s.params.maxUnits →
    (alen = 4 ∧ reg = s.arg0
      ∨ alen = 16 ∧ s.params.acceptV4Mapped = true ∧ s.arg0 = 0 ∧ s.arg1 = 0 ∧ s.arg2 = 0x0000FFFF ∧ reg = s.arg3) →
    (∃ t, exec (.addDns4Addr alen) s = .next t ∧ Succeeded s t
        ∧ t.units = s.units ++ [⟨s.params.catDnsV4Addr, registerBytes reg⟩] ∧ UnchangedBut [.units] s t)
      ∧ (∃ t, exec (.addPcscf4Addr alen) s = .next t ∧ Succeeded s t
        ∧ t.units = s.units ++ [⟨s.params.catPcscfV4Addr, registerBytes reg⟩] ∧ UnchangedBut [.units] s t)

/-- R128, R130, R134: the IPv6 builder accepts ALEN = 16 as the bytes of ARG0 to ARG3 in order. -/
def Obligations.Ipv6BuilderAppendsSixteenAddressBytes : Prop :=
  ∀ s : State, s.units.length < s.params.maxUnits →
    ∃ t, exec (.addDns6Addr 16) s = .next t ∧ Succeeded s t
      ∧ t.units = s.units ++ [⟨s.params.catDnsV6Addr,
          registerBytes s.arg0 ++ registerBytes s.arg1 ++ registerBytes s.arg2 ++ registerBytes s.arg3⟩]
      ∧ UnchangedBut [.units] s t

/-- R131, R183: an address of the other family raises InvalidAddressFamily and an operand of neither family's length
raises InvalidLength, whether or not the list is full, and nothing but STATUS changes. -/
def Obligations.AddressBuildersRefuseTheOtherFamilyAndOddLengths : Prop :=
  ∀ (s : State) (alen : Nat),
    (alen = 16 →
        ¬ (s.params.acceptV4Mapped = true ∧ s.arg0 = 0 ∧ s.arg1 = 0 ∧ s.arg2 = 0x0000FFFF) →
        (∃ t, exec (.addDns4Addr alen) s = .next t ∧ Failed 3 0 t ∧ UnchangedBut [] s t)
          ∧ ∃ t, exec (.addPcscf4Addr alen) s = .next t ∧ Failed 3 0 t ∧ UnchangedBut [] s t)
      ∧ (alen = 4 → ∃ t, exec (.addDns6Addr alen) s = .next t ∧ Failed 3 0 t ∧ UnchangedBut [] s t)
      ∧ (alen ≤ 31 → alen ≠ 4 → alen ≠ 16 → ∀ i ∈ [Instr.addDns4Addr alen, .addPcscf4Addr alen, .addDns6Addr alen],
        ∃ t, exec i s = .next t ∧ Failed 4 0 t ∧ UnchangedBut [] s t)

/-- R38, R127, R129, R131, R179: on a full list every appending command whose operand is accepted raises
CapacityError(UNITS) and changes nothing but STATUS; an IPv4 builder given an IPv4-mapped address that
ACCEPT_V4MAPPED accepts is one of them. -/
def Obligations.AppendToAFullListRaisesCapacityError : Prop :=
  ∀ (s : State) (id len mtu : Nat), id ≤ 0xFFFF → len ≤ 0xFF → mtu ≤ 0xFFFF → s.units.length = s.params.maxUnits →
    (∀ i ∈ [Instr.addUnit id len, .addDns4Req, .addDns6Req, .addIpalloc, .addDns4Addr 4, .addPcscf4Addr 4,
        .addDns6Addr 16, .addMtu mtu],
      ∃ t, exec i s = .next t ∧ Failed 7 1 t ∧ UnchangedBut [] s t)
      ∧ (s.params.acceptV4Mapped = true → s.arg0 = 0 → s.arg1 = 0 → s.arg2 = 0x0000FFFF →
        ∀ i ∈ [Instr.addDns4Addr 16, .addPcscf4Addr 16],
          ∃ t, exec i s = .next t ∧ Failed 7 1 t ∧ UnchangedBut [] s t)

/-- R127: every builder and ADD_UNIT appends exactly one unit when it succeeds and leaves the list as it was when it
fails. -/
def Obligations.BuildersAppendOneUnitOrNone : Prop :=
  ∀ (s t : State) (i : Instr), exec i s = .next t →
    ((∃ id len, i = .addUnit id len) ∨ i = .addDns4Req ∨ i = .addDns6Req ∨ i = .addIpalloc
      ∨ (∃ l, i = .addDns4Addr l) ∨ (∃ l, i = .addPcscf4Addr l) ∨ (∃ l, i = .addDns6Addr l) ∨ ∃ m, i = .addMtu m) →
    (t.err = false → ∃ u, t.units = s.units ++ [u]) ∧ (t.err = true → t.units = s.units)

/-- R139: GET_UNIT answers the id in bits 23:8 and the length in bits 7:0; R140: GET_BYTE answers the content byte. -/
def Obligations.ReadbackAnswersTheUnitAndItsBytes : Prop :=
  ∀ (s : State) (idx bidx : Nat) (u : ContainerUnit), s.units[idx]? = some u → u.content.length ≤ 255 →
    (∃ t, exec (.getUnit idx) s = .next t ∧ Succeeded s t
        ∧ t.result = BitVec.ofNat 32 (u.id.toNat * 256 + u.content.length) ∧ UnchangedBut [.result] s t)
      ∧ ∀ b, u.content[bidx]? = some b → ∃ t, exec (.getByte idx bidx) s = .next t ∧ Succeeded s t
        ∧ t.result = BitVec.ofNat 32 b.toNat ∧ UnchangedBut [.result] s t

/-- R88, R139, R140: an index past the list, or a byte index past the unit's content, raises
CommandError(BAD_OPERAND), and nothing but STATUS changes. -/
def Obligations.ReadbackPastTheEndIsABadOperand : Prop :=
  ∀ (s : State) (idx bidx : Nat),
    (s.units.length ≤ idx → ∃ t, exec (.getUnit idx) s = .next t ∧ Failed 6 4 t ∧ UnchangedBut [] s t)
      ∧ (s.units.length ≤ idx → ∃ t, exec (.getByte idx bidx) s = .next t ∧ Failed 6 4 t ∧ UnchangedBut [] s t)
      ∧ (∀ u, s.units[idx]? = some u → u.content.length ≤ bidx →
        ∃ t, exec (.getByte idx bidx) s = .next t ∧ Failed 6 4 t ∧ UnchangedBut [] s t)

/-! ## Security counters -/

/-- R149, R150, R151, R148: the queries answer COUNT[SEL], its bits 23:8 and its bits 7:0, and change no counter. -/
def Obligations.CounterQueriesAnswerTheFields : Prop :=
  ∀ (s : State) (sel : Nat), sel < s.params.numCounters →
    (∃ t, exec (.cntRead sel) s = .next t ∧ Succeeded s t ∧ t.result = s.count sel ∧ UnchangedBut [.result] s t)
      ∧ (∃ t, exec (.cntGetOvf sel) s = .next t ∧ Succeeded s t
        ∧ t.result = ((s.count sel).extractLsb' 8 16).setWidth 32 ∧ UnchangedBut [.result] s t)
      ∧ (∃ t, exec (.cntGetSqn sel) s = .next t ∧ Succeeded s t
        ∧ t.result = ((s.count sel).extractLsb' 0 8).setWidth 32 ∧ UnchangedBut [.result] s t)

/-- R152, R153, R154, R155: CNT_SET writes both fields, CNT_SET_OVF and CNT_SET_SQN one field and leave the other,
CNT_INC adds one modulo 2^24; each writes COUNT[SEL] alone, and a wrap is reported as success (R145). -/
def Obligations.CounterCommandsWriteTheirCounter : Prop :=
  ∀ (s : State) (sel ovf sqn : Nat), sel < s.params.numCounters → sel ≤ 3 → ovf ≤ 0xFFFF → sqn ≤ 0xFF →
    (∃ t, exec (.cntSet sel ovf sqn) s = .next t ∧ Succeeded s t
        ∧ t.count sel = BitVec.ofNat 32 (ovf * 256 + sqn) ∧ UnchangedBut [.counter sel] s t)
      ∧ (∃ t, exec (.cntSetOvf sel ovf) s = .next t ∧ Succeeded s t
        ∧ t.count sel = BitVec.ofNat 32 (ovf * 256 + (s.count sel).toNat % 256) ∧ UnchangedBut [.counter sel] s t)
      ∧ (∃ t, exec (.cntSetSqn sel sqn) s = .next t ∧ Succeeded s t
        ∧ t.count sel = (s.count sel &&& 0x00FFFF00) ||| BitVec.ofNat 32 sqn ∧ UnchangedBut [.counter sel] s t)
      ∧ (∃ t, exec (.cntInc sel) s = .next t ∧ Succeeded s t
        ∧ t.count sel = BitVec.ofNat 32 (((s.count sel).toNat + 1) % 2 ^ 24) ∧ UnchangedBut [.counter sel] s t)

/-- R87, R144: a counter select at or above NUM_COUNTERS raises CommandError(BAD_SELECT) in all seven counter
commands, and nothing but STATUS changes. -/
def Obligations.BadCounterSelectChangesOnlyStatus : Prop :=
  ∀ (s : State) (sel ovf sqn : Nat), s.params.numCounters ≤ sel →
    ∀ i ∈ [Instr.cntRead sel, .cntGetOvf sel, .cntGetSqn sel, .cntSet sel ovf sqn, .cntSetOvf sel ovf,
        .cntSetSqn sel sqn, .cntInc sel],
      ∃ t, exec i s = .next t ∧ Failed 6 3 t ∧ UnchangedBut [] s t

/-- R156: after CNT_SET of OVF and SQN, CNT_GET_OVF answers OVF, CNT_GET_SQN answers SQN and CNT_READ answers
(OVF << 8) | SQN; CNT_SET_OVF leaves sqn and CNT_SET_SQN leaves overflow as it was. -/
def Obligations.CounterFieldsReadBackAsSet : Prop :=
  ∀ (s : State) (sel ovf sqn : Nat), sel < s.params.numCounters → sel ≤ 3 → ovf ≤ 0xFFFF → sqn ≤ 0xFF →
    (∃ t, exec (.cntSet sel ovf sqn) s = .next t
        ∧ (∃ u, exec (.cntGetOvf sel) t = .next u ∧ u.result = BitVec.ofNat 32 ovf)
        ∧ (∃ u, exec (.cntGetSqn sel) t = .next u ∧ u.result = BitVec.ofNat 32 sqn)
        ∧ ∃ u, exec (.cntRead sel) t = .next u ∧ u.result = BitVec.ofNat 32 (ovf <<< 8 ||| sqn))
      ∧ (∃ t, exec (.cntSetOvf sel ovf) s = .next t
        ∧ (t.count sel).extractLsb' 0 8 = (s.count sel).extractLsb' 0 8)
      ∧ ∃ t, exec (.cntSetSqn sel sqn) s = .next t
        ∧ (t.count sel).extractLsb' 8 16 = (s.count sel).extractLsb' 8 16

/-- R158: a counter command with SEL = k changes no other counter, and none changes the list, a byte of a buffer, an
operand register, OUT_LEN, a pointer or DEC_STATE, whether it succeeds or fails. -/
def Obligations.CountersAreIndependent : Prop :=
  ∀ (s : State) (sel ovf sqn : Nat), sel ≤ 3 → ovf ≤ 0xFFFF → sqn ≤ 0xFF →
    ∀ i ∈ [Instr.cntRead sel, .cntGetOvf sel, .cntGetSqn sel, .cntSet sel ovf sqn, .cntSetOvf sel ovf,
        .cntSetSqn sel sqn, .cntInc sel],
      ∃ t, exec i s = .next t ∧ UnchangedBut [.result, .counter sel] s t

/-- R157: k CNT_INC commands take a counter from v to (v + k) mod 2^24 with no value above 0xFFFFFF on the way, and
2^24 of them return it to v. -/
def Obligations.RepeatedIncrementsCountModulo2Pow24 : Prop :=
  ∀ (run : Nat → State) (sel k : Nat), sel < (run 0).params.numCounters → sel ≤ 3 →
    ((run 0).count sel).toNat < 2 ^ 24 → (∀ j, j < k → exec (.cntInc sel) (run j) = .next (run (j + 1))) →
    ((run k).count sel).toNat = (((run 0).count sel).toNat + k) % 2 ^ 24
      ∧ (∀ j, j ≤ k → ((run j).count sel).toNat ≤ 0xFFFFFF)
      ∧ (k = 2 ^ 24 → (run k).count sel = (run 0).count sel)

/-! ## GPRS Timer 2 -/

/-- R167: what TIMER_ENC makes of every number of seconds: the byte of its tier, or its failure with the detail of it,
which leaves RESULT as it was. No number above 11219 succeeds. -/
def Obligations.TimerOutcomeOfEveryInput : Prop :=
  ∀ s : State, ∃ t, exec .timerEnc s = .next t
    ∧ (s.arg0.toNat ≤ 64 → s.arg0.toNat % 2 = 0 →
        Succeeded s t ∧ t.result = BitVec.ofNat 32 (s.arg0.toNat / 2) ∧ UnchangedBut [.result] s t)
    ∧ (65 ≤ s.arg0.toNat → s.arg0.toNat ≤ 1919 →
        Succeeded s t ∧ t.result = BitVec.ofNat 32 (0x20 ||| s.arg0.toNat / 60) ∧ UnchangedBut [.result] s t)
    ∧ (1920 ≤ s.arg0.toNat → s.arg0.toNat ≤ 11519 → s.arg0.toNat / 60 % 6 = 0 →
        Succeeded s t ∧ t.result = BitVec.ofNat 32 (0x40 ||| s.arg0.toNat / 60 / 6) ∧ UnchangedBut [.result] s t)
    ∧ (s.arg0.toNat ≤ 64 → s.arg0.toNat % 2 = 1 → Failed 5 1 t ∧ UnchangedBut [] s t)
    ∧ (1920 ≤ s.arg0.toNat → s.arg0.toNat / 60 % 6 ≠ 0 → Failed 5 2 t ∧ UnchangedBut [] s t)
    ∧ (11520 ≤ s.arg0.toNat → s.arg0.toNat / 60 % 6 = 0 → Failed 5 3 t ∧ UnchangedBut [] s t)
    ∧ (11219 < s.arg0.toNat → t.err = true)

/-- R168: every byte TIMER_ENC produces has bit 7 clear and lies in the range of its tier; the three ranges are
disjoint. -/
def Obligations.TimerBytesOfTheTiersAreDisjoint : Prop :=
  ∀ s t : State, exec .timerEnc s = .next t → t.err = false →
    t.result.toNat ≤ 0x5F
      ∧ (s.arg0.toNat ≤ 64 ↔ t.result.toNat ≤ 0x20)
      ∧ (65 ≤ s.arg0.toNat ∧ s.arg0.toNat ≤ 1919 ↔ 0x21 ≤ t.result.toNat ∧ t.result.toNat ≤ 0x3F)
      ∧ (1920 ≤ s.arg0.toNat ↔ 0x46 ≤ t.result.toNat)

/-! ## Host accesses -/

/-- R58, R22-R28: a read of STATUS of an idle block answers its fields at their places and 0 in the reserved bits, with
no effect; a write clears STICKY if its bit 2 is 1 and does nothing else. -/
def Obligations.StatusReadsItsFieldsAndWritesClearSticky : Prop :=
  ∀ (s : State) (addr : Nat) (rest : List PortEvent), Idle s → s.params.baseAddr ≤ addr →
    addr ≤ s.params.baseAddr + 0xFF → addr / 4 % 64 = 1 →
    (s.port = .access (.read addr) :: rest → ∃ v, step s = .next { s with port := rest, answer := some v }
        ∧ v.getLsbD 0 = false ∧ v.getLsbD 1 = s.err ∧ v.getLsbD 2 = s.sticky ∧ v.extractLsb' 3 5 = 0
        ∧ v.extractLsb' 8 4 = s.errCode ∧ v.extractLsb' 12 4 = s.errDetail ∧ v.extractLsb' 16 3 = s.decState
        ∧ v.extractLsb' 19 13 = 0)
      ∧ (∀ w : Word, s.port = .access (.write addr w) :: rest →
        step s = .next { s with port := rest, sticky := (s.sticky && !w.getLsbD 2) })

/-- R55, R56, R64, R66, R67: what a read of each register without a side effect answers, and that it changes nothing:
CMD and unmapped offsets (COUNTk with k at or above NUM_COUNTERS among them) answer 0. -/
def Obligations.PlainReadsAnswerTheirRegister : Prop :=
  ∀ (s : State) (addr : Nat) (rest : List PortEvent), Idle s → s.params.numCounters ≤ 4 →
    s.port = .access (.read addr) :: rest → s.params.baseAddr ≤ addr → addr ≤ s.params.baseAddr + 0xFF →
    addr / 4 % 64 ≠ 1 → addr / 4 % 64 ≠ 6 → addr / 4 % 64 ≠ 8 →
    ∃ v, step s = .next { s with port := rest, answer := some v }
      ∧ (addr / 4 % 64 = 0 → v = 0)
      ∧ (addr / 4 % 64 = 2 → v = s.result)
      ∧ (addr / 4 % 64 = 3 → v = BitVec.ofNat 32 s.units.length)
      ∧ (addr / 4 % 64 = 4 → v = s.outLen)
      ∧ (addr / 4 % 64 = 5 → v = s.ibufPtr)
      ∧ (addr / 4 % 64 = 7 → v = s.obufPtr)
      ∧ (∀ k, k < 4 → addr / 4 % 64 = 9 + k → v = s.arg k)
      ∧ (∀ k, k < s.params.numCounters → addr / 4 % 64 = 13 + k → v = s.count k)
      ∧ (13 + s.params.numCounters ≤ addr / 4 % 64 → v = 0)

/-- R55, R56: a write to RESULT, UNIT_COUNT, OUT_LEN, OBUF_DATA, a COUNTk offset or an unmapped offset changes
nothing. -/
def Obligations.WritesToReadOnlyAndUnmappedOffsetsAreIgnored : Prop :=
  ∀ (s : State) (addr : Nat) (w : Word) (rest : List PortEvent), Idle s →
    s.port = .access (.write addr w) :: rest → s.params.baseAddr ≤ addr → addr ≤ s.params.baseAddr + 0xFF →
    (addr / 4 % 64 ∈ [2, 3, 4, 8] ∨ 13 ≤ addr / 4 % 64) → step s = .next { s with port := rest }

/-- R59, R62, R64: a write to IBUF_PTR or OBUF_PTR stores the word modulo the buffer's size, and a write to ARGk stores
the word; nothing else changes. -/
def Obligations.PointerAndOperandWritesStoreTheirWord : Prop :=
  ∀ (s : State) (addr : Nat) (w : Word) (rest : List PortEvent), Idle s →
    s.port = .access (.write addr w) :: rest → s.params.baseAddr ≤ addr → addr ≤ s.params.baseAddr + 0xFF →
    (addr / 4 % 64 = 5 →
        step s = .next { s with port := rest, ibufPtr := BitVec.ofNat 32 (w.toNat % s.params.ibufSize) })
      ∧ (addr / 4 % 64 = 7 →
        step s = .next { s with port := rest, obufPtr := BitVec.ofNat 32 (w.toNat % s.params.obufSize) })
      ∧ (addr / 4 % 64 = 9 → step s = .next { s with port := rest, arg0 := w })
      ∧ (addr / 4 % 64 = 10 → step s = .next { s with port := rest, arg1 := w })
      ∧ (addr / 4 % 64 = 11 → step s = .next { s with port := rest, arg2 := w })
      ∧ (addr / 4 % 64 = 12 → step s = .next { s with port := rest, arg3 := w })

/-- R61, R63: a read of IBUF_DATA or OBUF_DATA answers the byte at the pointer where one has been written (any byte
where none has), zero-extended, and advances that pointer by one modulo the buffer's size; nothing else changes. A write
to OBUF_DATA is ignored. -/
def Obligations.DataPortReadsAnswerAByteAndAdvance : Prop :=
  ∀ (s : State) (addr : Nat) (rest : List PortEvent), Idle s →
    s.params.baseAddr ≤ addr → addr ≤ s.params.baseAddr + 0xFF →
    (s.port = .access (.read addr) :: rest → addr / 4 % 64 = 6 → ∃ (b : Byte) (n : Nat),
        step s = .next { s with
          port := rest, answer := some (BitVec.ofNat 32 b.toNat), draws := n,
          ibufPtr := BitVec.ofNat 32 ((s.ibufPtr.toNat + 1) % s.params.ibufSize) }
        ∧ ∀ c, s.ibuf.read s.ibufPtr.toNat = some c → b = c)
      ∧ (s.port = .access (.read addr) :: rest → addr / 4 % 64 = 8 → ∃ (b : Byte) (n : Nat),
        step s = .next { s with
          port := rest, answer := some (BitVec.ofNat 32 b.toNat), draws := n,
          obufPtr := BitVec.ofNat 32 ((s.obufPtr.toNat + 1) % s.params.obufSize) }
        ∧ ∀ c, s.obuf.read s.obufPtr.toNat = some c → b = c)
      ∧ (∀ w, s.port = .access (.write addr w) :: rest → addr / 4 % 64 = 8 → step s = .next { s with port := rest })

/-- R60: a burst of writes to IBUF_DATA, each at any address of the window that selects it (offset 0x18, address bits
1:0 ignored), stores the low byte of each word at the index the pointer had when the burst began and the ones after it,
wrapping at IBUF_SIZE, and leaves the pointer advanced by the number of writes; a burst of IBUF_SIZE writes brings it
back. Every other byte, and everything else, is as it was. -/
def Obligations.IbufDataWritesFillTheBufferInOrder : Prop :=
  ∀ (s : State) (ws : List (Nat × Word)) (rest : List PortEvent), Idle s → s.params.legal = true →
    s.ibufPtr.toNat < s.params.ibufSize → ws.length ≤ s.params.ibufSize →
    (∀ p ∈ ws, s.params.baseAddr ≤ p.1 ∧ p.1 ≤ s.params.baseAddr + 0xFF ∧ p.1 / 4 % 64 = 6) →
    s.port = ws.map (fun p => .access (.write p.1 p.2)) ++ rest →
    ∃ t : State, Host.Core.run Sys2Proof.core ws.length s = .next t
      ∧ t.ibufPtr.toNat = (s.ibufPtr.toNat + ws.length) % s.params.ibufSize
      ∧ (ws.length = s.params.ibufSize → t.ibufPtr = s.ibufPtr)
      ∧ (∀ j addr (w : Word), ws[j]? = some (addr, w) →
        t.ibuf.read ((s.ibufPtr.toNat + j) % s.params.ibufSize) = some (BitVec.ofNat 8 w.toNat))
      ∧ (∀ a, (∀ j, j < ws.length → a ≠ (s.ibufPtr.toNat + j) % s.params.ibufSize) → t.ibuf.read a = s.ibuf.read a)
      ∧ t = { s with port := rest, ibuf := t.ibuf, ibufPtr := t.ibufPtr }

/-- R53: an access outside the 256-byte window does not reach the block: idle or busy, it changes nothing, and a read
has no answer (log 11). -/
def Obligations.AccessOutsideTheWindowChangesNothing : Prop :=
  ∀ (s : State) (a : Access) (rest : List PortEvent), s.inReset = false → s.held = none →
    s.port = .access a :: rest → (a.addr < s.params.baseAddr ∨ s.params.baseAddr + 0xFF < a.addr) →
    (∀ addr w, a = .write addr w → step s = .next { s with port := rest })
      ∧ (∀ addr, a = .read addr → step s = .next { s with port := rest, answer := none })

/-! ## Reset and the invariant -/

/-- R196, R197, R198: releasing reset gives every register its reset value, an empty list, and buffers of which no byte
has a value, whatever they held; the parameters stay (R200). -/
def Obligations.ReleasingResetGivesTheResetState : Prop :=
  ∀ (s : State) (rest : List PortEvent), s.inReset = true → s.port = .releaseReset :: rest →
    ∃ t, step s = .next t ∧ t.inReset = false ∧ t.statusWord = 0 ∧ t.result = 0 ∧ t.unitCount = 0 ∧ t.outLen = 0
      ∧ t.ibufPtr = 0 ∧ t.obufPtr = 0 ∧ (∀ k, k < 4 → t.arg k = 0) ∧ (∀ k, k < 4 → t.count k = 0) ∧ t.units = []
      ∧ (∀ a, t.ibuf.read a = none) ∧ (∀ a, t.obuf.read a = none) ∧ t.decoding = none ∧ t.running = none
      ∧ t.params = s.params ∧ t.port = rest

/-- R196, R199: asserting reset ends a running command and drops a held access; while reset is asserted, an access
changes no register and has no answer. -/
def Obligations.AssertedResetEndsTheCommandAndIgnoresAccesses : Prop :=
  (∀ (s : State) (rest : List PortEvent), s.inReset = false → (s.running ≠ none ∨ s.held = none) →
      s.port = .assertReset :: rest →
      ∃ t, step s = .next t ∧ t.inReset = true ∧ t.busy = false ∧ t.held = none ∧ t.port = rest)
    ∧ (∀ (s : State) (a : Access) (rest : List PortEvent), s.inReset = true → s.port = .access a :: rest →
      ∃ t, step s = .next t ∧ t = { s with port := rest, answer := t.answer } ∧ (∀ addr, a = .read addr → t.answer = none))

/-- R19, R22-R31, R34, R37, R39-R43, R46: every step keeps the invariant, from every state that has it. -/
def Obligations.StepKeepsTheInvariant : Prop :=
  ∀ s t : State, s.Inv → step s = .next t → t.Inv

/-- R51, R197: for all legal parameters the reset state has the values of the reset table, and the invariant holds
there. -/
def Obligations.ResetStateMeetsTheTableAndTheInvariant : Prop :=
  ∀ p : Params, p.legal = true →
    (State.resetOf p).Inv ∧ (State.resetOf p).statusWord = 0 ∧ (State.resetOf p).result = 0
      ∧ (State.resetOf p).unitCount = 0 ∧ (State.resetOf p).outLen = 0 ∧ (State.resetOf p).ibufPtr = 0
      ∧ (State.resetOf p).obufPtr = 0 ∧ (∀ k, k < 4 → (State.resetOf p).arg k = 0)
      ∧ (∀ k, k < 4 → (State.resetOf p).count k = 0) ∧ (State.resetOf p).units = []
      ∧ (State.resetOf p).decoding = none ∧ (∀ a, (State.resetOf p).ibuf.read a = none)
      ∧ (∀ a, (State.resetOf p).obuf.read a = none)
end

