-- ==== Sys2Proof/Laws/State.lean ====
section
/-! SUPPORT. One lemma per field per named update of State, so that no later proof unfolds a record update. -/

namespace Sys2Proof.Machine

section fields
variable (s : State)

/-! drawn -/

@[simp] theorem drawn_params (n : Nat) : (s.drawn n).params = s.params := rfl
@[simp] theorem drawn_err (n : Nat) : (s.drawn n).err = s.err := rfl
@[simp] theorem drawn_sticky (n : Nat) : (s.drawn n).sticky = s.sticky := rfl
@[simp] theorem drawn_errCode (n : Nat) : (s.drawn n).errCode = s.errCode := rfl
@[simp] theorem drawn_errDetail (n : Nat) : (s.drawn n).errDetail = s.errDetail := rfl
@[simp] theorem drawn_decState (n : Nat) : (s.drawn n).decState = s.decState := rfl
@[simp] theorem drawn_result (n : Nat) : (s.drawn n).result = s.result := rfl
@[simp] theorem drawn_outLen (n : Nat) : (s.drawn n).outLen = s.outLen := rfl
@[simp] theorem drawn_ibufPtr (n : Nat) : (s.drawn n).ibufPtr = s.ibufPtr := rfl
@[simp] theorem drawn_obufPtr (n : Nat) : (s.drawn n).obufPtr = s.obufPtr := rfl
@[simp] theorem drawn_arg0 (n : Nat) : (s.drawn n).arg0 = s.arg0 := rfl
@[simp] theorem drawn_arg1 (n : Nat) : (s.drawn n).arg1 = s.arg1 := rfl
@[simp] theorem drawn_arg2 (n : Nat) : (s.drawn n).arg2 = s.arg2 := rfl
@[simp] theorem drawn_arg3 (n : Nat) : (s.drawn n).arg3 = s.arg3 := rfl
@[simp] theorem drawn_count0 (n : Nat) : (s.drawn n).count0 = s.count0 := rfl
@[simp] theorem drawn_count1 (n : Nat) : (s.drawn n).count1 = s.count1 := rfl
@[simp] theorem drawn_count2 (n : Nat) : (s.drawn n).count2 = s.count2 := rfl
@[simp] theorem drawn_count3 (n : Nat) : (s.drawn n).count3 = s.count3 := rfl
@[simp] theorem drawn_units (n : Nat) : (s.drawn n).units = s.units := rfl
@[simp] theorem drawn_ibuf (n : Nat) : (s.drawn n).ibuf = s.ibuf := rfl
@[simp] theorem drawn_obuf (n : Nat) : (s.drawn n).obuf = s.obuf := rfl
@[simp] theorem drawn_decoding (n : Nat) : (s.drawn n).decoding = s.decoding := rfl
@[simp] theorem drawn_running (n : Nat) : (s.drawn n).running = s.running := rfl
@[simp] theorem drawn_held (n : Nat) : (s.drawn n).held = s.held := rfl
@[simp] theorem drawn_inReset (n : Nat) : (s.drawn n).inReset = s.inReset := rfl
@[simp] theorem drawn_port (n : Nat) : (s.drawn n).port = s.port := rfl
@[simp] theorem drawn_answer (n : Nat) : (s.drawn n).answer = s.answer := rfl
@[simp] theorem drawn_draws (n : Nat) : (s.drawn n).draws = s.draws + n := rfl
@[simp] theorem drawn_count (n : Nat) (k : Nat) : (s.drawn n).count k = s.count k := rfl
@[simp] theorem drawn_arg (n : Nat) (k : Nat) : (s.drawn n).arg k = s.arg k := rfl

/-! setResult -/

@[simp] theorem setResult_params (w : Word) : (s.setResult w).params = s.params := rfl
@[simp] theorem setResult_err (w : Word) : (s.setResult w).err = s.err := rfl
@[simp] theorem setResult_sticky (w : Word) : (s.setResult w).sticky = s.sticky := rfl
@[simp] theorem setResult_errCode (w : Word) : (s.setResult w).errCode = s.errCode := rfl
@[simp] theorem setResult_errDetail (w : Word) : (s.setResult w).errDetail = s.errDetail := rfl
@[simp] theorem setResult_decState (w : Word) : (s.setResult w).decState = s.decState := rfl
@[simp] theorem setResult_result (w : Word) : (s.setResult w).result = w := rfl
@[simp] theorem setResult_outLen (w : Word) : (s.setResult w).outLen = s.outLen := rfl
@[simp] theorem setResult_ibufPtr (w : Word) : (s.setResult w).ibufPtr = s.ibufPtr := rfl
@[simp] theorem setResult_obufPtr (w : Word) : (s.setResult w).obufPtr = s.obufPtr := rfl
@[simp] theorem setResult_arg0 (w : Word) : (s.setResult w).arg0 = s.arg0 := rfl
@[simp] theorem setResult_arg1 (w : Word) : (s.setResult w).arg1 = s.arg1 := rfl
@[simp] theorem setResult_arg2 (w : Word) : (s.setResult w).arg2 = s.arg2 := rfl
@[simp] theorem setResult_arg3 (w : Word) : (s.setResult w).arg3 = s.arg3 := rfl
@[simp] theorem setResult_count0 (w : Word) : (s.setResult w).count0 = s.count0 := rfl
@[simp] theorem setResult_count1 (w : Word) : (s.setResult w).count1 = s.count1 := rfl
@[simp] theorem setResult_count2 (w : Word) : (s.setResult w).count2 = s.count2 := rfl
@[simp] theorem setResult_count3 (w : Word) : (s.setResult w).count3 = s.count3 := rfl
@[simp] theorem setResult_units (w : Word) : (s.setResult w).units = s.units := rfl
@[simp] theorem setResult_ibuf (w : Word) : (s.setResult w).ibuf = s.ibuf := rfl
@[simp] theorem setResult_obuf (w : Word) : (s.setResult w).obuf = s.obuf := rfl
@[simp] theorem setResult_decoding (w : Word) : (s.setResult w).decoding = s.decoding := rfl
@[simp] theorem setResult_running (w : Word) : (s.setResult w).running = s.running := rfl
@[simp] theorem setResult_held (w : Word) : (s.setResult w).held = s.held := rfl
@[simp] theorem setResult_inReset (w : Word) : (s.setResult w).inReset = s.inReset := rfl
@[simp] theorem setResult_port (w : Word) : (s.setResult w).port = s.port := rfl
@[simp] theorem setResult_answer (w : Word) : (s.setResult w).answer = s.answer := rfl
@[simp] theorem setResult_draws (w : Word) : (s.setResult w).draws = s.draws := rfl
@[simp] theorem setResult_count (w : Word) (k : Nat) : (s.setResult w).count k = s.count k := rfl
@[simp] theorem setResult_arg (w : Word) (k : Nat) : (s.setResult w).arg k = s.arg k := rfl

/-! setUnits -/

@[simp] theorem setUnits_params (us : List ContainerUnit) : (s.setUnits us).params = s.params := rfl
@[simp] theorem setUnits_err (us : List ContainerUnit) : (s.setUnits us).err = s.err := rfl
@[simp] theorem setUnits_sticky (us : List ContainerUnit) : (s.setUnits us).sticky = s.sticky := rfl
@[simp] theorem setUnits_errCode (us : List ContainerUnit) : (s.setUnits us).errCode = s.errCode := rfl
@[simp] theorem setUnits_errDetail (us : List ContainerUnit) : (s.setUnits us).errDetail = s.errDetail := rfl
@[simp] theorem setUnits_decState (us : List ContainerUnit) : (s.setUnits us).decState = s.decState := rfl
@[simp] theorem setUnits_result (us : List ContainerUnit) : (s.setUnits us).result = s.result := rfl
@[simp] theorem setUnits_outLen (us : List ContainerUnit) : (s.setUnits us).outLen = s.outLen := rfl
@[simp] theorem setUnits_ibufPtr (us : List ContainerUnit) : (s.setUnits us).ibufPtr = s.ibufPtr := rfl
@[simp] theorem setUnits_obufPtr (us : List ContainerUnit) : (s.setUnits us).obufPtr = s.obufPtr := rfl
@[simp] theorem setUnits_arg0 (us : List ContainerUnit) : (s.setUnits us).arg0 = s.arg0 := rfl
@[simp] theorem setUnits_arg1 (us : List ContainerUnit) : (s.setUnits us).arg1 = s.arg1 := rfl
@[simp] theorem setUnits_arg2 (us : List ContainerUnit) : (s.setUnits us).arg2 = s.arg2 := rfl
@[simp] theorem setUnits_arg3 (us : List ContainerUnit) : (s.setUnits us).arg3 = s.arg3 := rfl
@[simp] theorem setUnits_count0 (us : List ContainerUnit) : (s.setUnits us).count0 = s.count0 := rfl
@[simp] theorem setUnits_count1 (us : List ContainerUnit) : (s.setUnits us).count1 = s.count1 := rfl
@[simp] theorem setUnits_count2 (us : List ContainerUnit) : (s.setUnits us).count2 = s.count2 := rfl
@[simp] theorem setUnits_count3 (us : List ContainerUnit) : (s.setUnits us).count3 = s.count3 := rfl
@[simp] theorem setUnits_units (us : List ContainerUnit) : (s.setUnits us).units = us := rfl
@[simp] theorem setUnits_ibuf (us : List ContainerUnit) : (s.setUnits us).ibuf = s.ibuf := rfl
@[simp] theorem setUnits_obuf (us : List ContainerUnit) : (s.setUnits us).obuf = s.obuf := rfl
@[simp] theorem setUnits_decoding (us : List ContainerUnit) : (s.setUnits us).decoding = s.decoding := rfl
@[simp] theorem setUnits_running (us : List ContainerUnit) : (s.setUnits us).running = s.running := rfl
@[simp] theorem setUnits_held (us : List ContainerUnit) : (s.setUnits us).held = s.held := rfl
@[simp] theorem setUnits_inReset (us : List ContainerUnit) : (s.setUnits us).inReset = s.inReset := rfl
@[simp] theorem setUnits_port (us : List ContainerUnit) : (s.setUnits us).port = s.port := rfl
@[simp] theorem setUnits_answer (us : List ContainerUnit) : (s.setUnits us).answer = s.answer := rfl
@[simp] theorem setUnits_draws (us : List ContainerUnit) : (s.setUnits us).draws = s.draws := rfl
@[simp] theorem setUnits_count (us : List ContainerUnit) (k : Nat) : (s.setUnits us).count k = s.count k := rfl
@[simp] theorem setUnits_arg (us : List ContainerUnit) (k : Nat) : (s.setUnits us).arg k = s.arg k := rfl

/-! setDecoding -/

@[simp] theorem setDecoding_params (d : DecodeState) : (s.setDecoding d).params = s.params := rfl
@[simp] theorem setDecoding_err (d : DecodeState) : (s.setDecoding d).err = s.err := rfl
@[simp] theorem setDecoding_sticky (d : DecodeState) : (s.setDecoding d).sticky = s.sticky := rfl
@[simp] theorem setDecoding_errCode (d : DecodeState) : (s.setDecoding d).errCode = s.errCode := rfl
@[simp] theorem setDecoding_errDetail (d : DecodeState) : (s.setDecoding d).errDetail = s.errDetail := rfl
@[simp] theorem setDecoding_decState (d : DecodeState) : (s.setDecoding d).decState = s.decState := rfl
@[simp] theorem setDecoding_result (d : DecodeState) : (s.setDecoding d).result = s.result := rfl
@[simp] theorem setDecoding_outLen (d : DecodeState) : (s.setDecoding d).outLen = s.outLen := rfl
@[simp] theorem setDecoding_ibufPtr (d : DecodeState) : (s.setDecoding d).ibufPtr = s.ibufPtr := rfl
@[simp] theorem setDecoding_obufPtr (d : DecodeState) : (s.setDecoding d).obufPtr = s.obufPtr := rfl
@[simp] theorem setDecoding_arg0 (d : DecodeState) : (s.setDecoding d).arg0 = s.arg0 := rfl
@[simp] theorem setDecoding_arg1 (d : DecodeState) : (s.setDecoding d).arg1 = s.arg1 := rfl
@[simp] theorem setDecoding_arg2 (d : DecodeState) : (s.setDecoding d).arg2 = s.arg2 := rfl
@[simp] theorem setDecoding_arg3 (d : DecodeState) : (s.setDecoding d).arg3 = s.arg3 := rfl
@[simp] theorem setDecoding_count0 (d : DecodeState) : (s.setDecoding d).count0 = s.count0 := rfl
@[simp] theorem setDecoding_count1 (d : DecodeState) : (s.setDecoding d).count1 = s.count1 := rfl
@[simp] theorem setDecoding_count2 (d : DecodeState) : (s.setDecoding d).count2 = s.count2 := rfl
@[simp] theorem setDecoding_count3 (d : DecodeState) : (s.setDecoding d).count3 = s.count3 := rfl
@[simp] theorem setDecoding_units (d : DecodeState) : (s.setDecoding d).units = s.units := rfl
@[simp] theorem setDecoding_ibuf (d : DecodeState) : (s.setDecoding d).ibuf = s.ibuf := rfl
@[simp] theorem setDecoding_obuf (d : DecodeState) : (s.setDecoding d).obuf = s.obuf := rfl
@[simp] theorem setDecoding_decoding (d : DecodeState) : (s.setDecoding d).decoding = some d := rfl
@[simp] theorem setDecoding_running (d : DecodeState) : (s.setDecoding d).running = s.running := rfl
@[simp] theorem setDecoding_held (d : DecodeState) : (s.setDecoding d).held = s.held := rfl
@[simp] theorem setDecoding_inReset (d : DecodeState) : (s.setDecoding d).inReset = s.inReset := rfl
@[simp] theorem setDecoding_port (d : DecodeState) : (s.setDecoding d).port = s.port := rfl
@[simp] theorem setDecoding_answer (d : DecodeState) : (s.setDecoding d).answer = s.answer := rfl
@[simp] theorem setDecoding_draws (d : DecodeState) : (s.setDecoding d).draws = s.draws := rfl
@[simp] theorem setDecoding_count (d : DecodeState) (k : Nat) : (s.setDecoding d).count k = s.count k := rfl
@[simp] theorem setDecoding_arg (d : DecodeState) (k : Nat) : (s.setDecoding d).arg k = s.arg k := rfl

/-! endDecode -/

@[simp] theorem endDecode_params (c : BitVec 3) : (s.endDecode c).params = s.params := rfl
@[simp] theorem endDecode_err (c : BitVec 3) : (s.endDecode c).err = s.err := rfl
@[simp] theorem endDecode_sticky (c : BitVec 3) : (s.endDecode c).sticky = s.sticky := rfl
@[simp] theorem endDecode_errCode (c : BitVec 3) : (s.endDecode c).errCode = s.errCode := rfl
@[simp] theorem endDecode_errDetail (c : BitVec 3) : (s.endDecode c).errDetail = s.errDetail := rfl
@[simp] theorem endDecode_decState (c : BitVec 3) : (s.endDecode c).decState = c := rfl
@[simp] theorem endDecode_result (c : BitVec 3) : (s.endDecode c).result = s.result := rfl
@[simp] theorem endDecode_outLen (c : BitVec 3) : (s.endDecode c).outLen = s.outLen := rfl
@[simp] theorem endDecode_ibufPtr (c : BitVec 3) : (s.endDecode c).ibufPtr = s.ibufPtr := rfl
@[simp] theorem endDecode_obufPtr (c : BitVec 3) : (s.endDecode c).obufPtr = s.obufPtr := rfl
@[simp] theorem endDecode_arg0 (c : BitVec 3) : (s.endDecode c).arg0 = s.arg0 := rfl
@[simp] theorem endDecode_arg1 (c : BitVec 3) : (s.endDecode c).arg1 = s.arg1 := rfl
@[simp] theorem endDecode_arg2 (c : BitVec 3) : (s.endDecode c).arg2 = s.arg2 := rfl
@[simp] theorem endDecode_arg3 (c : BitVec 3) : (s.endDecode c).arg3 = s.arg3 := rfl
@[simp] theorem endDecode_count0 (c : BitVec 3) : (s.endDecode c).count0 = s.count0 := rfl
@[simp] theorem endDecode_count1 (c : BitVec 3) : (s.endDecode c).count1 = s.count1 := rfl
@[simp] theorem endDecode_count2 (c : BitVec 3) : (s.endDecode c).count2 = s.count2 := rfl
@[simp] theorem endDecode_count3 (c : BitVec 3) : (s.endDecode c).count3 = s.count3 := rfl
@[simp] theorem endDecode_units (c : BitVec 3) : (s.endDecode c).units = s.units := rfl
@[simp] theorem endDecode_ibuf (c : BitVec 3) : (s.endDecode c).ibuf = s.ibuf := rfl
@[simp] theorem endDecode_obuf (c : BitVec 3) : (s.endDecode c).obuf = s.obuf := rfl
@[simp] theorem endDecode_decoding (c : BitVec 3) : (s.endDecode c).decoding = none := rfl
@[simp] theorem endDecode_running (c : BitVec 3) : (s.endDecode c).running = s.running := rfl
@[simp] theorem endDecode_held (c : BitVec 3) : (s.endDecode c).held = s.held := rfl
@[simp] theorem endDecode_inReset (c : BitVec 3) : (s.endDecode c).inReset = s.inReset := rfl
@[simp] theorem endDecode_port (c : BitVec 3) : (s.endDecode c).port = s.port := rfl
@[simp] theorem endDecode_answer (c : BitVec 3) : (s.endDecode c).answer = s.answer := rfl
@[simp] theorem endDecode_draws (c : BitVec 3) : (s.endDecode c).draws = s.draws := rfl
@[simp] theorem endDecode_count (c : BitVec 3) (k : Nat) : (s.endDecode c).count k = s.count k := rfl
@[simp] theorem endDecode_arg (c : BitVec 3) (k : Nat) : (s.endDecode c).arg k = s.arg k := rfl

/-! endEncode -/

@[simp] theorem endEncode_params (o : Nat) : (s.endEncode o).params = s.params := rfl
@[simp] theorem endEncode_err (o : Nat) : (s.endEncode o).err = s.err := rfl
@[simp] theorem endEncode_sticky (o : Nat) : (s.endEncode o).sticky = s.sticky := rfl
@[simp] theorem endEncode_errCode (o : Nat) : (s.endEncode o).errCode = s.errCode := rfl
@[simp] theorem endEncode_errDetail (o : Nat) : (s.endEncode o).errDetail = s.errDetail := rfl
@[simp] theorem endEncode_decState (o : Nat) : (s.endEncode o).decState = s.decState := rfl
@[simp] theorem endEncode_result (o : Nat) : (s.endEncode o).result = s.result := rfl
@[simp] theorem endEncode_outLen (o : Nat) : (s.endEncode o).outLen = BitVec.ofNat 32 o := rfl
@[simp] theorem endEncode_ibufPtr (o : Nat) : (s.endEncode o).ibufPtr = s.ibufPtr := rfl
@[simp] theorem endEncode_obufPtr (o : Nat) : (s.endEncode o).obufPtr = 0 := rfl
@[simp] theorem endEncode_arg0 (o : Nat) : (s.endEncode o).arg0 = s.arg0 := rfl
@[simp] theorem endEncode_arg1 (o : Nat) : (s.endEncode o).arg1 = s.arg1 := rfl
@[simp] theorem endEncode_arg2 (o : Nat) : (s.endEncode o).arg2 = s.arg2 := rfl
@[simp] theorem endEncode_arg3 (o : Nat) : (s.endEncode o).arg3 = s.arg3 := rfl
@[simp] theorem endEncode_count0 (o : Nat) : (s.endEncode o).count0 = s.count0 := rfl
@[simp] theorem endEncode_count1 (o : Nat) : (s.endEncode o).count1 = s.count1 := rfl
@[simp] theorem endEncode_count2 (o : Nat) : (s.endEncode o).count2 = s.count2 := rfl
@[simp] theorem endEncode_count3 (o : Nat) : (s.endEncode o).count3 = s.count3 := rfl
@[simp] theorem endEncode_units (o : Nat) : (s.endEncode o).units = s.units := rfl
@[simp] theorem endEncode_ibuf (o : Nat) : (s.endEncode o).ibuf = s.ibuf := rfl
@[simp] theorem endEncode_obuf (o : Nat) : (s.endEncode o).obuf = s.obuf := rfl
@[simp] theorem endEncode_decoding (o : Nat) : (s.endEncode o).decoding = s.decoding := rfl
@[simp] theorem endEncode_running (o : Nat) : (s.endEncode o).running = s.running := rfl
@[simp] theorem endEncode_held (o : Nat) : (s.endEncode o).held = s.held := rfl
@[simp] theorem endEncode_inReset (o : Nat) : (s.endEncode o).inReset = s.inReset := rfl
@[simp] theorem endEncode_port (o : Nat) : (s.endEncode o).port = s.port := rfl
@[simp] theorem endEncode_answer (o : Nat) : (s.endEncode o).answer = s.answer := rfl
@[simp] theorem endEncode_draws (o : Nat) : (s.endEncode o).draws = s.draws := rfl
@[simp] theorem endEncode_count (o : Nat) (k : Nat) : (s.endEncode o).count k = s.count k := rfl
@[simp] theorem endEncode_arg (o : Nat) (k : Nat) : (s.endEncode o).arg k = s.arg k := rfl

/-! setPort -/

@[simp] theorem setPort_params (es : List PortEvent) : (s.setPort es).params = s.params := rfl
@[simp] theorem setPort_err (es : List PortEvent) : (s.setPort es).err = s.err := rfl
@[simp] theorem setPort_sticky (es : List PortEvent) : (s.setPort es).sticky = s.sticky := rfl
@[simp] theorem setPort_errCode (es : List PortEvent) : (s.setPort es).errCode = s.errCode := rfl
@[simp] theorem setPort_errDetail (es : List PortEvent) : (s.setPort es).errDetail = s.errDetail := rfl
@[simp] theorem setPort_decState (es : List PortEvent) : (s.setPort es).decState = s.decState := rfl
@[simp] theorem setPort_result (es : List PortEvent) : (s.setPort es).result = s.result := rfl
@[simp] theorem setPort_outLen (es : List PortEvent) : (s.setPort es).outLen = s.outLen := rfl
@[simp] theorem setPort_ibufPtr (es : List PortEvent) : (s.setPort es).ibufPtr = s.ibufPtr := rfl
@[simp] theorem setPort_obufPtr (es : List PortEvent) : (s.setPort es).obufPtr = s.obufPtr := rfl
@[simp] theorem setPort_arg0 (es : List PortEvent) : (s.setPort es).arg0 = s.arg0 := rfl
@[simp] theorem setPort_arg1 (es : List PortEvent) : (s.setPort es).arg1 = s.arg1 := rfl
@[simp] theorem setPort_arg2 (es : List PortEvent) : (s.setPort es).arg2 = s.arg2 := rfl
@[simp] theorem setPort_arg3 (es : List PortEvent) : (s.setPort es).arg3 = s.arg3 := rfl
@[simp] theorem setPort_count0 (es : List PortEvent) : (s.setPort es).count0 = s.count0 := rfl
@[simp] theorem setPort_count1 (es : List PortEvent) : (s.setPort es).count1 = s.count1 := rfl
@[simp] theorem setPort_count2 (es : List PortEvent) : (s.setPort es).count2 = s.count2 := rfl
@[simp] theorem setPort_count3 (es : List PortEvent) : (s.setPort es).count3 = s.count3 := rfl
@[simp] theorem setPort_units (es : List PortEvent) : (s.setPort es).units = s.units := rfl
@[simp] theorem setPort_ibuf (es : List PortEvent) : (s.setPort es).ibuf = s.ibuf := rfl
@[simp] theorem setPort_obuf (es : List PortEvent) : (s.setPort es).obuf = s.obuf := rfl
@[simp] theorem setPort_decoding (es : List PortEvent) : (s.setPort es).decoding = s.decoding := rfl
@[simp] theorem setPort_running (es : List PortEvent) : (s.setPort es).running = s.running := rfl
@[simp] theorem setPort_held (es : List PortEvent) : (s.setPort es).held = s.held := rfl
@[simp] theorem setPort_inReset (es : List PortEvent) : (s.setPort es).inReset = s.inReset := rfl
@[simp] theorem setPort_port (es : List PortEvent) : (s.setPort es).port = es := rfl
@[simp] theorem setPort_answer (es : List PortEvent) : (s.setPort es).answer = s.answer := rfl
@[simp] theorem setPort_draws (es : List PortEvent) : (s.setPort es).draws = s.draws := rfl
@[simp] theorem setPort_count (es : List PortEvent) (k : Nat) : (s.setPort es).count k = s.count k := rfl
@[simp] theorem setPort_arg (es : List PortEvent) (k : Nat) : (s.setPort es).arg k = s.arg k := rfl

/-! setHeld -/

@[simp] theorem setHeld_params (a : Option Access) : (s.setHeld a).params = s.params := rfl
@[simp] theorem setHeld_err (a : Option Access) : (s.setHeld a).err = s.err := rfl
@[simp] theorem setHeld_sticky (a : Option Access) : (s.setHeld a).sticky = s.sticky := rfl
@[simp] theorem setHeld_errCode (a : Option Access) : (s.setHeld a).errCode = s.errCode := rfl
@[simp] theorem setHeld_errDetail (a : Option Access) : (s.setHeld a).errDetail = s.errDetail := rfl
@[simp] theorem setHeld_decState (a : Option Access) : (s.setHeld a).decState = s.decState := rfl
@[simp] theorem setHeld_result (a : Option Access) : (s.setHeld a).result = s.result := rfl
@[simp] theorem setHeld_outLen (a : Option Access) : (s.setHeld a).outLen = s.outLen := rfl
@[simp] theorem setHeld_ibufPtr (a : Option Access) : (s.setHeld a).ibufPtr = s.ibufPtr := rfl
@[simp] theorem setHeld_obufPtr (a : Option Access) : (s.setHeld a).obufPtr = s.obufPtr := rfl
@[simp] theorem setHeld_arg0 (a : Option Access) : (s.setHeld a).arg0 = s.arg0 := rfl
@[simp] theorem setHeld_arg1 (a : Option Access) : (s.setHeld a).arg1 = s.arg1 := rfl
@[simp] theorem setHeld_arg2 (a : Option Access) : (s.setHeld a).arg2 = s.arg2 := rfl
@[simp] theorem setHeld_arg3 (a : Option Access) : (s.setHeld a).arg3 = s.arg3 := rfl
@[simp] theorem setHeld_count0 (a : Option Access) : (s.setHeld a).count0 = s.count0 := rfl
@[simp] theorem setHeld_count1 (a : Option Access) : (s.setHeld a).count1 = s.count1 := rfl
@[simp] theorem setHeld_count2 (a : Option Access) : (s.setHeld a).count2 = s.count2 := rfl
@[simp] theorem setHeld_count3 (a : Option Access) : (s.setHeld a).count3 = s.count3 := rfl
@[simp] theorem setHeld_units (a : Option Access) : (s.setHeld a).units = s.units := rfl
@[simp] theorem setHeld_ibuf (a : Option Access) : (s.setHeld a).ibuf = s.ibuf := rfl
@[simp] theorem setHeld_obuf (a : Option Access) : (s.setHeld a).obuf = s.obuf := rfl
@[simp] theorem setHeld_decoding (a : Option Access) : (s.setHeld a).decoding = s.decoding := rfl
@[simp] theorem setHeld_running (a : Option Access) : (s.setHeld a).running = s.running := rfl
@[simp] theorem setHeld_held (a : Option Access) : (s.setHeld a).held = a := rfl
@[simp] theorem setHeld_inReset (a : Option Access) : (s.setHeld a).inReset = s.inReset := rfl
@[simp] theorem setHeld_port (a : Option Access) : (s.setHeld a).port = s.port := rfl
@[simp] theorem setHeld_answer (a : Option Access) : (s.setHeld a).answer = s.answer := rfl
@[simp] theorem setHeld_draws (a : Option Access) : (s.setHeld a).draws = s.draws := rfl
@[simp] theorem setHeld_count (a : Option Access) (k : Nat) : (s.setHeld a).count k = s.count k := rfl
@[simp] theorem setHeld_arg (a : Option Access) (k : Nat) : (s.setHeld a).arg k = s.arg k := rfl

/-! setAnswer -/

@[simp] theorem setAnswer_params (w : Option Word) : (s.setAnswer w).params = s.params := rfl
@[simp] theorem setAnswer_err (w : Option Word) : (s.setAnswer w).err = s.err := rfl
@[simp] theorem setAnswer_sticky (w : Option Word) : (s.setAnswer w).sticky = s.sticky := rfl
@[simp] theorem setAnswer_errCode (w : Option Word) : (s.setAnswer w).errCode = s.errCode := rfl
@[simp] theorem setAnswer_errDetail (w : Option Word) : (s.setAnswer w).errDetail = s.errDetail := rfl
@[simp] theorem setAnswer_decState (w : Option Word) : (s.setAnswer w).decState = s.decState := rfl
@[simp] theorem setAnswer_result (w : Option Word) : (s.setAnswer w).result = s.result := rfl
@[simp] theorem setAnswer_outLen (w : Option Word) : (s.setAnswer w).outLen = s.outLen := rfl
@[simp] theorem setAnswer_ibufPtr (w : Option Word) : (s.setAnswer w).ibufPtr = s.ibufPtr := rfl
@[simp] theorem setAnswer_obufPtr (w : Option Word) : (s.setAnswer w).obufPtr = s.obufPtr := rfl
@[simp] theorem setAnswer_arg0 (w : Option Word) : (s.setAnswer w).arg0 = s.arg0 := rfl
@[simp] theorem setAnswer_arg1 (w : Option Word) : (s.setAnswer w).arg1 = s.arg1 := rfl
@[simp] theorem setAnswer_arg2 (w : Option Word) : (s.setAnswer w).arg2 = s.arg2 := rfl
@[simp] theorem setAnswer_arg3 (w : Option Word) : (s.setAnswer w).arg3 = s.arg3 := rfl
@[simp] theorem setAnswer_count0 (w : Option Word) : (s.setAnswer w).count0 = s.count0 := rfl
@[simp] theorem setAnswer_count1 (w : Option Word) : (s.setAnswer w).count1 = s.count1 := rfl
@[simp] theorem setAnswer_count2 (w : Option Word) : (s.setAnswer w).count2 = s.count2 := rfl
@[simp] theorem setAnswer_count3 (w : Option Word) : (s.setAnswer w).count3 = s.count3 := rfl
@[simp] theorem setAnswer_units (w : Option Word) : (s.setAnswer w).units = s.units := rfl
@[simp] theorem setAnswer_ibuf (w : Option Word) : (s.setAnswer w).ibuf = s.ibuf := rfl
@[simp] theorem setAnswer_obuf (w : Option Word) : (s.setAnswer w).obuf = s.obuf := rfl
@[simp] theorem setAnswer_decoding (w : Option Word) : (s.setAnswer w).decoding = s.decoding := rfl
@[simp] theorem setAnswer_running (w : Option Word) : (s.setAnswer w).running = s.running := rfl
@[simp] theorem setAnswer_held (w : Option Word) : (s.setAnswer w).held = s.held := rfl
@[simp] theorem setAnswer_inReset (w : Option Word) : (s.setAnswer w).inReset = s.inReset := rfl
@[simp] theorem setAnswer_port (w : Option Word) : (s.setAnswer w).port = s.port := rfl
@[simp] theorem setAnswer_answer (w : Option Word) : (s.setAnswer w).answer = w := rfl
@[simp] theorem setAnswer_draws (w : Option Word) : (s.setAnswer w).draws = s.draws := rfl
@[simp] theorem setAnswer_count (w : Option Word) (k : Nat) : (s.setAnswer w).count k = s.count k := rfl
@[simp] theorem setAnswer_arg (w : Option Word) (k : Nat) : (s.setAnswer w).arg k = s.arg k := rfl

/-! setRunning -/

@[simp] theorem setRunning_params (w : Word) : (s.setRunning w).params = s.params := rfl
@[simp] theorem setRunning_err (w : Word) : (s.setRunning w).err = s.err := rfl
@[simp] theorem setRunning_sticky (w : Word) : (s.setRunning w).sticky = s.sticky := rfl
@[simp] theorem setRunning_errCode (w : Word) : (s.setRunning w).errCode = s.errCode := rfl
@[simp] theorem setRunning_errDetail (w : Word) : (s.setRunning w).errDetail = s.errDetail := rfl
@[simp] theorem setRunning_decState (w : Word) : (s.setRunning w).decState = s.decState := rfl
@[simp] theorem setRunning_result (w : Word) : (s.setRunning w).result = s.result := rfl
@[simp] theorem setRunning_outLen (w : Word) : (s.setRunning w).outLen = s.outLen := rfl
@[simp] theorem setRunning_ibufPtr (w : Word) : (s.setRunning w).ibufPtr = s.ibufPtr := rfl
@[simp] theorem setRunning_obufPtr (w : Word) : (s.setRunning w).obufPtr = s.obufPtr := rfl
@[simp] theorem setRunning_arg0 (w : Word) : (s.setRunning w).arg0 = s.arg0 := rfl
@[simp] theorem setRunning_arg1 (w : Word) : (s.setRunning w).arg1 = s.arg1 := rfl
@[simp] theorem setRunning_arg2 (w : Word) : (s.setRunning w).arg2 = s.arg2 := rfl
@[simp] theorem setRunning_arg3 (w : Word) : (s.setRunning w).arg3 = s.arg3 := rfl
@[simp] theorem setRunning_count0 (w : Word) : (s.setRunning w).count0 = s.count0 := rfl
@[simp] theorem setRunning_count1 (w : Word) : (s.setRunning w).count1 = s.count1 := rfl
@[simp] theorem setRunning_count2 (w : Word) : (s.setRunning w).count2 = s.count2 := rfl
@[simp] theorem setRunning_count3 (w : Word) : (s.setRunning w).count3 = s.count3 := rfl
@[simp] theorem setRunning_units (w : Word) : (s.setRunning w).units = s.units := rfl
@[simp] theorem setRunning_ibuf (w : Word) : (s.setRunning w).ibuf = s.ibuf := rfl
@[simp] theorem setRunning_obuf (w : Word) : (s.setRunning w).obuf = s.obuf := rfl
@[simp] theorem setRunning_decoding (w : Word) : (s.setRunning w).decoding = s.decoding := rfl
@[simp] theorem setRunning_running (w : Word) : (s.setRunning w).running = some w := rfl
@[simp] theorem setRunning_held (w : Word) : (s.setRunning w).held = s.held := rfl
@[simp] theorem setRunning_inReset (w : Word) : (s.setRunning w).inReset = s.inReset := rfl
@[simp] theorem setRunning_port (w : Word) : (s.setRunning w).port = s.port := rfl
@[simp] theorem setRunning_answer (w : Word) : (s.setRunning w).answer = s.answer := rfl
@[simp] theorem setRunning_draws (w : Word) : (s.setRunning w).draws = s.draws := rfl
@[simp] theorem setRunning_count (w : Word) (k : Nat) : (s.setRunning w).count k = s.count k := rfl
@[simp] theorem setRunning_arg (w : Word) (k : Nat) : (s.setRunning w).arg k = s.arg k := rfl

/-! clearSticky -/

@[simp] theorem clearSticky_params : (s.clearSticky).params = s.params := rfl
@[simp] theorem clearSticky_err : (s.clearSticky).err = s.err := rfl
@[simp] theorem clearSticky_sticky : (s.clearSticky).sticky = false := rfl
@[simp] theorem clearSticky_errCode : (s.clearSticky).errCode = s.errCode := rfl
@[simp] theorem clearSticky_errDetail : (s.clearSticky).errDetail = s.errDetail := rfl
@[simp] theorem clearSticky_decState : (s.clearSticky).decState = s.decState := rfl
@[simp] theorem clearSticky_result : (s.clearSticky).result = s.result := rfl
@[simp] theorem clearSticky_outLen : (s.clearSticky).outLen = s.outLen := rfl
@[simp] theorem clearSticky_ibufPtr : (s.clearSticky).ibufPtr = s.ibufPtr := rfl
@[simp] theorem clearSticky_obufPtr : (s.clearSticky).obufPtr = s.obufPtr := rfl
@[simp] theorem clearSticky_arg0 : (s.clearSticky).arg0 = s.arg0 := rfl
@[simp] theorem clearSticky_arg1 : (s.clearSticky).arg1 = s.arg1 := rfl
@[simp] theorem clearSticky_arg2 : (s.clearSticky).arg2 = s.arg2 := rfl
@[simp] theorem clearSticky_arg3 : (s.clearSticky).arg3 = s.arg3 := rfl
@[simp] theorem clearSticky_count0 : (s.clearSticky).count0 = s.count0 := rfl
@[simp] theorem clearSticky_count1 : (s.clearSticky).count1 = s.count1 := rfl
@[simp] theorem clearSticky_count2 : (s.clearSticky).count2 = s.count2 := rfl
@[simp] theorem clearSticky_count3 : (s.clearSticky).count3 = s.count3 := rfl
@[simp] theorem clearSticky_units : (s.clearSticky).units = s.units := rfl
@[simp] theorem clearSticky_ibuf : (s.clearSticky).ibuf = s.ibuf := rfl
@[simp] theorem clearSticky_obuf : (s.clearSticky).obuf = s.obuf := rfl
@[simp] theorem clearSticky_decoding : (s.clearSticky).decoding = s.decoding := rfl
@[simp] theorem clearSticky_running : (s.clearSticky).running = s.running := rfl
@[simp] theorem clearSticky_held : (s.clearSticky).held = s.held := rfl
@[simp] theorem clearSticky_inReset : (s.clearSticky).inReset = s.inReset := rfl
@[simp] theorem clearSticky_port : (s.clearSticky).port = s.port := rfl
@[simp] theorem clearSticky_answer : (s.clearSticky).answer = s.answer := rfl
@[simp] theorem clearSticky_draws : (s.clearSticky).draws = s.draws := rfl
@[simp] theorem clearSticky_count (k : Nat) : (s.clearSticky).count k = s.count k := rfl
@[simp] theorem clearSticky_arg (k : Nat) : (s.clearSticky).arg k = s.arg k := rfl

/-! setIbufPtr -/

@[simp] theorem setIbufPtr_params (w : Word) : (s.setIbufPtr w).params = s.params := rfl
@[simp] theorem setIbufPtr_err (w : Word) : (s.setIbufPtr w).err = s.err := rfl
@[simp] theorem setIbufPtr_sticky (w : Word) : (s.setIbufPtr w).sticky = s.sticky := rfl
@[simp] theorem setIbufPtr_errCode (w : Word) : (s.setIbufPtr w).errCode = s.errCode := rfl
@[simp] theorem setIbufPtr_errDetail (w : Word) : (s.setIbufPtr w).errDetail = s.errDetail := rfl
@[simp] theorem setIbufPtr_decState (w : Word) : (s.setIbufPtr w).decState = s.decState := rfl
@[simp] theorem setIbufPtr_result (w : Word) : (s.setIbufPtr w).result = s.result := rfl
@[simp] theorem setIbufPtr_outLen (w : Word) : (s.setIbufPtr w).outLen = s.outLen := rfl
@[simp] theorem setIbufPtr_ibufPtr (w : Word) : (s.setIbufPtr w).ibufPtr = w := rfl
@[simp] theorem setIbufPtr_obufPtr (w : Word) : (s.setIbufPtr w).obufPtr = s.obufPtr := rfl
@[simp] theorem setIbufPtr_arg0 (w : Word) : (s.setIbufPtr w).arg0 = s.arg0 := rfl
@[simp] theorem setIbufPtr_arg1 (w : Word) : (s.setIbufPtr w).arg1 = s.arg1 := rfl
@[simp] theorem setIbufPtr_arg2 (w : Word) : (s.setIbufPtr w).arg2 = s.arg2 := rfl
@[simp] theorem setIbufPtr_arg3 (w : Word) : (s.setIbufPtr w).arg3 = s.arg3 := rfl
@[simp] theorem setIbufPtr_count0 (w : Word) : (s.setIbufPtr w).count0 = s.count0 := rfl
@[simp] theorem setIbufPtr_count1 (w : Word) : (s.setIbufPtr w).count1 = s.count1 := rfl
@[simp] theorem setIbufPtr_count2 (w : Word) : (s.setIbufPtr w).count2 = s.count2 := rfl
@[simp] theorem setIbufPtr_count3 (w : Word) : (s.setIbufPtr w).count3 = s.count3 := rfl
@[simp] theorem setIbufPtr_units (w : Word) : (s.setIbufPtr w).units = s.units := rfl
@[simp] theorem setIbufPtr_ibuf (w : Word) : (s.setIbufPtr w).ibuf = s.ibuf := rfl
@[simp] theorem setIbufPtr_obuf (w : Word) : (s.setIbufPtr w).obuf = s.obuf := rfl
@[simp] theorem setIbufPtr_decoding (w : Word) : (s.setIbufPtr w).decoding = s.decoding := rfl
@[simp] theorem setIbufPtr_running (w : Word) : (s.setIbufPtr w).running = s.running := rfl
@[simp] theorem setIbufPtr_held (w : Word) : (s.setIbufPtr w).held = s.held := rfl
@[simp] theorem setIbufPtr_inReset (w : Word) : (s.setIbufPtr w).inReset = s.inReset := rfl
@[simp] theorem setIbufPtr_port (w : Word) : (s.setIbufPtr w).port = s.port := rfl
@[simp] theorem setIbufPtr_answer (w : Word) : (s.setIbufPtr w).answer = s.answer := rfl
@[simp] theorem setIbufPtr_draws (w : Word) : (s.setIbufPtr w).draws = s.draws := rfl
@[simp] theorem setIbufPtr_count (w : Word) (k : Nat) : (s.setIbufPtr w).count k = s.count k := rfl
@[simp] theorem setIbufPtr_arg (w : Word) (k : Nat) : (s.setIbufPtr w).arg k = s.arg k := rfl

/-! setObufPtr -/

@[simp] theorem setObufPtr_params (w : Word) : (s.setObufPtr w).params = s.params := rfl
@[simp] theorem setObufPtr_err (w : Word) : (s.setObufPtr w).err = s.err := rfl
@[simp] theorem setObufPtr_sticky (w : Word) : (s.setObufPtr w).sticky = s.sticky := rfl
@[simp] theorem setObufPtr_errCode (w : Word) : (s.setObufPtr w).errCode = s.errCode := rfl
@[simp] theorem setObufPtr_errDetail (w : Word) : (s.setObufPtr w).errDetail = s.errDetail := rfl
@[simp] theorem setObufPtr_decState (w : Word) : (s.setObufPtr w).decState = s.decState := rfl
@[simp] theorem setObufPtr_result (w : Word) : (s.setObufPtr w).result = s.result := rfl
@[simp] theorem setObufPtr_outLen (w : Word) : (s.setObufPtr w).outLen = s.outLen := rfl
@[simp] theorem setObufPtr_ibufPtr (w : Word) : (s.setObufPtr w).ibufPtr = s.ibufPtr := rfl
@[simp] theorem setObufPtr_obufPtr (w : Word) : (s.setObufPtr w).obufPtr = w := rfl
@[simp] theorem setObufPtr_arg0 (w : Word) : (s.setObufPtr w).arg0 = s.arg0 := rfl
@[simp] theorem setObufPtr_arg1 (w : Word) : (s.setObufPtr w).arg1 = s.arg1 := rfl
@[simp] theorem setObufPtr_arg2 (w : Word) : (s.setObufPtr w).arg2 = s.arg2 := rfl
@[simp] theorem setObufPtr_arg3 (w : Word) : (s.setObufPtr w).arg3 = s.arg3 := rfl
@[simp] theorem setObufPtr_count0 (w : Word) : (s.setObufPtr w).count0 = s.count0 := rfl
@[simp] theorem setObufPtr_count1 (w : Word) : (s.setObufPtr w).count1 = s.count1 := rfl
@[simp] theorem setObufPtr_count2 (w : Word) : (s.setObufPtr w).count2 = s.count2 := rfl
@[simp] theorem setObufPtr_count3 (w : Word) : (s.setObufPtr w).count3 = s.count3 := rfl
@[simp] theorem setObufPtr_units (w : Word) : (s.setObufPtr w).units = s.units := rfl
@[simp] theorem setObufPtr_ibuf (w : Word) : (s.setObufPtr w).ibuf = s.ibuf := rfl
@[simp] theorem setObufPtr_obuf (w : Word) : (s.setObufPtr w).obuf = s.obuf := rfl
@[simp] theorem setObufPtr_decoding (w : Word) : (s.setObufPtr w).decoding = s.decoding := rfl
@[simp] theorem setObufPtr_running (w : Word) : (s.setObufPtr w).running = s.running := rfl
@[simp] theorem setObufPtr_held (w : Word) : (s.setObufPtr w).held = s.held := rfl
@[simp] theorem setObufPtr_inReset (w : Word) : (s.setObufPtr w).inReset = s.inReset := rfl
@[simp] theorem setObufPtr_port (w : Word) : (s.setObufPtr w).port = s.port := rfl
@[simp] theorem setObufPtr_answer (w : Word) : (s.setObufPtr w).answer = s.answer := rfl
@[simp] theorem setObufPtr_draws (w : Word) : (s.setObufPtr w).draws = s.draws := rfl
@[simp] theorem setObufPtr_count (w : Word) (k : Nat) : (s.setObufPtr w).count k = s.count k := rfl
@[simp] theorem setObufPtr_arg (w : Word) (k : Nat) : (s.setObufPtr w).arg k = s.arg k := rfl

/-! writeIbuf -/

@[simp] theorem writeIbuf_params (a : Nat) (b : Byte) : (s.writeIbuf a b).params = s.params := rfl
@[simp] theorem writeIbuf_err (a : Nat) (b : Byte) : (s.writeIbuf a b).err = s.err := rfl
@[simp] theorem writeIbuf_sticky (a : Nat) (b : Byte) : (s.writeIbuf a b).sticky = s.sticky := rfl
@[simp] theorem writeIbuf_errCode (a : Nat) (b : Byte) : (s.writeIbuf a b).errCode = s.errCode := rfl
@[simp] theorem writeIbuf_errDetail (a : Nat) (b : Byte) : (s.writeIbuf a b).errDetail = s.errDetail := rfl
@[simp] theorem writeIbuf_decState (a : Nat) (b : Byte) : (s.writeIbuf a b).decState = s.decState := rfl
@[simp] theorem writeIbuf_result (a : Nat) (b : Byte) : (s.writeIbuf a b).result = s.result := rfl
@[simp] theorem writeIbuf_outLen (a : Nat) (b : Byte) : (s.writeIbuf a b).outLen = s.outLen := rfl
@[simp] theorem writeIbuf_ibufPtr (a : Nat) (b : Byte) : (s.writeIbuf a b).ibufPtr = s.ibufPtr := rfl
@[simp] theorem writeIbuf_obufPtr (a : Nat) (b : Byte) : (s.writeIbuf a b).obufPtr = s.obufPtr := rfl
@[simp] theorem writeIbuf_arg0 (a : Nat) (b : Byte) : (s.writeIbuf a b).arg0 = s.arg0 := rfl
@[simp] theorem writeIbuf_arg1 (a : Nat) (b : Byte) : (s.writeIbuf a b).arg1 = s.arg1 := rfl
@[simp] theorem writeIbuf_arg2 (a : Nat) (b : Byte) : (s.writeIbuf a b).arg2 = s.arg2 := rfl
@[simp] theorem writeIbuf_arg3 (a : Nat) (b : Byte) : (s.writeIbuf a b).arg3 = s.arg3 := rfl
@[simp] theorem writeIbuf_count0 (a : Nat) (b : Byte) : (s.writeIbuf a b).count0 = s.count0 := rfl
@[simp] theorem writeIbuf_count1 (a : Nat) (b : Byte) : (s.writeIbuf a b).count1 = s.count1 := rfl
@[simp] theorem writeIbuf_count2 (a : Nat) (b : Byte) : (s.writeIbuf a b).count2 = s.count2 := rfl
@[simp] theorem writeIbuf_count3 (a : Nat) (b : Byte) : (s.writeIbuf a b).count3 = s.count3 := rfl
@[simp] theorem writeIbuf_units (a : Nat) (b : Byte) : (s.writeIbuf a b).units = s.units := rfl
@[simp] theorem writeIbuf_ibuf (a : Nat) (b : Byte) : (s.writeIbuf a b).ibuf = s.ibuf.write a b := rfl
@[simp] theorem writeIbuf_obuf (a : Nat) (b : Byte) : (s.writeIbuf a b).obuf = s.obuf := rfl
@[simp] theorem writeIbuf_decoding (a : Nat) (b : Byte) : (s.writeIbuf a b).decoding = s.decoding := rfl
@[simp] theorem writeIbuf_running (a : Nat) (b : Byte) : (s.writeIbuf a b).running = s.running := rfl
@[simp] theorem writeIbuf_held (a : Nat) (b : Byte) : (s.writeIbuf a b).held = s.held := rfl
@[simp] theorem writeIbuf_inReset (a : Nat) (b : Byte) : (s.writeIbuf a b).inReset = s.inReset := rfl
@[simp] theorem writeIbuf_port (a : Nat) (b : Byte) : (s.writeIbuf a b).port = s.port := rfl
@[simp] theorem writeIbuf_answer (a : Nat) (b : Byte) : (s.writeIbuf a b).answer = s.answer := rfl
@[simp] theorem writeIbuf_draws (a : Nat) (b : Byte) : (s.writeIbuf a b).draws = s.draws := rfl
@[simp] theorem writeIbuf_count (a : Nat) (b : Byte) (k : Nat) : (s.writeIbuf a b).count k = s.count k := rfl
@[simp] theorem writeIbuf_arg (a : Nat) (b : Byte) (k : Nat) : (s.writeIbuf a b).arg k = s.arg k := rfl

/-! assertReset -/

@[simp] theorem assertReset_params : (s.assertReset).params = s.params := rfl
@[simp] theorem assertReset_err : (s.assertReset).err = s.err := rfl
@[simp] theorem assertReset_sticky : (s.assertReset).sticky = s.sticky := rfl
@[simp] theorem assertReset_errCode : (s.assertReset).errCode = s.errCode := rfl
@[simp] theorem assertReset_errDetail : (s.assertReset).errDetail = s.errDetail := rfl
@[simp] theorem assertReset_decState : (s.assertReset).decState = s.decState := rfl
@[simp] theorem assertReset_result : (s.assertReset).result = s.result := rfl
@[simp] theorem assertReset_outLen : (s.assertReset).outLen = s.outLen := rfl
@[simp] theorem assertReset_ibufPtr : (s.assertReset).ibufPtr = s.ibufPtr := rfl
@[simp] theorem assertReset_obufPtr : (s.assertReset).obufPtr = s.obufPtr := rfl
@[simp] theorem assertReset_arg0 : (s.assertReset).arg0 = s.arg0 := rfl
@[simp] theorem assertReset_arg1 : (s.assertReset).arg1 = s.arg1 := rfl
@[simp] theorem assertReset_arg2 : (s.assertReset).arg2 = s.arg2 := rfl
@[simp] theorem assertReset_arg3 : (s.assertReset).arg3 = s.arg3 := rfl
@[simp] theorem assertReset_count0 : (s.assertReset).count0 = s.count0 := rfl
@[simp] theorem assertReset_count1 : (s.assertReset).count1 = s.count1 := rfl
@[simp] theorem assertReset_count2 : (s.assertReset).count2 = s.count2 := rfl
@[simp] theorem assertReset_count3 : (s.assertReset).count3 = s.count3 := rfl
@[simp] theorem assertReset_units : (s.assertReset).units = s.units := rfl
@[simp] theorem assertReset_ibuf : (s.assertReset).ibuf = s.ibuf := rfl
@[simp] theorem assertReset_obuf : (s.assertReset).obuf = s.obuf := rfl
@[simp] theorem assertReset_decoding : (s.assertReset).decoding = none := rfl
@[simp] theorem assertReset_running : (s.assertReset).running = none := rfl
@[simp] theorem assertReset_held : (s.assertReset).held = none := rfl
@[simp] theorem assertReset_inReset : (s.assertReset).inReset = true := rfl
@[simp] theorem assertReset_port : (s.assertReset).port = s.port := rfl
@[simp] theorem assertReset_draws : (s.assertReset).draws = s.draws + 1 := rfl
@[simp] theorem assertReset_count (k : Nat) : (s.assertReset).count k = s.count k := rfl
@[simp] theorem assertReset_arg (k : Nat) : (s.assertReset).arg k = s.arg k := rfl

/-! writeObuf -/

@[simp] theorem writeObuf_params (o : Nat) (bs : List Byte) : (s.writeObuf o bs).params = s.params := rfl
@[simp] theorem writeObuf_err (o : Nat) (bs : List Byte) : (s.writeObuf o bs).err = s.err := rfl
@[simp] theorem writeObuf_sticky (o : Nat) (bs : List Byte) : (s.writeObuf o bs).sticky = s.sticky := rfl
@[simp] theorem writeObuf_errCode (o : Nat) (bs : List Byte) : (s.writeObuf o bs).errCode = s.errCode := rfl
@[simp] theorem writeObuf_errDetail (o : Nat) (bs : List Byte) : (s.writeObuf o bs).errDetail = s.errDetail := rfl
@[simp] theorem writeObuf_decState (o : Nat) (bs : List Byte) : (s.writeObuf o bs).decState = s.decState := rfl
@[simp] theorem writeObuf_result (o : Nat) (bs : List Byte) : (s.writeObuf o bs).result = s.result := rfl
@[simp] theorem writeObuf_outLen (o : Nat) (bs : List Byte) : (s.writeObuf o bs).outLen = s.outLen := rfl
@[simp] theorem writeObuf_ibufPtr (o : Nat) (bs : List Byte) : (s.writeObuf o bs).ibufPtr = s.ibufPtr := rfl
@[simp] theorem writeObuf_obufPtr (o : Nat) (bs : List Byte) : (s.writeObuf o bs).obufPtr = s.obufPtr := rfl
@[simp] theorem writeObuf_arg0 (o : Nat) (bs : List Byte) : (s.writeObuf o bs).arg0 = s.arg0 := rfl
@[simp] theorem writeObuf_arg1 (o : Nat) (bs : List Byte) : (s.writeObuf o bs).arg1 = s.arg1 := rfl
@[simp] theorem writeObuf_arg2 (o : Nat) (bs : List Byte) : (s.writeObuf o bs).arg2 = s.arg2 := rfl
@[simp] theorem writeObuf_arg3 (o : Nat) (bs : List Byte) : (s.writeObuf o bs).arg3 = s.arg3 := rfl
@[simp] theorem writeObuf_count0 (o : Nat) (bs : List Byte) : (s.writeObuf o bs).count0 = s.count0 := rfl
@[simp] theorem writeObuf_count1 (o : Nat) (bs : List Byte) : (s.writeObuf o bs).count1 = s.count1 := rfl
@[simp] theorem writeObuf_count2 (o : Nat) (bs : List Byte) : (s.writeObuf o bs).count2 = s.count2 := rfl
@[simp] theorem writeObuf_count3 (o : Nat) (bs : List Byte) : (s.writeObuf o bs).count3 = s.count3 := rfl
@[simp] theorem writeObuf_units (o : Nat) (bs : List Byte) : (s.writeObuf o bs).units = s.units := rfl
@[simp] theorem writeObuf_ibuf (o : Nat) (bs : List Byte) : (s.writeObuf o bs).ibuf = s.ibuf := rfl
@[simp] theorem writeObuf_obuf (o : Nat) (bs : List Byte) : (s.writeObuf o bs).obuf = s.obuf.writeBytes o bs := rfl
@[simp] theorem writeObuf_decoding (o : Nat) (bs : List Byte) : (s.writeObuf o bs).decoding = s.decoding := rfl
@[simp] theorem writeObuf_running (o : Nat) (bs : List Byte) : (s.writeObuf o bs).running = s.running := rfl
@[simp] theorem writeObuf_held (o : Nat) (bs : List Byte) : (s.writeObuf o bs).held = s.held := rfl
@[simp] theorem writeObuf_inReset (o : Nat) (bs : List Byte) : (s.writeObuf o bs).inReset = s.inReset := rfl
@[simp] theorem writeObuf_port (o : Nat) (bs : List Byte) : (s.writeObuf o bs).port = s.port := rfl
@[simp] theorem writeObuf_answer (o : Nat) (bs : List Byte) : (s.writeObuf o bs).answer = s.answer := rfl
@[simp] theorem writeObuf_draws (o : Nat) (bs : List Byte) : (s.writeObuf o bs).draws = s.draws := rfl
@[simp] theorem writeObuf_count (o : Nat) (bs : List Byte) (k : Nat) : (s.writeObuf o bs).count k = s.count k := rfl
@[simp] theorem writeObuf_arg (o : Nat) (bs : List Byte) (k : Nat) : (s.writeObuf o bs).arg k = s.arg k := rfl

/-! complete, ok -/

@[simp] theorem complete_ok_params : (Ended.ok s).complete.params = s.params := rfl
@[simp] theorem complete_ok_err : (Ended.ok s).complete.err = false := rfl
@[simp] theorem complete_ok_sticky : (Ended.ok s).complete.sticky = s.sticky := rfl
@[simp] theorem complete_ok_errCode : (Ended.ok s).complete.errCode = 0 := rfl
@[simp] theorem complete_ok_errDetail : (Ended.ok s).complete.errDetail = 0 := rfl
@[simp] theorem complete_ok_decState : (Ended.ok s).complete.decState = s.decState := rfl
@[simp] theorem complete_ok_result : (Ended.ok s).complete.result = s.result := rfl
@[simp] theorem complete_ok_outLen : (Ended.ok s).complete.outLen = s.outLen := rfl
@[simp] theorem complete_ok_ibufPtr : (Ended.ok s).complete.ibufPtr = s.ibufPtr := rfl
@[simp] theorem complete_ok_obufPtr : (Ended.ok s).complete.obufPtr = s.obufPtr := rfl
@[simp] theorem complete_ok_arg0 : (Ended.ok s).complete.arg0 = s.arg0 := rfl
@[simp] theorem complete_ok_arg1 : (Ended.ok s).complete.arg1 = s.arg1 := rfl
@[simp] theorem complete_ok_arg2 : (Ended.ok s).complete.arg2 = s.arg2 := rfl
@[simp] theorem complete_ok_arg3 : (Ended.ok s).complete.arg3 = s.arg3 := rfl
@[simp] theorem complete_ok_count0 : (Ended.ok s).complete.count0 = s.count0 := rfl
@[simp] theorem complete_ok_count1 : (Ended.ok s).complete.count1 = s.count1 := rfl
@[simp] theorem complete_ok_count2 : (Ended.ok s).complete.count2 = s.count2 := rfl
@[simp] theorem complete_ok_count3 : (Ended.ok s).complete.count3 = s.count3 := rfl
@[simp] theorem complete_ok_units : (Ended.ok s).complete.units = s.units := rfl
@[simp] theorem complete_ok_ibuf : (Ended.ok s).complete.ibuf = s.ibuf := rfl
@[simp] theorem complete_ok_obuf : (Ended.ok s).complete.obuf = s.obuf := rfl
@[simp] theorem complete_ok_decoding : (Ended.ok s).complete.decoding = s.decoding := rfl
@[simp] theorem complete_ok_running : (Ended.ok s).complete.running = none := rfl
@[simp] theorem complete_ok_held : (Ended.ok s).complete.held = s.held := rfl
@[simp] theorem complete_ok_inReset : (Ended.ok s).complete.inReset = s.inReset := rfl
@[simp] theorem complete_ok_port : (Ended.ok s).complete.port = s.port := rfl
@[simp] theorem complete_ok_answer : (Ended.ok s).complete.answer = s.answer := rfl
@[simp] theorem complete_ok_draws : (Ended.ok s).complete.draws = s.draws := rfl
@[simp] theorem complete_ok_count (k : Nat) : (Ended.ok s).complete.count k = s.count k := rfl
@[simp] theorem complete_ok_arg (k : Nat) : (Ended.ok s).complete.arg k = s.arg k := rfl

/-! complete, raised -/

@[simp] theorem complete_raised_params (e : CmdError) : (Ended.raised e s).complete.params = s.params := rfl
@[simp] theorem complete_raised_err (e : CmdError) : (Ended.raised e s).complete.err = true := rfl
@[simp] theorem complete_raised_sticky (e : CmdError) : (Ended.raised e s).complete.sticky = true := rfl
@[simp] theorem complete_raised_errCode (e : CmdError) : (Ended.raised e s).complete.errCode = e.code := rfl
@[simp] theorem complete_raised_errDetail (e : CmdError) : (Ended.raised e s).complete.errDetail = e.detail := rfl
@[simp] theorem complete_raised_decState (e : CmdError) : (Ended.raised e s).complete.decState = s.decState := rfl
@[simp] theorem complete_raised_result (e : CmdError) : (Ended.raised e s).complete.result = s.result := rfl
@[simp] theorem complete_raised_outLen (e : CmdError) : (Ended.raised e s).complete.outLen = s.outLen := rfl
@[simp] theorem complete_raised_ibufPtr (e : CmdError) : (Ended.raised e s).complete.ibufPtr = s.ibufPtr := rfl
@[simp] theorem complete_raised_obufPtr (e : CmdError) : (Ended.raised e s).complete.obufPtr = s.obufPtr := rfl
@[simp] theorem complete_raised_arg0 (e : CmdError) : (Ended.raised e s).complete.arg0 = s.arg0 := rfl
@[simp] theorem complete_raised_arg1 (e : CmdError) : (Ended.raised e s).complete.arg1 = s.arg1 := rfl
@[simp] theorem complete_raised_arg2 (e : CmdError) : (Ended.raised e s).complete.arg2 = s.arg2 := rfl
@[simp] theorem complete_raised_arg3 (e : CmdError) : (Ended.raised e s).complete.arg3 = s.arg3 := rfl
@[simp] theorem complete_raised_count0 (e : CmdError) : (Ended.raised e s).complete.count0 = s.count0 := rfl
@[simp] theorem complete_raised_count1 (e : CmdError) : (Ended.raised e s).complete.count1 = s.count1 := rfl
@[simp] theorem complete_raised_count2 (e : CmdError) : (Ended.raised e s).complete.count2 = s.count2 := rfl
@[simp] theorem complete_raised_count3 (e : CmdError) : (Ended.raised e s).complete.count3 = s.count3 := rfl
@[simp] theorem complete_raised_units (e : CmdError) : (Ended.raised e s).complete.units = s.units := rfl
@[simp] theorem complete_raised_ibuf (e : CmdError) : (Ended.raised e s).complete.ibuf = s.ibuf := rfl
@[simp] theorem complete_raised_obuf (e : CmdError) : (Ended.raised e s).complete.obuf = s.obuf := rfl
@[simp] theorem complete_raised_decoding (e : CmdError) : (Ended.raised e s).complete.decoding = s.decoding := rfl
@[simp] theorem complete_raised_running (e : CmdError) : (Ended.raised e s).complete.running = none := rfl
@[simp] theorem complete_raised_held (e : CmdError) : (Ended.raised e s).complete.held = s.held := rfl
@[simp] theorem complete_raised_inReset (e : CmdError) : (Ended.raised e s).complete.inReset = s.inReset := rfl
@[simp] theorem complete_raised_port (e : CmdError) : (Ended.raised e s).complete.port = s.port := rfl
@[simp] theorem complete_raised_answer (e : CmdError) : (Ended.raised e s).complete.answer = s.answer := rfl
@[simp] theorem complete_raised_draws (e : CmdError) : (Ended.raised e s).complete.draws = s.draws := rfl
@[simp] theorem complete_raised_count (e : CmdError) (k : Nat) : (Ended.raised e s).complete.count k = s.count k := rfl
@[simp] theorem complete_raised_arg (e : CmdError) (k : Nat) : (Ended.raised e s).complete.arg k = s.arg k := rfl

/-! setCount -/

@[simp] theorem setCount_params (k v : Nat) : (s.setCount k v).params = s.params := by unfold State.setCount; split <;> rfl
@[simp] theorem setCount_err (k v : Nat) : (s.setCount k v).err = s.err := by unfold State.setCount; split <;> rfl
@[simp] theorem setCount_sticky (k v : Nat) : (s.setCount k v).sticky = s.sticky := by unfold State.setCount; split <;> rfl
@[simp] theorem setCount_errCode (k v : Nat) : (s.setCount k v).errCode = s.errCode := by unfold State.setCount; split <;> rfl
@[simp] theorem setCount_errDetail (k v : Nat) : (s.setCount k v).errDetail = s.errDetail := by unfold State.setCount; split <;> rfl
@[simp] theorem setCount_decState (k v : Nat) : (s.setCount k v).decState = s.decState := by unfold State.setCount; split <;> rfl
@[simp] theorem setCount_result (k v : Nat) : (s.setCount k v).result = s.result := by unfold State.setCount; split <;> rfl
@[simp] theorem setCount_outLen (k v : Nat) : (s.setCount k v).outLen = s.outLen := by unfold State.setCount; split <;> rfl
@[simp] theorem setCount_ibufPtr (k v : Nat) : (s.setCount k v).ibufPtr = s.ibufPtr := by unfold State.setCount; split <;> rfl
@[simp] theorem setCount_obufPtr (k v : Nat) : (s.setCount k v).obufPtr = s.obufPtr := by unfold State.setCount; split <;> rfl
@[simp] theorem setCount_arg0 (k v : Nat) : (s.setCount k v).arg0 = s.arg0 := by unfold State.setCount; split <;> rfl
@[simp] theorem setCount_arg1 (k v : Nat) : (s.setCount k v).arg1 = s.arg1 := by unfold State.setCount; split <;> rfl
@[simp] theorem setCount_arg2 (k v : Nat) : (s.setCount k v).arg2 = s.arg2 := by unfold State.setCount; split <;> rfl
@[simp] theorem setCount_arg3 (k v : Nat) : (s.setCount k v).arg3 = s.arg3 := by unfold State.setCount; split <;> rfl
@[simp] theorem setCount_units (k v : Nat) : (s.setCount k v).units = s.units := by unfold State.setCount; split <;> rfl
@[simp] theorem setCount_ibuf (k v : Nat) : (s.setCount k v).ibuf = s.ibuf := by unfold State.setCount; split <;> rfl
@[simp] theorem setCount_obuf (k v : Nat) : (s.setCount k v).obuf = s.obuf := by unfold State.setCount; split <;> rfl
@[simp] theorem setCount_decoding (k v : Nat) : (s.setCount k v).decoding = s.decoding := by unfold State.setCount; split <;> rfl
@[simp] theorem setCount_running (k v : Nat) : (s.setCount k v).running = s.running := by unfold State.setCount; split <;> rfl
@[simp] theorem setCount_held (k v : Nat) : (s.setCount k v).held = s.held := by unfold State.setCount; split <;> rfl
@[simp] theorem setCount_inReset (k v : Nat) : (s.setCount k v).inReset = s.inReset := by unfold State.setCount; split <;> rfl
@[simp] theorem setCount_port (k v : Nat) : (s.setCount k v).port = s.port := by unfold State.setCount; split <;> rfl
@[simp] theorem setCount_answer (k v : Nat) : (s.setCount k v).answer = s.answer := by unfold State.setCount; split <;> rfl
@[simp] theorem setCount_draws (k v : Nat) : (s.setCount k v).draws = s.draws := by unfold State.setCount; split <;> rfl
@[simp] theorem setCount_arg (k v j : Nat) : (s.setCount k v).arg j = s.arg j := by unfold State.setCount; split <;> rfl

/-- A counter just written holds the value reduced modulo 2^24 (42_security_counter.md R143). -/
@[simp] theorem setCount_count_same (k v : Nat) : (s.setCount k v).count k = BitVec.ofNat 32 (v % 2 ^ 24) := by
  rcases k with _ | _ | _ | k <;> rfl

/-- A write to one counter leaves every other alone (R158). -/
theorem setCount_count_other (k v : Nat) {j : Nat} (hk : k < 4) (hj : j < 4) (h : j ≠ k) :
    (s.setCount k v).count j = s.count j := by
  interval_cases k <;> interval_cases j <;> first | rfl | exact absurd rfl h

/-! setArg -/

@[simp] theorem setArg_params (k : Nat) (w : Word) : (s.setArg k w).params = s.params := by unfold State.setArg; split <;> rfl
@[simp] theorem setArg_err (k : Nat) (w : Word) : (s.setArg k w).err = s.err := by unfold State.setArg; split <;> rfl
@[simp] theorem setArg_sticky (k : Nat) (w : Word) : (s.setArg k w).sticky = s.sticky := by unfold State.setArg; split <;> rfl
@[simp] theorem setArg_errCode (k : Nat) (w : Word) : (s.setArg k w).errCode = s.errCode := by unfold State.setArg; split <;> rfl
@[simp] theorem setArg_errDetail (k : Nat) (w : Word) : (s.setArg k w).errDetail = s.errDetail := by unfold State.setArg; split <;> rfl
@[simp] theorem setArg_decState (k : Nat) (w : Word) : (s.setArg k w).decState = s.decState := by unfold State.setArg; split <;> rfl
@[simp] theorem setArg_result (k : Nat) (w : Word) : (s.setArg k w).result = s.result := by unfold State.setArg; split <;> rfl
@[simp] theorem setArg_outLen (k : Nat) (w : Word) : (s.setArg k w).outLen = s.outLen := by unfold State.setArg; split <;> rfl
@[simp] theorem setArg_ibufPtr (k : Nat) (w : Word) : (s.setArg k w).ibufPtr = s.ibufPtr := by unfold State.setArg; split <;> rfl
@[simp] theorem setArg_obufPtr (k : Nat) (w : Word) : (s.setArg k w).obufPtr = s.obufPtr := by unfold State.setArg; split <;> rfl
@[simp] theorem setArg_count0 (k : Nat) (w : Word) : (s.setArg k w).count0 = s.count0 := by unfold State.setArg; split <;> rfl
@[simp] theorem setArg_count1 (k : Nat) (w : Word) : (s.setArg k w).count1 = s.count1 := by unfold State.setArg; split <;> rfl
@[simp] theorem setArg_count2 (k : Nat) (w : Word) : (s.setArg k w).count2 = s.count2 := by unfold State.setArg; split <;> rfl
@[simp] theorem setArg_count3 (k : Nat) (w : Word) : (s.setArg k w).count3 = s.count3 := by unfold State.setArg; split <;> rfl
@[simp] theorem setArg_units (k : Nat) (w : Word) : (s.setArg k w).units = s.units := by unfold State.setArg; split <;> rfl
@[simp] theorem setArg_ibuf (k : Nat) (w : Word) : (s.setArg k w).ibuf = s.ibuf := by unfold State.setArg; split <;> rfl
@[simp] theorem setArg_obuf (k : Nat) (w : Word) : (s.setArg k w).obuf = s.obuf := by unfold State.setArg; split <;> rfl
@[simp] theorem setArg_decoding (k : Nat) (w : Word) : (s.setArg k w).decoding = s.decoding := by unfold State.setArg; split <;> rfl
@[simp] theorem setArg_running (k : Nat) (w : Word) : (s.setArg k w).running = s.running := by unfold State.setArg; split <;> rfl
@[simp] theorem setArg_held (k : Nat) (w : Word) : (s.setArg k w).held = s.held := by unfold State.setArg; split <;> rfl
@[simp] theorem setArg_inReset (k : Nat) (w : Word) : (s.setArg k w).inReset = s.inReset := by unfold State.setArg; split <;> rfl
@[simp] theorem setArg_port (k : Nat) (w : Word) : (s.setArg k w).port = s.port := by unfold State.setArg; split <;> rfl
@[simp] theorem setArg_answer (k : Nat) (w : Word) : (s.setArg k w).answer = s.answer := by unfold State.setArg; split <;> rfl
@[simp] theorem setArg_draws (k : Nat) (w : Word) : (s.setArg k w).draws = s.draws := by unfold State.setArg; split <;> rfl
@[simp] theorem setArg_count (k : Nat) (w : Word) (j : Nat) : (s.setArg k w).count j = s.count j := by
  unfold State.setArg; split <;> rfl

/-- An operand register just written reads back (10_state.md R32). -/
@[simp] theorem setArg_arg_same (k : Nat) (w : Word) : (s.setArg k w).arg k = w := by
  rcases k with _ | _ | _ | k <;> rfl

/-- A write to one operand register leaves every other alone. -/
theorem setArg_arg_other (k : Nat) (w : Word) {j : Nat} (hk : k < 4) (hj : j < 4) (h : j ≠ k) :
    (s.setArg k w).arg j = s.arg j := by
  interval_cases k <;> interval_cases j <;> first | rfl | exact absurd rfl h

end fields

end Sys2Proof.Machine
end

