-- ==== Sys2Proof/Laws/Ops.lean ====
section
/-! SUPPORT. What each shared operation can do, said once: append, an operand's append, the counter check, one field write of ENCODE, one step of DECODE. -/

namespace Sys2Proof.Machine

/-- `append` raises CapacityError on a full list and leaves it, or adds the unit at the end (10_state.md R38). -/
theorem append_cases (u : ContainerUnit) (s : State) :
    (s.units.length = s.params.maxUnits ∧ s.append u = .raised .capacity s)
      ∨ (s.units.length ≠ s.params.maxUnits ∧ s.append u = .ok (s.setUnits (s.units ++ [u]))) := by
  unfold State.append
  split
  · next h => exact .inl ⟨h, rfl⟩
  · next h => exact .inr ⟨h, rfl⟩

/-- An append whose operand raised ends with the operand's error and changes nothing (41_tlv_builders.md R127). -/
@[simp] theorem appendOperand_error (id : BitVec 16) (e : CmdError) (s : State) :
    s.appendOperand id (.error e) = .raised e s := rfl

/-- An append whose operand was accepted is the append of its unit. -/
@[simp] theorem appendOperand_ok (id : BitVec 16) (c : List Byte) (s : State) :
    s.appendOperand id (.ok c) = s.append ⟨id, c⟩ := rfl

/-- A counter command fails its select check and changes nothing, or has its effect (30_encoding.md R87). -/
theorem withCounter_cases (sel : Nat) (s : State) (effect : State → State) :
    (s.params.numCounters ≤ sel ∧ s.withCounter sel effect = .raised (.command .badSelect) s)
      ∨ (sel < s.params.numCounters ∧ s.withCounter sel effect = .ok (effect s)) := by
  unfold State.withCounter
  split
  · next h => exact .inl ⟨h, rfl⟩
  · next h => exact .inr ⟨by omega, rfl⟩

/-- A field write passes the end of OBUF and ends ENCODE there, or is made and ENCODE goes on (40_tlv_codec.md
R105). -/
theorem put_cases (f : WireField) (bytes : List Byte) (o : Nat) (s : State) (k : Nat → State → Ended) :
    (s.params.obufSize < o + bytes.length ∧ s.put f bytes o k = .raised (.encoding f) (s.endEncode o))
      ∨ (o + bytes.length ≤ s.params.obufSize
        ∧ s.put f bytes o k = k (o + bytes.length) (s.writeObuf o bytes)) := by
  unfold State.put
  split
  · next h => exact .inl ⟨by omega, rfl⟩
  · next h => exact .inr ⟨by omega, rfl⟩

/-- The append of a decoded unit: it is made and the state machine goes on, or the list is full, DEC_STATE records the
state, and CapacityError is raised (R108). -/
theorem decodeAppend_cases (d next : DecodeState) (u : ContainerUnit) (s : State) :
    (s.units.length = s.params.maxUnits
        ∧ decodeAppend d next u s = .raised .capacity (s.endDecode d.st.code))
      ∨ (s.units.length ≠ s.params.maxUnits
        ∧ decodeAppend d next u s = .ok ((s.setUnits (s.units ++ [u])).setDecoding next)) := by
  unfold decodeAppend
  rcases append_cases u s with ⟨h, e⟩ | ⟨h, e⟩ <;> rw [e]
  · exact .inl ⟨h, rfl⟩
  · exact .inr ⟨h, rfl⟩

/-- The content bytes MemRead gives are as many as it was asked for. -/
@[simp] theorem ibufBytes_length (s : State) (a n : Nat) : (s.ibufBytes a n).length = n := by
  simp [State.ibufBytes]

/-- A written byte is what MemRead gives at its index. -/
theorem ibufByte_written {s : State} {a : Nat} {b : Byte} (h : s.ibuf.read a = some b) (j : Nat) :
    s.ibufByte a j = b := by
  simp [State.ibufByte, h]

/-- Where every byte has been written, MemRead gives those bytes. -/
theorem ibufBytes_written {s : State} {a : Nat} {bytes : List Byte}
    (h : ∀ j, j < bytes.length → s.ibuf.read (a + j) = bytes[j]?) : s.ibufBytes a bytes.length = bytes := by
  refine List.ext_getElem (by simp) fun j h1 h2 => ?_
  simp only [State.ibufBytes, List.getElem_map, List.getElem_range]
  exact ibufByte_written (by rw [h j h2]; exact List.getElem?_eq_getElem h2) j

/-- The reduced pointer is below the buffer's size (20_memory.md R59, R62). -/
theorem pointerOf_lt {size : Nat} (v : Nat) (h0 : 0 < size) (h : size ≤ 2 ^ 32) : (pointerOf v size).toNat < size := by
  have := Nat.mod_lt v h0
  simp only [pointerOf, BitVec.toNat_ofNat]
  rw [Nat.mod_eq_of_lt (by omega)]
  exact this

/-- The reduced pointer as a number. -/
theorem pointerOf_toNat {size : Nat} (v : Nat) (h0 : 0 < size) (h : size ≤ 2 ^ 32) :
    (pointerOf v size).toNat = v % size := by
  have := Nat.mod_lt v h0
  simp only [pointerOf, BitVec.toNat_ofNat]
  exact Nat.mod_eq_of_lt (by omega)

end Sys2Proof.Machine
end

