-- ==== Sys2Proof/Laws/Codec.lean ====
section
/-! SUPPORT. What ENCODE's writer and DECODE's state machine can do, said once, with the byte-order and byte-list facts their proofs use. -/

namespace Sys2Proof.Machine

/-- Two field writes one after the other are one write of the joined bytes. -/
theorem writeObuf_append (o : Nat) (a b : List Byte) (s : State) :
    (s.writeObuf o a).writeObuf (o + a.length) b = s.writeObuf o (a ++ b) := by
  simp [State.writeObuf, Memory.writeBytes_append]

/-- The two big-endian bytes of a value as numbers (20_memory.md R68). -/
theorem bytes16_eq (v : BitVec 16) :
    bytes16 v = [BitVec.ofNat 8 (v.toNat / 256), BitVec.ofNat 8 (v.toNat % 256)] := by
  simp only [bytes16, List.cons.injEq, and_true]
  constructor <;> apply BitVec.eq_of_toNat_eq
  · simp [Nat.shiftRight_eq_div_pow]
  · simp

/-- A value read back from its two big-endian bytes. -/
theorem be16_bytes (v : BitVec 16) :
    be16 (BitVec.ofNat 8 (v.toNat / 256)) (BitVec.ofNat 8 (v.toNat % 256)) = v := by
  apply BitVec.eq_of_toNat_eq
  have := v.isLt
  simp only [be16, BitVec.toNat_append, BitVec.toNat_ofNat]
  rw [← Nat.shiftLeft_add_eq_or_of_lt (by omega), Nat.shiftLeft_eq]
  omega

/-- The wire form of a unit as the three fields ENCODE writes (40_tlv_codec.md R101). -/
theorem wireUnit_fields (u : ContainerUnit) :
    wireUnit u = bytes16 u.id ++ [BitVec.ofNat 8 u.content.length] ++ u.content := by
  simp [wireUnit, bytes16_eq]

/-- A unit's wire form has 3 bytes and its content (R101). -/
@[simp] theorem wireUnit_length (u : ContainerUnit) : (wireUnit u).length = 3 + u.content.length := by
  simp [wireUnit]; omega

/-- The wire form of the list's units, one unit at a time. -/
@[simp] theorem wireUnits_cons (u : ContainerUnit) (us : List ContainerUnit) :
    wireUnits (u :: us) = wireUnit u ++ wireUnits us := by
  simp [wireUnits]

/-- The size of a list's wire form is the meta byte and its units' bytes (R102). -/
theorem wireSize_eq (us : List ContainerUnit) : wireSize us = 1 + (wireUnits us).length := by
  induction us with
  | nil => rfl
  | cons u us ih => simp [wireSize] at ih ⊢; omega

/-- Joined bytes are held where the first part is held and the second part after it. -/
theorem holds_append {m : Memory} {a : Nat} {xs ys : List Byte} :
    Holds m a (xs ++ ys) ↔ Holds m a xs ∧ Holds m (a + xs.length) ys := by
  constructor
  · intro h
    refine ⟨fun j hj => ?_, fun j hj => ?_⟩
    · rw [h j (by simp; omega), List.getElem?_append_left hj]
    · rw [Nat.add_assoc, h (xs.length + j) (by simp; omega), List.getElem?_append_right (by omega)]
      simp
  · rintro ⟨h1, h2⟩ j hj
    by_cases hh : j < xs.length
    · rw [h1 j hh, List.getElem?_append_left hh]
    · have := h2 (j - xs.length) (by simp at hj; omega)
      rw [List.getElem?_append_right (by omega), ← this]
      congr 1
      omega

/-- A first byte is held where it stands and the rest after it. -/
theorem holds_cons {m : Memory} {a : Nat} {x : Byte} {ys : List Byte} :
    Holds m a (x :: ys) ↔ m.read a = some x ∧ Holds m (a + 1) ys := by
  have := @holds_append m a [x] ys
  simp only [List.singleton_append, List.length_singleton] at this
  rw [this]
  simp [Holds]

/-- ENCODE's loop writes some bytes from its offset on, inside OBUF, and ends there: with success, or with an
EncodingError (R104, R105). -/
theorem encodeUnits_cases (us : List ContainerUnit) (o : Nat) (s : State) (ho : o ≤ s.params.obufSize) :
    ∃ bytes : List Byte, o + bytes.length ≤ s.params.obufSize
      ∧ (encodeUnits us o s = .ok ((s.writeObuf o bytes).endEncode (o + bytes.length))
        ∨ ∃ f, encodeUnits us o s = .raised (.encoding f) ((s.writeObuf o bytes).endEncode (o + bytes.length))) := by
  induction us generalizing o s with
  | nil => exact ⟨[], by simpa using ho, .inl (by simp [encodeUnits, State.writeObuf, Memory.writeBytes])⟩
  | cons u us ih =>
    -- a write that fits, followed by a part that writes some bytes, writes the joined bytes
    have after : ∀ (f : WireField) (bs : List Byte) (k : Nat → State → Ended) (p : Nat) (t : State),
        t.params = s.params → p ≤ s.params.obufSize →
        (∀ q r, r.params = s.params → q ≤ s.params.obufSize →
          ∃ bytes : List Byte, q + bytes.length ≤ s.params.obufSize
            ∧ (k q r = .ok ((r.writeObuf q bytes).endEncode (q + bytes.length))
              ∨ ∃ f, k q r = .raised (.encoding f) ((r.writeObuf q bytes).endEncode (q + bytes.length)))) →
        ∃ bytes : List Byte, p + bytes.length ≤ s.params.obufSize
          ∧ (t.put f bs p k = .ok ((t.writeObuf p bytes).endEncode (p + bytes.length))
            ∨ ∃ f', t.put f bs p k = .raised (.encoding f') ((t.writeObuf p bytes).endEncode (p + bytes.length))) := by
      intro f bs k p t ht hp hk
      rcases put_cases f bs p t k with ⟨_, e⟩ | ⟨h, e⟩ <;> rw [e]
      · exact ⟨[], by simpa using hp, .inr ⟨f, by simp [State.writeObuf, Memory.writeBytes]⟩⟩
      · obtain ⟨more, hm, hr⟩ := hk (p + bs.length) (t.writeObuf p bs) (by simpa using ht) (by rw [← ht]; exact h)
        refine ⟨bs ++ more, by simpa [Nat.add_assoc] using hm, ?_⟩
        rw [writeObuf_append] at hr
        simpa [Nat.add_assoc] using hr
    unfold encodeUnits
    refine after _ _ _ o s rfl ho fun q r hr hq => after _ _ _ q r hr hq fun q r hr hq => after _ _ _ q r hr hq
      fun q r hr hq => ?_
    simpa [hr] using ih q r (by rw [hr]; exact hq)

/-- The decode states the loop runs: never DONE, and never content of length 0 (R111, R113). -/
def DecodeSt.runs : DecodeSt → Prop
  | .readingContent _ clen => clen ≠ 0
  | .done => False
  | _ => True

/-- A step that raises ends the loop with its error. -/
theorem decodeLoop_raised {s t : State} {e : CmdError} (fuel : Nat) (h : decodeStep s = .raised e t) :
    decodeLoop (fuel + 1) s = .raised e t := by
  simp [decodeLoop, h]

/-- A step that does not raise is followed by the exit test (R113). -/
theorem decodeLoop_ok {s t : State} (fuel : Nat) (h : decodeStep s = .ok t) :
    decodeLoop (fuel + 1) s =
      if t.decodeFinished then .ok (t.endDecode DecodeSt.done.code) else decodeLoop fuel t := by
  simp [decodeLoop, h]

/-- The DEC_STATE value of a DECODE error is a state's code below DONE (R115). -/
theorem DecodeErrorAt.bounds {e : CmdError} {c : BitVec 3} (h : DecodeErrorAt e c) : 1 ≤ c.toNat ∧ c.toNat ≤ 4 := by
  rcases h with ⟨f, _, h⟩ | ⟨_, rfl | rfl⟩
  · rw [h]; cases f <;> decide
  · decide
  · decide

/-- One step of the state machine (R109-R112) raises TruncatedInputError or CapacityError with DEC_STATE the state's
code, or consumes at least one byte, goes on to a state that runs, and has appended at most one unit. -/
theorem decodeStep_cases (s : State) (d : DecodeState) (hd : s.decoding = some d) (hr : d.st.runs) :
    (∃ e n, decodeStep s = .raised e ((s.drawn n).endDecode d.st.code) ∧ DecodeErrorAt e d.st.code)
      ∨ ∃ us n d', decodeStep s = .ok (((s.drawn n).setUnits (s.units ++ us)).setDecoding d')
        ∧ d'.st.runs ∧ d'.rem < d.rem ∧ ContentsFit us ∧ us.length ≤ 1
        ∧ (us = [] ∨ s.units.length ≠ s.params.maxUnits) := by
  obtain ⟨st, cur, rem⟩ := d
  have noDraw : ∀ t : State, t = t.drawn 0 := fun _ => rfl
  have fail : ∀ f, decodeFail ⟨st, cur, rem⟩ f s = .raised (.truncatedInput f) ((s.drawn 0).endDecode st.code) :=
    fun _ => rfl
  have noUnit : ∀ n d', .ok ((s.drawn n).setDecoding d')
      = Ended.ok (((s.drawn n).setUnits (s.units ++ [])).setDecoding d') := by
    intro n d'; simp [State.setUnits, State.drawn]
  have nil : ContentsFit [] := by intro u h; simp at h
  cases st with
  | done => exact absurd hr id
  | metaByte =>
    simp only [decodeStep, hd, decodeMeta]
    split
    · exact .inl ⟨_, 0, fail _, .inl ⟨_, rfl, rfl⟩⟩
    · exact .inr ⟨[], 1, _, noUnit _ _, trivial, by simp only; omega, nil, by simp, .inl rfl⟩
  | readingId =>
    simp only [decodeStep, hd, decodeId]
    split
    · exact .inl ⟨_, 0, fail _, .inl ⟨_, rfl, rfl⟩⟩
    · exact .inr ⟨[], 2, _, noUnit _ _, trivial, by simp only; omega, nil, by simp, .inl rfl⟩
  | readingLength cid =>
    simp only [decodeStep, hd, decodeLength]
    split
    · exact .inl ⟨_, 0, fail _, .inl ⟨_, rfl, rfl⟩⟩
    · split
      · rcases decodeAppend_cases ⟨.readingLength cid, cur, rem⟩ ⟨.readingId, cur + 1, rem - 1⟩ ⟨cid, []⟩ (s.drawn 1)
          with ⟨_, e⟩ | ⟨h, e⟩ <;> rw [e]
        · exact .inl ⟨_, 1, rfl, .inr ⟨rfl, .inl rfl⟩⟩
        · refine .inr ⟨[⟨cid, []⟩], 1, _, rfl, trivial, by simp only; omega, ?_, by simp, .inr (by simpa using h)⟩
          intro u hu; rw [List.mem_singleton.1 hu]; simp
      · next hl => exact .inr ⟨[], 1, _, noUnit _ _, hl, by simp only; omega, nil, by simp, .inl rfl⟩
  | readingContent cid clen =>
    have pos : 0 < clen.toNat := by
      rcases Nat.eq_zero_or_pos clen.toNat with h | h
      · exact absurd (BitVec.eq_of_toNat_eq (by simpa using h)) hr
      · exact h
    simp only [decodeStep, hd, decodeContent]
    split
    · exact .inl ⟨_, 0, fail _, .inl ⟨_, rfl, rfl⟩⟩
    · rcases decodeAppend_cases ⟨.readingContent cid clen, cur, rem⟩
        ⟨.readingId, cur + clen.toNat, rem - clen.toNat⟩ ⟨cid, s.ibufBytes cur clen.toNat⟩ (s.drawn clen.toNat)
        with ⟨_, e⟩ | ⟨h, e⟩ <;> rw [e]
      · exact .inl ⟨_, clen.toNat, rfl, .inr ⟨rfl, .inr rfl⟩⟩
      · refine .inr ⟨[⟨cid, s.ibufBytes cur clen.toNat⟩], clen.toNat, _, rfl, trivial, by simp only; omega, ?_, by simp,
          .inr (by simpa using h)⟩
        intro u hu
        rw [List.mem_singleton.1 hu]
        have := clen.isLt
        simp only [ibufBytes_length]
        omega

/-- Where the fuel exceeds the bytes remaining, the loop ends: DONE, or an error with the failing state's code; it has
appended units whose contents fit, never past MAX_UNITS, and changed nothing else but the draw counter (R107-R116). -/
theorem decodeLoop_cases (fuel : Nat) (s : State) (d : DecodeState) (hd : s.decoding = some d) (hr : d.st.runs)
    (hf : d.rem < fuel) :
    ∃ us n c, ContentsFit us
      ∧ (s.units.length ≤ s.params.maxUnits → (s.units ++ us).length ≤ s.params.maxUnits)
      ∧ (decodeLoop fuel s = .ok (((s.drawn n).setUnits (s.units ++ us)).endDecode 5)
        ∨ ∃ e, decodeLoop fuel s = .raised e (((s.drawn n).setUnits (s.units ++ us)).endDecode c)
          ∧ DecodeErrorAt e c) := by
  induction fuel generalizing s d with
  | zero => omega
  | succ fuel ih =>
    rcases decodeStep_cases s d hd hr with ⟨e, n, h, he⟩ | ⟨us, n, d', h, hr', hlt, hfit, hone, hroom⟩
    · refine ⟨[], n, d.st.code, by intro u hu; simp at hu, by simp, .inr ⟨e, ?_, he⟩⟩
      rw [decodeLoop_raised _ h]
      simp [State.setUnits, State.drawn]
    · rw [decodeLoop_ok _ h]
      have room : s.units.length ≤ s.params.maxUnits → (s.units ++ us).length ≤ s.params.maxUnits := by
        intro hle
        rcases hroom with rfl | hne
        · simpa using hle
        · simp only [List.length_append]; omega
      split
      · exact ⟨us, n, 0, hfit, room, .inl rfl⟩
      · obtain ⟨vs, m, c, hfit', room', hend⟩ := ih (((s.drawn n).setUnits (s.units ++ us)).setDecoding d') d' (by simp) hr'
          (by omega)
        refine ⟨us ++ vs, n + m, c, ?_, ?_, ?_⟩
        · intro u hu
          rcases List.mem_append.1 hu with hu | hu
          · exact hfit u hu
          · exact hfit' u hu
        · intro hle; simpa using room' (by simpa using room hle)
        · have same : ∀ c, State.endDecode c (((((s.drawn n).setUnits (s.units ++ us)).setDecoding d').drawn m).setUnits
              ((((s.drawn n).setUnits (s.units ++ us)).setDecoding d').units ++ vs))
              = State.endDecode c ((s.drawn (n + m)).setUnits (s.units ++ (us ++ vs))) := by
            intro c; simp [State.endDecode, State.setUnits, State.drawn, State.setDecoding, Nat.add_assoc]
          simpa only [same] using hend

end Sys2Proof.Machine
end

