-- ==== Sys2Proof/Laws/Decode.lean ====
section
/-! SUPPORT. Command words as numbers: the reserved-bit check of each format as an equation on the word's fields, and the value of an assembled word. -/

namespace Sys2Proof

/-- A number has no bit in common with a block of `k` bits from bit `j` exactly when its field there is 0. -/
theorem and_block_eq_zero (x k j : Nat) : x &&& ((2 ^ k - 1) * 2 ^ j) = 0 ↔ x / 2 ^ j % 2 ^ k = 0 := by
  have field : x / 2 ^ j % 2 ^ k = (x >>> j) &&& (2 ^ k - 1) := by
    rw [Nat.and_two_pow_sub_one_eq_mod, Nat.shiftRight_eq_div_pow]
  have shifted : x &&& ((2 ^ k - 1) * 2 ^ j) = ((x >>> j) &&& (2 ^ k - 1)) <<< j := by
    rw [← Nat.shiftLeft_eq]
    refine Nat.eq_of_testBit_eq fun i => ?_
    by_cases hi : j ≤ i
    · simp [Nat.testBit_shiftLeft, Nat.testBit_shiftRight, hi, Bool.and_comm]
    · simp [Nat.testBit_shiftLeft, hi]
  rw [shifted, field]
  simp

/-- A word has no bit in common with a mask of `k` ones from bit `j` exactly when its field there is 0. -/
theorem word_and_block (w m : Word) (k j : Nat) (hm : m.toNat = (2 ^ k - 1) * 2 ^ j) :
    w &&& m = 0 ↔ w.toNat / 2 ^ j % 2 ^ k = 0 := by
  rw [← and_block_eq_zero, ← hm, ← BitVec.toNat_and, ← BitVec.toNat_inj]
  simp

/-- Check 2 of the envelope, format by format: the reserved bits are 0 exactly when these fields are (30_encoding.md
R86, R89). -/
theorem reserved_zero_iff (w : Word) (f : Format) : w &&& f.reservedMask = 0 ↔
    match f with
    | .n => w.toNat % 2 ^ 26 = 0
    | .d => w.toNat / 2 ^ 16 % 2 ^ 10 = 0
    | .u => w.toNat / 2 ^ 24 % 2 ^ 2 = 0
    | .a => w.toNat / 2 ^ 5 % 2 ^ 21 = 0
    | .m => w.toNat / 2 ^ 16 % 2 ^ 10 = 0
    | .i => w.toNat / 2 ^ 24 % 2 ^ 2 = 0 ∧ w.toNat % 2 ^ 8 = 0
    | .ib => w.toNat / 2 ^ 24 % 2 ^ 2 = 0
    | .c => w.toNat % 2 ^ 24 = 0
    | .cs => True
    | .co => w.toNat % 2 ^ 8 = 0
    | .cq => w.toNat / 2 ^ 8 % 2 ^ 16 = 0 := by
  cases f
  case n => simpa using word_and_block w _ 26 0 (by decide)
  case d => exact word_and_block w _ 10 16 (by decide)
  case u => exact word_and_block w _ 2 24 (by decide)
  case a => exact word_and_block w _ 21 5 (by decide)
  case m => exact word_and_block w _ 10 16 (by decide)
  case i =>
    have split : w &&& Format.i.reservedMask = w &&& 0x03000000 ||| w &&& 0x000000FF := by
      rw [← BitVec.and_or_distrib_left]; rfl
    have both : ∀ a b : Word, a ||| b = 0 ↔ a = 0 ∧ b = 0 := by intro a b; simp
    have low := word_and_block w 0x000000FF 8 0 (by decide)
    rw [split, both, word_and_block w 0x03000000 2 24 (by decide), low]
    simp
  case ib => exact word_and_block w _ 2 24 (by decide)
  case c => simpa using word_and_block w _ 24 0 (by decide)
  case cs => simp [Format.reservedMask]
  case co => simpa using word_and_block w _ 8 0 (by decide)
  case cq => exact word_and_block w _ 16 8 (by decide)

/-- A word of a row of the opcode map with no reserved bit set decodes to the row's command. -/
theorem decode_of_row {w : Word} {f : Format} {i : Instr} (row : opcodeRow (bits w 31 26) w = some (f, i))
    (free : w &&& f.reservedMask = 0) : decode w = .ok i := by
  simp [decode, row, free]

/-- The three ends of the decoder, each with what the word is like (R92). -/
theorem decode_cases (w : Word) :
    (opcodeRow (bits w 31 26) w = none ∧ decode w = .error .badOpcode)
      ∨ (∃ f i, opcodeRow (bits w 31 26) w = some (f, i)
        ∧ (w &&& f.reservedMask = 0 ∧ decode w = .ok i
          ∨ w &&& f.reservedMask ≠ 0 ∧ decode w = .error .reservedNonzero)) := by
  unfold decode
  rcases opcodeRow (bits w 31 26) w with _ | ⟨f, i⟩
  · exact .inl ⟨rfl, rfl⟩
  · refine .inr ⟨f, i, rfl, ?_⟩
    by_cases h : w &&& f.reservedMask = 0
    · exact .inl ⟨h, if_pos h⟩
    · exact .inr ⟨h, if_neg h⟩

/-- A low field below 2^8 or-ed onto a field shifted by 8 is added to it. -/
theorem shift8_or {a b : Nat} (h : b < 256) : a <<< 8 ||| b = a * 256 + b := by
  rw [← Nat.shiftLeft_add_eq_or_of_lt (i := 8) h, Nat.shiftLeft_eq]

/-- The assembled word as a number, where OP, SEL and IMM fit their fields (R83). -/
theorem commandWord_toNat {op sel imm : Nat} (hop : op < 64) (hsel : sel < 4) (himm : imm < 2 ^ 24) :
    (commandWord op sel imm).toNat = op * 2 ^ 26 + sel * 2 ^ 24 + imm := by
  have low : sel <<< 24 ||| imm = sel * 2 ^ 24 + imm := by
    rw [← Nat.shiftLeft_add_eq_or_of_lt himm, Nat.shiftLeft_eq]
  unfold commandWord
  rw [BitVec.toNat_ofNat, Nat.or_assoc, low, ← Nat.shiftLeft_add_eq_or_of_lt (by omega), Nat.shiftLeft_eq,
    Nat.mod_eq_of_lt (by omega)]
  omega

end Sys2Proof
end

