-- ==== Sys2Proof/Laws/Engine.lean ====
section
/-! SUPPORT. What a step can be, said once: which event is taken, and what a selected access performs. -/

namespace Sys2Proof.Machine

/-- An address in the window selects the block (20_memory.md R53). -/
theorem selects_of {p : Params} {addr : Nat} (low : p.baseAddr ≤ addr) (high : addr ≤ p.baseAddr + 0xFF) :
    selects p addr = true := by
  simp [selects, low, high]

/-- A selected read answers its register and has that register's read effect. -/
theorem perform_read {s : State} {addr : Nat} (h : selects s.params addr = true) :
    s.perform (.read addr)
      = (s.afterRead (regAt s.params addr)).setAnswer (some (s.readWord (regAt s.params addr))) := by
  simp [State.perform, h]

/-- A selected write writes its register. -/
theorem perform_write {s : State} {addr : Nat} {w : Word} (h : selects s.params addr = true) :
    s.perform (.write addr w) = s.writeReg (regAt s.params addr) w := by
  simp [State.perform, h]

/-- The step of a block in reset. -/
theorem step_in_reset {s : State} (h : s.inReset = true) : step s = .next (resetTurn s) := by
  simp [step, turn, h]

/-- The step of a block whose command `w` runs. -/
theorem step_running {s : State} {w : Word} (h : s.inReset = false) (hw : s.running = some w) :
    step s = busyTurn w s := by
  simp [step, turn, h, hw]

/-- However a running word comes to complete, the step is the command's end, from the state it completes from. -/
theorem step_completesFrom {w : Word} {s u : State} (h : CompletesFrom w s u) : step s = runCommand w u := by
  obtain ⟨hr, hw, ⟨hp, rfl⟩ | ⟨rest, hp, rfl⟩ | ⟨a, b, rest, hp, ha, hh, rfl⟩⟩ := h <;> rw [step_running hr hw]
  · simp [busyTurn, hp]
  · simp [busyTurn, hp, State.setPort]
  · simp [busyTurn, hp, ha, hh]

/-- The step of a block that runs no command. -/
theorem step_not_running {s : State} (h : s.inReset = false) (hw : s.running = none) :
    step s = .next (idleTurn s) := by
  simp [step, turn, h, hw]

/-- An idle block performs the access that arrives. -/
theorem step_access {s : State} (h : Idle s) {a : Access} {rest : List PortEvent} (hp : s.port = .access a :: rest) :
    step s = .next ((s.setPort rest).perform a) := by
  rw [step_not_running h.1 h.2.1]
  simp [idleTurn, h.2.2, hp]

/-- The running word of a decoded command runs that command. -/
theorem runCommand_decoded {w : Word} {i : Instr} (h : decode w = .ok i) (s : State) : runCommand w s = exec i s := by
  simp [runCommand, h]

/-- The running word that does not decode ends with its CommandError (30_encoding.md R85, R86). -/
theorem runCommand_illegal {w : Word} {e : DecodeError} (h : decode w = .error e) (s : State) :
    runCommand w s = .next (Ended.raised (.command (CommandFault.ofDecode e)) s).complete := by
  simp [runCommand, h]

end Sys2Proof.Machine
end

