-- ==== Sys2Proof/Laws/PerInstr.lean ====
section
/-! SUPPORT. One lemma per command: the encoded word is the sum of its OP, SEL and IMM fields (30_encoding.md R83, R89, R90). -/

namespace Sys2Proof.Laws

/-- OP, SEL and IMM of a command as numbers (R83, R89, R90). -/
def fieldsOf : Instr → Nat × Nat × Nat
  | .clear => (0x01, 0, 0)
  | .encode => (0x02, 0, 0)
  | .decode n => (0x03, 0, n)
  | .addUnit id len => (0x04, 0, id * 256 + len)
  | .addDns4Req => (0x05, 0, 0)
  | .addDns6Req => (0x06, 0, 0)
  | .addIpalloc => (0x07, 0, 0)
  | .addDns4Addr alen => (0x08, 0, alen)
  | .addPcscf4Addr alen => (0x09, 0, alen)
  | .addDns6Addr alen => (0x0A, 0, alen)
  | .addMtu mtu => (0x0B, 0, mtu)
  | .getUnit idx => (0x0C, 0, idx * 256)
  | .getByte idx bidx => (0x0D, 0, idx * 256 + bidx)
  | .cntRead sel => (0x10, sel, 0)
  | .cntGetOvf sel => (0x11, sel, 0)
  | .cntGetSqn sel => (0x12, sel, 0)
  | .cntSet sel ovf sqn => (0x13, sel, ovf * 256 + sqn)
  | .cntSetOvf sel ovf => (0x14, sel, ovf * 256)
  | .cntSetSqn sel sqn => (0x15, sel, sqn)
  | .cntInc sel => (0x16, sel, 0)
  | .timerEnc => (0x20, 0, 0)

/-- The word of a well-formed command is the sum of its fields at their places. -/
def EncodedFields.Statement (i : Instr) : Prop :=
  i.wellFormed = true →
    (encode i).toNat = (fieldsOf i).1 * 2 ^ 26 + (fieldsOf i).2.1 * 2 ^ 24 + (fieldsOf i).2.2

namespace EncodedFields

theorem clear : Statement .clear := fun _ => by decide

theorem encode : Statement .encode := fun _ => by decide

theorem decode (n : Nat) : Statement (.decode n) := fun h => by
  simp only [Instr.wellFormed, fits16, decide_eq_true_eq] at h
  rw [Sys2Proof.encode, commandWord_toNat (by omega) (by omega) (by omega)]
  rfl

theorem addUnit (id len : Nat) : Statement (.addUnit id len) := fun h => by
  simp only [Instr.wellFormed, fits16, fits8, Bool.and_eq_true, decide_eq_true_eq] at h
  rw [Sys2Proof.encode, shift8_or (by omega), commandWord_toNat (by omega) (by omega) (by omega)]
  rfl

theorem addDns4Req : Statement .addDns4Req := fun _ => by decide

theorem addDns6Req : Statement .addDns6Req := fun _ => by decide

theorem addIpalloc : Statement .addIpalloc := fun _ => by decide

theorem addDns4Addr (alen : Nat) : Statement (.addDns4Addr alen) := fun h => by
  simp only [Instr.wellFormed, fitsAlen, decide_eq_true_eq] at h
  rw [Sys2Proof.encode, commandWord_toNat (by omega) (by omega) (by omega)]
  rfl

theorem addPcscf4Addr (alen : Nat) : Statement (.addPcscf4Addr alen) := fun h => by
  simp only [Instr.wellFormed, fitsAlen, decide_eq_true_eq] at h
  rw [Sys2Proof.encode, commandWord_toNat (by omega) (by omega) (by omega)]
  rfl

theorem addDns6Addr (alen : Nat) : Statement (.addDns6Addr alen) := fun h => by
  simp only [Instr.wellFormed, fitsAlen, decide_eq_true_eq] at h
  rw [Sys2Proof.encode, commandWord_toNat (by omega) (by omega) (by omega)]
  rfl

theorem addMtu (mtu : Nat) : Statement (.addMtu mtu) := fun h => by
  simp only [Instr.wellFormed, fits16, decide_eq_true_eq] at h
  rw [Sys2Proof.encode, commandWord_toNat (by omega) (by omega) (by omega)]
  rfl

theorem getUnit (idx : Nat) : Statement (.getUnit idx) := fun h => by
  simp only [Instr.wellFormed, fits16, decide_eq_true_eq] at h
  rw [Sys2Proof.encode, Nat.shiftLeft_eq, commandWord_toNat (by omega) (by omega) (by omega)]
  rfl

theorem getByte (idx bidx : Nat) : Statement (.getByte idx bidx) := fun h => by
  simp only [Instr.wellFormed, fits16, fits8, Bool.and_eq_true, decide_eq_true_eq] at h
  rw [Sys2Proof.encode, shift8_or (by omega), commandWord_toNat (by omega) (by omega) (by omega)]
  rfl

theorem cntRead (sel : Nat) : Statement (.cntRead sel) := fun h => by
  simp only [Instr.wellFormed, fitsSel, decide_eq_true_eq] at h
  rw [Sys2Proof.encode, commandWord_toNat (by omega) (by omega) (by omega)]
  rfl

theorem cntGetOvf (sel : Nat) : Statement (.cntGetOvf sel) := fun h => by
  simp only [Instr.wellFormed, fitsSel, decide_eq_true_eq] at h
  rw [Sys2Proof.encode, commandWord_toNat (by omega) (by omega) (by omega)]
  rfl

theorem cntGetSqn (sel : Nat) : Statement (.cntGetSqn sel) := fun h => by
  simp only [Instr.wellFormed, fitsSel, decide_eq_true_eq] at h
  rw [Sys2Proof.encode, commandWord_toNat (by omega) (by omega) (by omega)]
  rfl

theorem cntSet (sel ovf sqn : Nat) : Statement (.cntSet sel ovf sqn) := fun h => by
  simp only [Instr.wellFormed, fitsSel, fits16, fits8, Bool.and_eq_true, decide_eq_true_eq] at h
  rw [Sys2Proof.encode, shift8_or (by omega), commandWord_toNat (by omega) (by omega) (by omega)]
  rfl

theorem cntSetOvf (sel ovf : Nat) : Statement (.cntSetOvf sel ovf) := fun h => by
  simp only [Instr.wellFormed, fitsSel, fits16, Bool.and_eq_true, decide_eq_true_eq] at h
  rw [Sys2Proof.encode, Nat.shiftLeft_eq, commandWord_toNat (by omega) (by omega) (by omega)]
  rfl

theorem cntSetSqn (sel sqn : Nat) : Statement (.cntSetSqn sel sqn) := fun h => by
  simp only [Instr.wellFormed, fitsSel, fits8, Bool.and_eq_true, decide_eq_true_eq] at h
  rw [Sys2Proof.encode, commandWord_toNat (by omega) (by omega) (by omega)]
  rfl

theorem cntInc (sel : Nat) : Statement (.cntInc sel) := fun h => by
  simp only [Instr.wellFormed, fitsSel, decide_eq_true_eq] at h
  rw [Sys2Proof.encode, commandWord_toNat (by omega) (by omega) (by omega)]
  rfl

theorem timerEnc : Statement .timerEnc := fun _ => by decide

end EncodedFields

end Sys2Proof.Laws
end

