-- ==== Sys2Proof/Tests/Slice0.lean ====
section
/-! SUPPORT. Tests: ill-formed terms refused, every command's word written out field by field, one step on small states with results from 95_test_vectors.md, and a witness for the hypotheses of every statement that has them. -/

namespace Sys2Proof.Tests

open Sys2Proof.Machine

/-- The state an outcome leaves. -/
def left (o : Host.Outcome State Fault Refusal) : State :=
  match o with
  | .next t => t
  | .fault _ => State.reset
  | .refused _ => State.reset

/-- The reset state with the schedule `es`. -/
def scheduled (es : List PortEvent) : State := State.reset.setPort es

/-- The reset state with these bytes written from IBUF[0] on. -/
def loaded (bytes : List Byte) : State := { State.reset with ibuf := Memory.writeBytes [] 0 bytes }

/-- The reset state with this unit list. -/
def holding (us : List ContainerUnit) : State := State.reset.setUnits us

/-- The reset state of a block built with room for `u` units and these buffer sizes, holding this unit list. -/
def sized (u isize osize : Nat) (us : List ContainerUnit) : State :=
  (State.resetOf { Params.assumed with maxUnits := u, ibufSize := isize, obufSize := osize }).setUnits us

/-- The reset state with word `w` running. -/
def busyWith (w : Word) : State := State.reset.setRunning w

/-- The reset state with these operand registers. -/
def operands (x0 x1 x2 x3 : Word) : State := (((State.reset.setArg 0 x0).setArg 1 x1).setArg 2 x2).setArg 3 x3

/-- The command word with these fields, written out (30_encoding.md R83). -/
def word (op : BitVec 6) (sel : BitVec 2) (imm : BitVec 24) : Word := op ++ sel ++ imm

/-! ## WellFormed: each check refuses a term (R97), and the largest operands pass -/

theorem test_refused_n : (Instr.decode 0x10000).wellFormed = false := by decide
theorem test_refused_id : (Instr.addUnit 0x10000 0).wellFormed = false := by decide
theorem test_refused_len : (Instr.addUnit 0 0x100).wellFormed = false := by decide
theorem test_refused_alen : (Instr.addDns4Addr 32).wellFormed = false := by decide
theorem test_refused_alen_pcscf : (Instr.addPcscf4Addr 32).wellFormed = false := by decide
theorem test_refused_alen_dns6 : (Instr.addDns6Addr 32).wellFormed = false := by decide
theorem test_refused_mtu : (Instr.addMtu 0x10000).wellFormed = false := by decide
theorem test_refused_idx : (Instr.getUnit 0x10000).wellFormed = false := by decide
theorem test_refused_idx_byte : (Instr.getByte 0x10000 0).wellFormed = false := by decide
theorem test_refused_bidx : (Instr.getByte 0 0x100).wellFormed = false := by decide
theorem test_refused_sel : ∀ i ∈ [Instr.cntRead 4, .cntGetOvf 4, .cntGetSqn 4, .cntSet 4 0 0, .cntSetOvf 4 0,
    .cntSetSqn 4 0, .cntInc 4], i.wellFormed = false := by decide
theorem test_refused_ovf : (Instr.cntSet 0 0x10000 0).wellFormed = false := by decide
theorem test_refused_ovf_alone : (Instr.cntSetOvf 0 0x10000).wellFormed = false := by decide
theorem test_refused_sqn : (Instr.cntSet 0 0 0x100).wellFormed = false := by decide
theorem test_refused_sqn_alone : (Instr.cntSetSqn 0 0x100).wellFormed = false := by decide
theorem test_refused_line : HostLine.events Params.assumed (.command (.addMtu 0x10000)) = none := by decide
theorem test_accepted_largest : ∀ i ∈ [Instr.decode 0xFFFF, .addUnit 0xFFFF 0xFF, .addDns4Addr 31, .addMtu 0xFFFF,
    .getByte 0xFFFF 0xFF, .cntSet 3 0xFFFF 0xFF], i.wellFormed = true := by decide

/-! ## Decoding: every command's word, from its format in R89 and its OP in R90 -/

theorem test_decode_clear : decode (word 0b000001 0 0) = .ok .clear := by rfl
theorem test_decode_encode : decode (word 0b000010 0 0) = .ok .encode := by rfl
theorem test_decode_decode : decode (word 0b000011 0 (0#8 ++ 0x1234#16)) = .ok (.decode 0x1234) := by rfl
theorem test_decode_add_unit : decode (word 0b000100 0 (0xABCD#16 ++ 0xEF#8)) = .ok (.addUnit 0xABCD 0xEF) := by rfl
theorem test_decode_dns4_req : decode (word 0b000101 0 0) = .ok .addDns4Req := by rfl
theorem test_decode_dns6_req : decode (word 0b000110 0 0) = .ok .addDns6Req := by rfl
theorem test_decode_ipalloc : decode (word 0b000111 0 0) = .ok .addIpalloc := by rfl
theorem test_decode_dns4_addr : decode (word 0b001000 0 (0#19 ++ 0b10001#5)) = .ok (.addDns4Addr 17) := by rfl
theorem test_decode_pcscf4_addr : decode (word 0b001001 0 (0#19 ++ 0b00100#5)) = .ok (.addPcscf4Addr 4) := by rfl
theorem test_decode_dns6_addr : decode (word 0b001010 0 (0#19 ++ 0b10000#5)) = .ok (.addDns6Addr 16) := by rfl
theorem test_decode_mtu : decode (word 0b001011 0 (0#8 ++ 0x05DC#16)) = .ok (.addMtu 1500) := by rfl
theorem test_decode_get_unit : decode (word 0b001100 0 (0x8001#16 ++ 0#8)) = .ok (.getUnit 0x8001) := by rfl
theorem test_decode_get_byte : decode (word 0b001101 0 (0x0102#16 ++ 0x83#8)) = .ok (.getByte 0x0102 0x83) := by rfl
theorem test_decode_cnt_read : decode (word 0b010000 0b10 0) = .ok (.cntRead 2) := by rfl
theorem test_decode_cnt_get_ovf : decode (word 0b010001 0b01 0) = .ok (.cntGetOvf 1) := by rfl
theorem test_decode_cnt_get_sqn : decode (word 0b010010 0b11 0) = .ok (.cntGetSqn 3) := by rfl
theorem test_decode_cnt_set :
    decode (word 0b010011 0b01 (0x1234#16 ++ 0x56#8)) = .ok (.cntSet 1 0x1234 0x56) := by rfl
theorem test_decode_cnt_set_ovf : decode (word 0b010100 0b10 (0xFFFE#16 ++ 0#8)) = .ok (.cntSetOvf 2 0xFFFE) := by rfl
theorem test_decode_cnt_set_sqn : decode (word 0b010101 0b11 (0#16 ++ 0x7F#8)) = .ok (.cntSetSqn 3 0x7F) := by rfl
theorem test_decode_cnt_inc : decode (word 0b010110 0b01 0) = .ok (.cntInc 1) := by rfl
theorem test_decode_timer_enc : decode (word 0b100000 0 0) = .ok .timerEnc := by rfl

/-- 95 section 2.1: bad opcodes, and a bad opcode before reserved bits. -/
theorem test_bad_opcodes : decode 0x00000000 = .error .badOpcode
    ∧ decode 0x38000000 = .error .badOpcode
    ∧ decode 0x5C000000 = .error .badOpcode
    ∧ decode 0x84000000 = .error .badOpcode
    ∧ decode 0xFFFFFFFF = .error .badOpcode := ⟨rfl, rfl, rfl, rfl, rfl⟩
/-- 95 sections 2.1 and 2.5: a reserved bit of each kind of format. -/
theorem test_reserved_bits : decode 0x04000001 = .error .reservedNonzero
    ∧ decode 0x05000000 = .error .reservedNonzero
    ∧ decode 0x0C010000 = .error .reservedNonzero
    ∧ decode 0x20000020 = .error .reservedNonzero
    ∧ decode 0x2C010000 = .error .reservedNonzero
    ∧ decode 0x30000001 = .error .reservedNonzero
    ∧ decode 0x40000001 = .error .reservedNonzero
    ∧ decode 0x43000001 = .error .reservedNonzero
    ∧ decode 0x80000001 = .error .reservedNonzero
    ∧ decode 0x50ABCD01 = .error .reservedNonzero
    ∧ decode 0x5400017F = .error .reservedNonzero := ⟨rfl, rfl, rfl, rfl, rfl, rfl, rfl, rfl, rfl, rfl, rfl⟩
theorem test_table_word : decodeTableWord 32 0x4C123456 = some (.cntSet 0 0x1234 0x56) := by rfl

/-! ## The step from reset -/

theorem test_reset_memory : State.reset.ibuf.wf ∧ State.reset.obuf.wf := by decide
theorem test_fetched_word_runs : (left (step (State.reset.withFetchWord 32 0x2C0005DC))).units
    = [⟨0x0010, [0x05, 0xDC]⟩] := by decide
/-- 95 section 2.1: STATUS after word 0. -/
theorem test_bad_opcode_status : (left (step (busyWith 0))).statusWord = 0x00001606 := by decide
/-- 95 section 2.1: CLEAR with a reserved bit. -/
theorem test_reserved_status : (left (step (busyWith 0x04000001))).statusWord = 0x00002606 := by decide
/-- 20_memory.md R60: the low byte of the word goes to IBUF, and the pointer advances. -/
theorem test_ibuf_write : (left (step (scheduled [.access (.write 0x18 0x123456AA)]))).ibuf = [(0, 0xAA)] := by decide
/-- 20_memory.md R57: while a command runs, a write is held. -/
theorem test_write_held : (left (step ((busyWith 0x04000000).setPort [.access (.write 0x24 7)]))).held
    = some (.write 0x24 7) := by decide
/-- 20_memory.md R55: COUNT2 does not exist with two counters. -/
theorem test_absent_counter_reads_zero :
    (left (step ({ scheduled [.access (.read 0x3C)] with count2 := 5 }))).answer = some 0 := by decide
/-- 95 section 2.5: a host read of COUNT1. -/
theorem test_counter_read_by_host :
    (left (step ({ scheduled [.access (.read 0x38)] with count1 := 0x00ABCDEF }))).answer = some 0x00ABCDEF := by decide

/-! ## The codec (95 sections 2.2 and 2.3) -/

theorem test_clear : (left (exec .clear (holding [⟨0x000D, []⟩]))).units = [] := by decide
theorem test_encode : (left (exec .encode (holding [⟨0x1234, [0xAA, 0xBB]⟩, ⟨0xFFFF, []⟩]))).obuf.map Prod.snd
    = [0x80, 0x12, 0x34, 0x02, 0xAA, 0xBB, 0xFF, 0xFF, 0x00] := by decide
theorem test_encode_no_room : (left (exec .encode (sized 8 256 8 [⟨0x000A, [0xAA, 0xBB]⟩, ⟨0x000B, []⟩]))).statusWord
    = 0x00003106 := by decide
theorem test_decode : (left (exec (.decode 11) (loaded [0x80, 0x00, 0x0D, 0x04, 8, 8, 8, 8, 0x00, 0x0A, 0x00]))).units
    = [⟨0x000D, [8, 8, 8, 8]⟩, ⟨0x000A, []⟩] := by decide
theorem test_decode_truncated : (left (exec (.decode 6) (loaded [0x80, 0x00, 0x0A, 0x05, 1, 2]))).statusWord
    = 0x00044206 := by decide

/-! ## Builders and readback (95 section 2.4) -/

theorem test_add_unit : (left (exec (.addUnit 0x0010 2) (loaded [0x05, 0xDC]))).units = [⟨0x0010, [0x05, 0xDC]⟩] := by
  decide
theorem test_add_dns4_req : (left (exec .addDns4Req State.reset)).units = [⟨0x000D, []⟩] := by decide
theorem test_add_dns6_req : (left (exec .addDns6Req State.reset)).units = [⟨0x0003, []⟩] := by decide
theorem test_add_ipalloc : (left (exec .addIpalloc State.reset)).units = [⟨0x000A, []⟩] := by decide
theorem test_add_dns4_addr : (left (exec (.addDns4Addr 4) (operands 0x08080404 0 0 0))).units
    = [⟨0x000D, [8, 8, 4, 4]⟩] := by decide
theorem test_add_dns4_mapped : (left (exec (.addDns4Addr 16)
    ((State.resetOf { Params.assumed with acceptV4Mapped := true }).setArg 2 0x0000FFFF |>.setArg 3 0xC0A80001))).units
    = [⟨0x000D, [0xC0, 0xA8, 0x00, 0x01]⟩] := by decide
theorem test_add_pcscf4_addr : (left (exec (.addPcscf4Addr 4) (operands 0x0A000001 0 0 0))).units
    = [⟨0x000C, [0x0A, 0x00, 0x00, 0x01]⟩] := by decide
theorem test_add_pcscf4_length : (left (exec (.addPcscf4Addr 31) State.reset)).statusWord = 0x00000406 := by decide
theorem test_add_dns6_addr : (left (exec (.addDns6Addr 16) (operands 0x20014860 0x48600000 0 0x8888))).units
    = [⟨0x0003, [0x20, 0x01, 0x48, 0x60, 0x48, 0x60, 0, 0, 0, 0, 0, 0, 0, 0, 0x88, 0x88]⟩] := by decide
theorem test_add_dns6_family : (left (exec (.addDns6Addr 4) (operands 0x08080808 0 0 0))).statusWord = 0x00000306 := by
  decide
theorem test_add_mtu : (left (exec (.addMtu 1500) State.reset)).units = [⟨0x0010, [0x05, 0xDC]⟩] := by decide
theorem test_add_mtu_full : (left (exec (.addMtu 1500) (sized 1 256 256 [⟨1, []⟩]))).statusWord = 0x00001706 := by
  decide
theorem test_get_unit : (left (exec (.getUnit 1) (holding [⟨0x000D, [8, 8, 4, 4]⟩, ⟨0x0010, [0x05, 0xDC]⟩]))).result
    = 0x00001002 := by decide
theorem test_get_unit_past : (left (exec (.getUnit 0) State.reset)).statusWord = 0x00004606 := by decide
theorem test_get_byte : (left (exec (.getByte 1 1) (holding [⟨0x000D, [8, 8, 4, 4]⟩, ⟨0x0010, [0x05, 0xDC]⟩]))).result
    = 0x000000DC := by decide
theorem test_get_byte_past : (left (exec (.getByte 0 4) (holding [⟨0x000D, [8, 8, 4, 4]⟩]))).statusWord = 0x00004606 := by
  decide

/-! ## Counters (95 section 2.5) and the timer (95 sections 1.6 and 2.6) -/

theorem test_cnt_read : (left (exec (.cntRead 1) (State.reset.setCount 1 0x123456))).result = 0x00123456 := by decide
theorem test_cnt_get_ovf : (left (exec (.cntGetOvf 0) (State.reset.setCount 0 0x123456))).result = 0x1234 := by decide
theorem test_cnt_get_sqn : (left (exec (.cntGetSqn 0) (State.reset.setCount 0 0x123456))).result = 0x56 := by decide
theorem test_cnt_set : (left (exec (.cntSet 1 0xFFFF 0xFF) State.reset)).count1 = 0x00FFFFFF := by decide
theorem test_cnt_set_select : (left (exec (.cntSet 2 0x1234 0x56) State.reset)).statusWord = 0x00003606 := by decide
theorem test_cnt_set_ovf : (left (exec (.cntSetOvf 0 0xABCD) (State.reset.setCount 0 0x123456))).count0 = 0xABCD56 := by
  decide
theorem test_cnt_set_sqn : (left (exec (.cntSetSqn 0 0x7F) (State.reset.setCount 0 0x123456))).count0 = 0x12347F := by
  decide
theorem test_cnt_inc_carry : (left (exec (.cntInc 0) (State.reset.setCount 0 0x0000FF))).count0 = 0x000100 := by decide
theorem test_cnt_inc_wrap : (left (exec (.cntInc 0) (State.reset.setCount 0 0xFFFFFF))).count0 = 0 := by decide
theorem test_timer_tier3 : (left (exec .timerEnc (operands 2160 0 0 0))).result = 0x46 := by decide
theorem test_timer_range : (left (exec .timerEnc (operands 11520 0 0 0))).statusWord = 0x00003506 := by decide

/-! ## Witnesses: states and operands that meet a statement's hypotheses, a boundary value for each clause -/

theorem witness_EncodedCommandDecodesToItself : (Instr.cntSet 3 0xFFFF 0xFF).wellFormed = true := by decide

theorem witness_DecodedWordIsItsCommandsEncoding : decode 0x4FFFFFFF = .ok (.cntSet 3 0xFFFF 0xFF) := by rfl

/-- One word of each class: an OP outside the table, a reserved bit set, and a command. -/
theorem witness_WordFallsInOneOfThreeClasses : decode 0x38000000 = .error .badOpcode
    ∧ decode 0x04000001 = .error .reservedNonzero ∧ decode 0x04000000 = .ok .clear := ⟨rfl, rfl, rfl⟩

theorem witness_AssembledCommandWritesAValidWordToCmd : (HostLine.command (.cntInc 1)).events Params.assumed
    = some [.access (.write 0 0x59000000), .engine] := by decide

/-- An empty schedule, an engine move, and a second access that must wait. -/
theorem witness_StepRunsTheDecodedCommand : decode 0x04000000 = .ok .clear
    ∧ (busyWith 0x04000000).inReset = false ∧ (busyWith 0x04000000).running = some 0x04000000
    ∧ (busyWith 0x04000000).port = [] ∧ ((busyWith 0x04000000).setPort [.engine]).port = .engine :: []
    ∧ ((busyWith 0x04000000).setHeld (some (.read 0x08))).held = some (.read 0x08)
    ∧ Access.passes Params.assumed (.read 0x0C) = false := ⟨rfl, rfl, rfl, rfl, rfl, rfl, rfl⟩

/-- The lowest address of CMD and the highest one that still selects it. -/
theorem witness_CmdWriteStartsTheCommand : Idle (scheduled [.access (.write 0x03 0x04000000)])
    ∧ (scheduled [.access (.write 0x03 0x04000000)]).params.baseAddr ≤ 0x00 ∧ 0x00 / 4 % 64 = 0 ∧ 0x03 / 4 % 64 = 0
    ∧ 0x03 ≤ (scheduled []).params.baseAddr + 0xFF := ⟨⟨rfl, rfl, rfl⟩, by decide⟩

/-- An undefined OP and a reserved bit, each completing with an empty schedule, by an engine move and by a second
access that must wait. -/
theorem witness_IllegalWordChangesOnlyStatus :
    (∀ w ∈ [(0x38000000 : Word), 0x04000001], CompletesFrom w (busyWith w) (busyWith w)
      ∧ CompletesFrom w ((busyWith w).setPort [.engine]) (busyWith w)
      ∧ let s := ((busyWith w).setHeld (some (.read 0x08))).setPort [.access (.write 0x04 4)]
        CompletesFrom w s s)
    ∧ (∀ row ∈ tableOpcodes, row.1 ≠ (0x38000000 : Word).toNat / 2 ^ 26)
    ∧ ∃ row ∈ tableOpcodes, row.1 = (0x04000001 : Word).toNat / 2 ^ 26 ∧ (0x04000001 : Word) &&& row.2 ≠ 0 :=
  ⟨fun _ _ => ⟨⟨rfl, rfl, .inl ⟨rfl, rfl⟩⟩, ⟨rfl, rfl, .inr (.inl ⟨[], rfl, rfl⟩)⟩,
    ⟨rfl, rfl, .inr (.inr ⟨_, _, [], rfl, rfl, rfl, rfl⟩)⟩⟩, by decide, by decide⟩

/-- A read of RESULT and a write of STATUS are held; a held access of an idle block is performed. -/
theorem witness_InterlockHoldsAccessesUntilIdle :
    ((busyWith 0x04000000).inReset = false ∧ (busyWith 0x04000000).running = some 0x04000000
      ∧ (busyWith 0x04000000).held = none ∧ (Access.read 0x08).addr / 4 % 64 ≠ 1 ∧ (Access.read 0xFF).addr / 4 % 64 ≠ 1
      ∧ (Access.write 0x04 4).addr / 4 % 64 = 1)
    ∧ (State.reset.setHeld (some (.read 0x08))).running = none
      ∧ (State.reset.setHeld (some (.read 0x08))).held = some (.read 0x08) := by decide

theorem witness_BusyStatusReadIsAnsweredAtOnce : (busyWith 0x04000000).inReset = false
    ∧ (busyWith 0x04000000).running = some 0x04000000 ∧ 0x04 / 4 % 64 = 1 ∧ 0x07 / 4 % 64 = 1 := by decide

theorem witness_OnlySuccessfulQueriesWriteResult :
    ∃ t, exec .timerEnc (operands 780 0 0 0) = .next t ∧ t.result ≠ (operands 780 0 0 0).result := ⟨_, rfl, by decide⟩

theorem witness_OnlyListCommandsChangeTheList :
    ∃ t, exec .clear (holding [⟨1, []⟩]) = .next t ∧ t.units ≠ (holding [⟨1, []⟩]).units := ⟨_, rfl, by decide⟩

theorem witness_NoCommandWritesItsOperands : ∃ t, exec .encode (holding [⟨1, []⟩]) = .next t := ⟨_, rfl⟩

theorem witness_OnlyTheCodecWritesItsRegisters :
    ∃ t, exec .clear (holding [⟨1, []⟩]) = .next t ∧ Instr.clear ≠ .encode ∧ ∀ n, Instr.clear ≠ .decode n :=
  ⟨_, rfl, by decide, fun _ => Instr.noConfusion⟩

/-- A list that fills OBUF to its last byte. -/
theorem witness_EncodeWritesTheWireForm : wireSize (sized 8 256 4 [⟨0x000A, []⟩]).units
    = (sized 8 256 4 [⟨0x000A, []⟩]).params.obufSize := by decide

/-- A list one byte too long for OBUF, and one of which only the meta byte fits. -/
theorem witness_EncodeStopsAtTheFirstFieldThatDoesNotFit :
    (sized 8 256 4 [⟨0x000A, [1]⟩]).params.obufSize < wireSize (sized 8 256 4 [⟨0x000A, [1]⟩]).units
    ∧ (sized 8 256 1 [⟨0x000A, []⟩]).params.obufSize < wireSize (sized 8 256 1 [⟨0x000A, []⟩]).units := by decide

theorem witness_EncodeNeverFailsWithRoomForEveryUnit : (sized 1 256 512 [⟨0x000A, [1, 2]⟩]).params.legal = true
    ∧ (sized 1 256 512 [⟨0x000A, [1, 2]⟩]).units.length ≤ 1 ∧ ContentsFit (sized 1 256 512 [⟨0x000A, [1, 2]⟩]).units
    ∧ 1 + 258 * 1 ≤ (sized 1 256 512 [⟨0x000A, [1, 2]⟩]).params.obufSize := by
  refine ⟨by decide, by decide, ?_, by decide⟩
  unfold ContentsFit
  decide

theorem witness_EncodeTwiceIsEncodeOnce : (sized 8 256 4 [⟨0x000A, [1]⟩]).obuf.wf
    ∧ ∃ t, exec .encode (sized 8 256 4 [⟨0x000A, [1]⟩]) = .next t := ⟨by decide, _, rfl⟩

theorem witness_DecodeRefusesMoreBytesThanIbufHolds : State.reset.params.ibufSize < 257 := by decide

/-- Two units and a meta byte that ENCODE never writes, in a list just large enough. -/
theorem witness_DecodeRecoversTheUnitsOfAWireForm :
    let s := { sized 2 256 256 [] with ibuf := Memory.writeBytes [] 0 [0xFF, 0x12, 0x34, 1, 0xAA, 0, 1, 0] }
    let us : List ContainerUnit := [⟨0x1234, [0xAA]⟩, ⟨1, []⟩]
    8 ≤ s.params.ibufSize ∧ Holds s.ibuf 0 (0xFF :: wireUnits us) ∧ 8 = 1 + (wireUnits us).length ∧ ContentsFit us
      ∧ us.length ≤ s.params.maxUnits := by
  refine ⟨by decide, ?_, by decide, ?_, by decide⟩
  · unfold Holds; decide
  · unfold ContentsFit; decide

theorem witness_SuccessfulDecodeReadAWholeWireForm :
    Holds (loaded [0x80, 0x00, 0x0A, 0x00]).ibuf 0 [0x80, 0x00, 0x0A, 0x00]
    ∧ ∃ t, exec (.decode 4) (loaded [0x80, 0x00, 0x0A, 0x00]) = .next t ∧ t.err = false := by
  refine ⟨?_, _, rfl, by decide⟩
  unfold Holds
  decide

/-- The bytes end after one byte of the id, after the id, and one byte short of the content. -/
theorem witness_DecodeNeverStoresAnOpenUnit : OpenUnit [0x00] ∧ OpenUnit [0x00, 0x0D] ∧ OpenUnit [0x00, 0x0D, 2, 7]
    ∧ ContentsFit [⟨0x000A, []⟩]
    ∧ Holds (loaded [0x80, 0x00, 0x0A, 0, 0x00, 0x0D, 2, 7]).ibuf 0
        (0x80 :: wireUnits [⟨0x000A, []⟩] ++ [0x00, 0x0D, 2, 7]) := by
  refine ⟨⟨by decide, by simp⟩, ⟨by decide, by simp⟩, ⟨by decide, ?_⟩, ?_, ?_⟩
  · intro l h; cases h; decide
  · unfold ContentsFit; decide
  · unfold Holds; decide

theorem witness_DecodeStopsWhenTheListIsFull :
    let s := { sized 1 256 256 [] with ibuf := Memory.writeBytes [] 0 [0x80, 0, 1, 0, 0, 2, 1, 0x55] }
    let us : List ContainerUnit := [⟨1, []⟩]
    let u : ContainerUnit := ⟨2, [0x55]⟩
    1 + (wireUnits (us ++ [u])).length ≤ s.params.ibufSize ∧ Holds s.ibuf 0 (0x80 :: wireUnits (us ++ [u]) ++ [])
      ∧ ContentsFit (us ++ [u]) ∧ us.length = s.params.maxUnits := by
  refine ⟨by decide, ?_, ?_, by decide⟩
  · unfold Holds; decide
  · unfold ContentsFit; decide

/-- The last byte is a length of 0, which ends the input. -/
theorem witness_DecodeStepKeepsCursorPlusRemaining :
    let s := (loaded [0x80, 0x00, 0x0A, 0x00]).setDecoding ⟨.readingLength 0x000A, 3, 1⟩
    s.decoding = some ⟨.readingLength 0x000A, 3, 1⟩
      ∧ ∃ t, decodeStep s = .ok t ∧ t.decoding = some ⟨.readingId, 4, 0⟩ := ⟨rfl, _, rfl, by decide⟩

/-- ENCODE's state with the written bytes copied to IBUF. -/
theorem witness_DecodeAfterEncodeReturnsTheList :
    let s := sized 2 256 256 [⟨0x1234, [0xAA, 0xBB]⟩, ⟨0xFFFF, []⟩]
    let t := left (exec .encode s)
    let c := { t with ibuf := t.obuf }
    ContentsFit s.units ∧ s.units.length ≤ s.params.maxUnits ∧ wireSize s.units ≤ s.params.obufSize
      ∧ wireSize s.units ≤ s.params.ibufSize ∧ exec .encode s = .next t ∧ c.params = s.params
      ∧ ∀ j, j < wireSize s.units → c.ibuf.read j = t.obuf.read j := by
  refine ⟨?_, by decide, by decide, by decide, rfl, rfl, fun _ _ => rfl⟩
  unfold ContentsFit
  decide

/-- The largest operands, and room for one unit: the hypotheses of the appending statements. -/
theorem witness_AddUnitAppendsTheIbufBytes : 0xFFFF ≤ 0xFFFF ∧ 0xFF ≤ 0xFF
    ∧ (sized 1 256 256 []).units.length < (sized 1 256 256 []).params.maxUnits
    ∧ (loaded [0x05, 0xDC]).ibuf.read 1 = some 0xDC := by decide

theorem witness_RequestAndMtuBuildersAppendTheirUnit : 0xFFFF ≤ 0xFFFF
    ∧ (sized 1 256 256 []).units.length < (sized 1 256 256 []).params.maxUnits := by decide

theorem witness_Ipv4BuildersAppendFourAddressBytes :
    let s := (State.resetOf { Params.assumed with acceptV4Mapped := true }).setArg 2 0x0000FFFF |>.setArg 3 0xC0A80001
    s.units.length < s.params.maxUnits ∧ s.params.acceptV4Mapped = true ∧ s.arg0 = 0 ∧ s.arg1 = 0
      ∧ s.arg2 = 0x0000FFFF := by decide

theorem witness_Ipv6BuilderAppendsSixteenAddressBytes : State.reset.units.length < State.reset.params.maxUnits := by
  decide

/-- An IPv6 address that is not IPv4-mapped although such addresses are accepted; the lengths 0, 5, 15, 17 and 31. -/
theorem witness_AddressBuildersRefuseTheOtherFamilyAndOddLengths :
    (let s := (State.resetOf { Params.assumed with acceptV4Mapped := true }).setArg 0 0x20014860;
      ¬ (s.params.acceptV4Mapped = true ∧ s.arg0 = 0 ∧ s.arg1 = 0 ∧ s.arg2 = 0x0000FFFF))
    ∧ ∀ l ∈ [0, 5, 15, 17, 31], l ≤ 31 ∧ l ≠ 4 ∧ l ≠ 16 := by decide

/-- A full list with the largest operands, and one with an accepted IPv4-mapped address. -/
theorem witness_AppendToAFullListRaisesCapacityError :
    ((sized 1 256 256 [⟨1, []⟩]).units.length = (sized 1 256 256 [⟨1, []⟩]).params.maxUnits ∧ 0xFFFF ≤ 0xFFFF
      ∧ 0xFF ≤ 0xFF)
    ∧ let s := ((State.resetOf { Params.assumed with maxUnits := 1, acceptV4Mapped := true }).setUnits [⟨1, []⟩]).setArg 2
        0x0000FFFF
      s.units.length = s.params.maxUnits ∧ s.params.acceptV4Mapped = true ∧ s.arg0 = 0 ∧ s.arg1 = 0
        ∧ s.arg2 = 0x0000FFFF := by decide

theorem witness_BuildersAppendOneUnitOrNone :
    (∃ t, exec .addDns4Req State.reset = .next t ∧ t.err = false)
    ∧ ∃ t, exec (.addDns6Addr 5) State.reset = .next t ∧ t.err = true := ⟨⟨_, rfl, by decide⟩, _, rfl, by decide⟩

theorem witness_ReadbackAnswersTheUnitAndItsBytes :
    (holding [⟨0x000D, [8, 7]⟩]).units[0]? = some ⟨0x000D, [8, 7]⟩ ∧ [8, 7][1]? = some 7 := by decide

/-- The first index past the list, and the first byte index past a unit's content, an empty one among them. -/
theorem witness_ReadbackPastTheEndIsABadOperand :
    (holding [⟨0x000D, [8, 7]⟩, ⟨1, []⟩]).units.length ≤ 2
    ∧ (holding [⟨0x000D, [8, 7]⟩, ⟨1, []⟩]).units[0]? = some ⟨0x000D, [8, 7]⟩
    ∧ (holding [⟨0x000D, [8, 7]⟩, ⟨1, []⟩]).units[1]? = some ⟨1, []⟩ := by decide

/-- The last counter that exists and the first that does not. -/
theorem witness_CounterQueriesAnswerTheFields : 1 < State.reset.params.numCounters := by decide

theorem witness_CounterCommandsWriteTheirCounter :
    3 < (State.resetOf { Params.assumed with numCounters := 4 }).params.numCounters ∧ 3 ≤ 3 ∧ 0xFFFF ≤ 0xFFFF
    ∧ 0xFF ≤ 0xFF := by decide

theorem witness_BadCounterSelectChangesOnlyStatus : State.reset.params.numCounters ≤ 2 := by decide

theorem witness_CounterFieldsReadBackAsSet : 1 < State.reset.params.numCounters ∧ 1 ≤ 3 ∧ 0xFFFF ≤ 0xFFFF
    ∧ 0xFF ≤ 0xFF := by decide

/-- A select that exists and one that does not. -/
theorem witness_CountersAreIndependent : 1 ≤ 3 ∧ 3 ≤ 3 ∧ 0xFFFF ≤ 0xFFFF ∧ 0xFF ≤ 0xFF
    ∧ State.reset.params.numCounters ≤ 3 := by decide

/-- Two increments across the wrap. -/
theorem witness_RepeatedIncrementsCountModulo2Pow24 :
    let run : Nat → State := fun j =>
      match j with
      | 0 => State.reset.setCount 0 0xFFFFFF
      | 1 => left (exec (.cntInc 0) (State.reset.setCount 0 0xFFFFFF))
      | _ => left (exec (.cntInc 0) (left (exec (.cntInc 0) (State.reset.setCount 0 0xFFFFFF))))
    0 < (run 0).params.numCounters ∧ ((run 0).count 0).toNat < 2 ^ 24
      ∧ ∀ j, j < 2 → exec (.cntInc 0) (run j) = .next (run (j + 1)) := by
  refine ⟨by decide, by decide, fun j hj => ?_⟩
  rcases j with _ | _ | j
  · rfl
  · rfl
  · omega

/-- The seconds where each tier and each failure begins and ends, and the largest inputs. -/
theorem witness_TimerOutcomeOfEveryInput :
    (∀ n ∈ [0, 64], (operands (BitVec.ofNat 32 n) 0 0 0).arg0.toNat ≤ 64 ∧ n % 2 = 0)
    ∧ (∀ n ∈ [65, 1919], 65 ≤ (operands (BitVec.ofNat 32 n) 0 0 0).arg0.toNat ∧ n ≤ 1919)
    ∧ (∀ n ∈ [2160, 11219], 1920 ≤ (operands (BitVec.ofNat 32 n) 0 0 0).arg0.toNat ∧ n ≤ 11519 ∧ n / 60 % 6 = 0)
    ∧ (∀ n ∈ [1, 63], (operands (BitVec.ofNat 32 n) 0 0 0).arg0.toNat ≤ 64 ∧ n % 2 = 1)
    ∧ (∀ n ∈ [1920, 11220, 4294967295], 1920 ≤ (operands (BitVec.ofNat 32 n) 0 0 0).arg0.toNat ∧ n / 60 % 6 ≠ 0)
    ∧ ∀ n ∈ [11520, 4294967040], 11520 ≤ (operands (BitVec.ofNat 32 n) 0 0 0).arg0.toNat ∧ n / 60 % 6 = 0 := by
  decide

theorem witness_TimerBytesOfTheTiersAreDisjoint :
    ∃ t, exec .timerEnc (operands 64 0 0 0) = .next t ∧ t.err = false := ⟨_, rfl, by decide⟩

theorem witness_StatusReadsItsFieldsAndWritesClearSticky : Idle (scheduled [.access (.read 0x04)])
    ∧ Idle (scheduled [.access (.write 0x07 4)]) ∧ 0x04 / 4 % 64 = 1 ∧ 0x07 / 4 % 64 = 1 :=
  ⟨⟨rfl, rfl, rfl⟩, ⟨rfl, rfl, rfl⟩, by decide⟩

/-- CMD, RESULT, UNIT_COUNT, OUT_LEN, the pointers, the first and last operand register, the last counter, the first
absent one, and the window's last offset. -/
theorem witness_PlainReadsAnswerTheirRegister : Idle (scheduled [.access (.read 0xFF)])
    ∧ (scheduled []).params.numCounters = 2
    ∧ [0x00, 0x08, 0x0C, 0x10, 0x14, 0x1C, 0x24, 0x30, 0x38, 0x3C, 0xFF].map (· / 4 % 64)
      = [0, 2, 3, 4, 5, 7, 9, 9 + 3, 13 + 1, 13 + 2, 63] := ⟨⟨rfl, rfl, rfl⟩, rfl, by decide⟩

theorem witness_WritesToReadOnlyAndUnmappedOffsetsAreIgnored : Idle (scheduled [.access (.write 0x34 5)])
    ∧ [0x08, 0x0C, 0x10, 0x20, 0x34, 0xFC].map (· / 4 % 64) = [2, 3, 4, 8, 13, 63] := ⟨⟨rfl, rfl, rfl⟩, by decide⟩

theorem witness_PointerAndOperandWritesStoreTheirWord : Idle (scheduled [.access (.write 0x14 0x101)])
    ∧ [0x14, 0x1C, 0x24, 0x28, 0x2C, 0x33].map (· / 4 % 64) = [5, 7, 9, 10, 11, 12] := ⟨⟨rfl, rfl, rfl⟩, by decide⟩

theorem witness_DataPortReadsAnswerAByteAndAdvance : Idle (scheduled [.access (.read 0x18)])
    ∧ Idle (scheduled [.access (.read 0x23)]) ∧ Idle (scheduled [.access (.write 0x20 5)]) ∧ 0x18 / 4 % 64 = 6 ∧ 0x23 / 4 % 64 = 8 :=
  ⟨⟨rfl, rfl, rfl⟩, ⟨rfl, rfl, rfl⟩, ⟨rfl, rfl, rfl⟩, by decide⟩

/-- Two writes that begin at the last index and wrap, at the lowest and the highest address that select IBUF_DATA. -/
theorem witness_IbufDataWritesFillTheBufferInOrder :
    let s := (scheduled [.access (.write 0x18 1), .access (.write 0x1B 2)]).setIbufPtr 255
    let ws : List (Nat × Word) := [(0x18, 1), (0x1B, 2)]
    Idle s ∧ s.params.legal = true ∧ s.ibufPtr.toNat < s.params.ibufSize ∧ ws.length ≤ s.params.ibufSize
      ∧ (∀ p ∈ ws, s.params.baseAddr ≤ p.1 ∧ p.1 ≤ s.params.baseAddr + 0xFF ∧ p.1 / 4 % 64 = 6)
      ∧ s.port = ws.map (fun p => .access (.write p.1 p.2)) ++ [] :=
  ⟨⟨rfl, rfl, rfl⟩, by decide, by decide, by decide, by decide, rfl⟩

/-- One address below the window of a block at 0x100, and one above it. -/
theorem witness_AccessOutsideTheWindowChangesNothing :
    let s := (State.resetOf { Params.assumed with baseAddr := 0x100 }).setPort [.access (.read 0xFF)]
    s.inReset = false ∧ s.held = none ∧ (Access.read 0xFF).addr < s.params.baseAddr
      ∧ s.params.baseAddr + 0xFF < (Access.write 0x200 1).addr := by decide

theorem witness_ReleasingResetGivesTheResetState :
    let s := { holding [⟨1, []⟩] with inReset := true, port := [.releaseReset] }
    s.inReset = true ∧ s.port = .releaseReset :: [] := ⟨rfl, rfl⟩

/-- Reset asserted while a command runs and while the block is idle, and an access that arrives in reset. -/
theorem witness_AssertedResetEndsTheCommandAndIgnoresAccesses :
    (((busyWith 0x04000000).setPort [.assertReset]).inReset = false
      ∧ ((busyWith 0x04000000).setPort [.assertReset]).running ≠ none)
    ∧ ((scheduled [.assertReset]).inReset = false ∧ (scheduled [.assertReset]).held = none)
    ∧ { scheduled [.access (.read 0x04)] with inReset := true }.inReset = true := by decide

theorem witness_StepKeepsTheInvariant : State.reset.Inv ∧ ∃ t, step State.reset = .next t := by
  refine ⟨⟨by decide, by decide, by decide, ?_, by decide, by decide, by decide, by decide, by decide, by decide,
    by decide, rfl, by decide⟩, _, rfl⟩
  unfold ContentsFit
  decide

theorem witness_ResetStateMeetsTheTableAndTheInvariant : Params.assumed.legal = true := by decide

end Sys2Proof.Tests
end

