-- ==== Sys2Proof/Proofs/EncodeFits.lean ====
section
/-! SUPPORT. ENCODE of a list whose wire form fits in OBUF: what it writes and how it ends. -/

namespace Sys2Proof.Machine

/-- A command that ends with success and has left STICKY alone reports success (30_encoding.md R84). -/
theorem succeeded_complete_ok {s t : State} (h : t.sticky = s.sticky) : Succeeded s (Ended.ok t).complete :=
  ⟨rfl, rfl, rfl, h, rfl⟩

/-- The wire form of no units is empty. -/
@[simp] theorem wireUnits_nil : wireUnits [] = [] := rfl

/-- A write of no bytes changes nothing. -/
@[simp] theorem writeObuf_nil (o : Nat) (s : State) : s.writeObuf o [] = s := rfl

/-- A field that does not pass the end of OBUF is written and ENCODE goes on (40_tlv_codec.md R105). -/
theorem put_of_fits {f : WireField} {bytes : List Byte} {o : Nat} {s : State} (k : Nat → State → Ended)
    (h : o + bytes.length ≤ s.params.obufSize) :
    s.put f bytes o k = k (o + bytes.length) (s.writeObuf o bytes) := by
  rcases put_cases f bytes o s k with ⟨hlt, _⟩ | ⟨_, e⟩
  · omega
  · exact e

/-- Where a unit's wire form fits, ENCODE's loop writes it whole and goes on with the units after it (R104). -/
theorem encodeUnits_cons_of_fits {u : ContainerUnit} {o : Nat} {s : State} (us : List ContainerUnit)
    (h : o + (wireUnit u).length ≤ s.params.obufSize) :
    encodeUnits (u :: us) o s = encodeUnits us (o + (wireUnit u).length) (s.writeObuf o (wireUnit u)) := by
  have hid : (bytes16 u.id).length = 2 := rfl
  rw [wireUnit_length] at h
  rw [encodeUnits, put_of_fits _ (by omega), put_of_fits _ (by simp; omega), put_of_fits _ (by simp; omega)]
  rw [wireUnit_fields, ← writeObuf_append, ← writeObuf_append]
  simp only [List.length_append, Nat.add_assoc]

/-- Where the wire form of the units left fits, ENCODE's loop writes exactly it and ends with success (R104, R106). -/
theorem encodeUnits_of_fits (us : List ContainerUnit) (o : Nat) (s : State)
    (h : o + (wireUnits us).length ≤ s.params.obufSize) :
    encodeUnits us o s = .ok ((s.writeObuf o (wireUnits us)).endEncode (o + (wireUnits us).length)) := by
  induction us generalizing o s with
  | nil => simp [encodeUnits]
  | cons u us ih =>
    rw [wireUnits_cons, List.length_append] at h
    rw [encodeUnits_cons_of_fits us (by omega), ih _ _ (by rw [writeObuf_params]; omega), writeObuf_append,
      wireUnits_cons, List.length_append, Nat.add_assoc]

/-- ENCODE of a list whose wire form fits writes exactly that at OBUF[0] and ends with success (R104, R106). -/
theorem exec_encode_of_fits {s : State} (h : wireSize s.units ≤ s.params.obufSize) :
    exec .encode s
      = .next (Ended.ok ((s.writeObuf 0 (wireForm s.units)).endEncode (wireSize s.units))).complete := by
  have metaFits : 0 + [(0x80 : Byte)].length ≤ s.params.obufSize := by
    rw [wireSize_eq] at h
    simp only [List.length_singleton]
    omega
  have unitsFit : 0 + [(0x80 : Byte)].length + (wireUnits s.units).length
      ≤ (s.writeObuf 0 [0x80]).params.obufSize := by
    simpa [wireSize_eq] using h
  calc exec .encode s
      = .next (s.put .metaByte [0x80] 0 fun o t => encodeUnits s.units o t).complete := rfl
    _ = _ := by
      rw [put_of_fits _ metaFits, encodeUnits_of_fits _ _ _ unitsFit, writeObuf_append, wireSize_eq]
      rfl

/-- A unit takes at most 258 bytes of a wire form, 3 and its content (10_state.md R35, 40_tlv_codec.md R101). -/
theorem wireUnits_length_le {us : List ContainerUnit} (h : ContentsFit us) :
    (wireUnits us).length ≤ 258 * us.length := by
  induction us with
  | nil => simp
  | cons u us ih =>
    have hu : u.content.length ≤ 255 := h u List.mem_cons_self
    have hus := ih fun v hv => h v (List.mem_cons_of_mem u hv)
    simp only [wireUnits_cons, List.length_append, wireUnit_length, List.length_cons]
    omega

/-- Settles O20: a list within the block's bounds has a wire form of at most 1 + 258 * MAX_UNITS bytes (00_scope.md
R8), so no field write passes the end of OBUF. -/
theorem encodeNeverFailsWithRoomForEveryUnit : Obligations.EncodeNeverFailsWithRoomForEveryUnit := by
  intro s hUnits hContents hRoom
  have hSize : wireSize s.units ≤ s.params.obufSize :=
    calc wireSize s.units
        = 1 + (wireUnits s.units).length := wireSize_eq s.units
      _ ≤ 1 + 258 * s.units.length := Nat.add_le_add_left (wireUnits_length_le hContents) 1
      _ ≤ 1 + 258 * s.params.maxUnits := by omega
      _ ≤ s.params.obufSize := hRoom
  exact ⟨_, exec_encode_of_fits hSize, succeeded_complete_ok rfl⟩

end Sys2Proof.Machine
end

