-- ==== Sys2Proof/Proofs/CommandEnds.lean ====
section
/-! SUPPORT. What each command can end with, said once for all 21: the parts of the state it may have written when it ends, and what completing it leaves alone. -/

namespace Sys2Proof.Machine

/-- The state a command's pseudocode ends in, the writes made before a `raise` standing (00_scope.md R18). -/
def Ended.state : Ended → State
  | .ok s => s
  | .raised _ s => s

@[simp] theorem Ended.state_ok (s : State) : (Ended.ok s).state = s := rfl
@[simp] theorem Ended.state_raised (e : CmdError) (s : State) : (Ended.raised e s).state = s := rfl

/-- The kinds of command, by the part of the state a success writes (30_encoding.md R90). -/
inductive CommandKind where
  /-- Writes the unit list, or OBUF with its registers, or the list with DEC_STATE: CLEAR, ENCODE, DECODE. -/
  | codec
  /-- Appends one unit: ADD_UNIT and the builders. -/
  | append
  /-- Writes RESULT: the six commands of 10_state.md R29. -/
  | query
  /-- Writes the selected counter. -/
  | counter
deriving DecidableEq

/-- The kind of each command. -/
def commandKind : Instr → CommandKind
  | .clear | .encode | .decode _ => .codec
  | .addUnit _ _ | .addDns4Req | .addDns6Req | .addIpalloc | .addDns4Addr _ | .addPcscf4Addr _ | .addDns6Addr _
  | .addMtu _ => .append
  | .getUnit _ | .getByte _ _ | .cntRead _ | .cntGetOvf _ | .cntGetSqn _ | .timerEnc => .query
  | .cntSet _ _ _ | .cntSetOvf _ _ | .cntSetSqn _ _ | .cntInc _ => .counter

/-- The ends a command can come to from state `s`. -/
inductive CommandEnd (s : State) : Instr → Ended → Prop where
  /-- An error before any write. -/
  | refused (i : Instr) (e : CmdError) (n : Nat) : CommandEnd s i (.raised e (s.drawn n))
  /-- A query's answer in RESULT. -/
  | answered {i : Instr} (kind : commandKind i = .query) (w : Word) : CommandEnd s i (.ok (s.setResult w))
  /-- A new value of a counter that exists. -/
  | counted {i : Instr} (kind : commandKind i = .counter) (v : Nat) {k : Nat} (hk : k < s.params.numCounters) :
    CommandEnd s i (.ok (s.setCount k v))
  /-- One unit more, on a list that was not full. -/
  | appended {i : Instr} (kind : commandKind i = .append) (n : Nat) {u : ContainerUnit}
    (fit : i.wellFormed = true → u.content.length ≤ 255) (room : s.units.length ≠ s.params.maxUnits) :
    CommandEnd s i (.ok ((s.drawn n).setUnits (s.units ++ [u])))
  /-- CLEAR's empty list. -/
  | cleared : CommandEnd s .clear (.ok (s.setUnits []))
  /-- ENCODE's bytes from OBUF[0] on, with success or an error. -/
  | encoded {bytes : List Byte} (fit : bytes.length ≤ s.params.obufSize) {e : Ended}
    (state : e.state = (s.writeObuf 0 bytes).endEncode bytes.length) : CommandEnd s .encode e
  /-- DECODE's new list and DEC_STATE, with success or an error. -/
  | decoded (m n : Nat) {us : List ContainerUnit} {c : BitVec 3} (fit : ContentsFit us)
    (room : us.length ≤ s.params.maxUnits) (code : c.toNat ≤ 5) {e : Ended}
    (state : e.state = ((s.drawn n).setUnits us).endDecode c) : CommandEnd s (.decode m) e

/-! ## One lemma per shared operation -/

/-- An append of a unit ends with CapacityError or with that unit at the end of the list. -/
theorem commandEnd_append {s : State} {i : Instr} (kind : commandKind i = .append) (n : Nat) {u : ContainerUnit}
    (fit : i.wellFormed = true → u.content.length ≤ 255) : CommandEnd s i ((s.drawn n).append u) := by
  rcases append_cases u (s.drawn n) with ⟨_, e⟩ | ⟨room, e⟩ <;> rw [e]
  · exact .refused i _ n
  · exact .appended kind n fit room

/-- An append of an operand ends with the operand's error or as the append does. -/
theorem commandEnd_appendOperand {s : State} {i : Instr} (kind : commandKind i = .append) (id : BitVec 16)
    {c : Except CmdError (List Byte)} (fit : ∀ content, c = .ok content → content.length ≤ 255) :
    CommandEnd s i (s.appendOperand id c) := by
  cases c with
  | error e => exact .refused i e 0
  | ok content => exact commandEnd_append kind 0 fun _ => fit content rfl

/-- A counter query ends with CommandError(BAD_SELECT) or with its answer. -/
theorem commandEnd_counterQuery {s : State} {i : Instr} (kind : commandKind i = .query) (sel : Nat) (w : Word) :
    CommandEnd s i (s.withCounter sel (State.setResult w)) := by
  rcases withCounter_cases sel s (State.setResult w) with ⟨_, e⟩ | ⟨_, e⟩ <;> rw [e]
  · exact .refused i _ 0
  · exact .answered kind w

/-- A counter command ends with CommandError(BAD_SELECT) or with the counter written. -/
theorem commandEnd_counterWrite {s : State} {i : Instr} (kind : commandKind i = .counter) (sel v : Nat) :
    CommandEnd s i (s.withCounter sel (State.setCount sel v)) := by
  rcases withCounter_cases sel s (State.setCount sel v) with ⟨_, e⟩ | ⟨hk, e⟩ <;> rw [e]
  · exact .refused i _ 0
  · exact .counted kind v hk

/-- An accepted IPv4 operand has 4 bytes (41_tlv_builders.md R129). -/
theorem ipv4Operand_length {s : State} {alen : Nat} {bytes : List Byte} (h : s.ipv4Operand alen = .ok bytes) :
    bytes.length = 4 := by
  unfold State.ipv4Operand at h
  split at h
  · cases h; simp [State.addrBytes]
  · split at h
    · split at h
      · cases h; simp [State.addrBytes]
      · cases h
    · cases h

/-- An accepted IPv6 operand has 16 bytes (R130). -/
theorem ipv6Operand_length {s : State} {alen : Nat} {bytes : List Byte} (h : s.ipv6Operand alen = .ok bytes) :
    bytes.length = 16 := by
  unfold State.ipv6Operand at h
  split at h
  · cases h; simp [State.addrBytes]
  · split at h <;> cases h

/-! ## ENCODE and DECODE -/

/-- ENCODE ends having written some bytes that fit in OBUF from its start (40_tlv_codec.md R104-R106). -/
theorem commandEnd_encode (s : State) :
    CommandEnd s .encode (s.put .metaByte [0x80] 0 fun o t => encodeUnits s.units o t) := by
  rcases put_cases .metaByte [0x80] 0 s (fun o t => encodeUnits s.units o t) with ⟨_, e⟩ | ⟨h, e⟩ <;> rw [e]
  · exact .encoded (bytes := []) (by simp) rfl
  · obtain ⟨bytes, fit, hend⟩ := encodeUnits_cases s.units (0 + [(0x80 : Byte)].length) (s.writeObuf 0 [0x80]) h
    rw [writeObuf_append] at hend
    have total : 0 + [(0x80 : Byte)].length + bytes.length = ([0x80] ++ bytes).length := by simp; omega
    rw [total] at fit hend
    rcases hend with e | ⟨f, e⟩ <;> rw [e] <;> exact .encoded (s := s) fit rfl

/-- DECODE ends with CommandError(BAD_OPERAND), or with a list that fits the block and a DEC_STATE of its state machine
(R107-R116). -/
theorem commandEnd_decode (n : Nat) (s : State) :
    CommandEnd s (.decode n) (if n > s.params.ibufSize then Ended.raised (.command .badOperand) s
      else decodeLoop (n + 1) ((s.setUnits []).setDecoding ⟨.metaByte, 0, n⟩)) := by
  split
  · exact .refused _ _ 0
  · obtain ⟨us, m, c, fit, room, hend⟩ := decodeLoop_cases (n + 1) ((s.setUnits []).setDecoding ⟨.metaByte, 0, n⟩)
      ⟨.metaByte, 0, n⟩ rfl trivial (Nat.lt_succ_self n)
    rcases hend with e | ⟨_, e, he⟩ <;> rw [e]
    · exact .decoded (s := s) n m fit (room (Nat.zero_le _)) (c := 5) (by decide) rfl
    · exact .decoded (s := s) n m fit (room (Nat.zero_le _)) (Nat.le_trans he.bounds.2 (by decide)) rfl

/-! ## Every command -/

/-- Every command completes one of the ends its kind allows. -/
theorem exec_commandEnd (i : Instr) (s : State) : ∃ e, exec i s = .next e.complete ∧ CommandEnd s i e := by
  cases i with
  | clear => exact ⟨_, rfl, .cleared⟩
  | encode => exact ⟨_, rfl, commandEnd_encode s⟩
  | decode n => exact ⟨_, rfl, commandEnd_decode n s⟩
  | addUnit id len =>
    refine ⟨_, rfl, commandEnd_append rfl len fun h => ?_⟩
    simp only [Instr.wellFormed, fits8, Bool.and_eq_true, decide_eq_true_eq] at h
    simpa using h.2
  | addDns4Req => exact ⟨_, rfl, commandEnd_append rfl 0 fun _ => by simp⟩
  | addDns6Req => exact ⟨_, rfl, commandEnd_append rfl 0 fun _ => by simp⟩
  | addIpalloc => exact ⟨_, rfl, commandEnd_append rfl 0 fun _ => by simp⟩
  | addMtu mtu => exact ⟨_, rfl, commandEnd_append rfl 0 fun _ => by simp [bytes16]⟩
  | addDns4Addr alen =>
    exact ⟨_, rfl, commandEnd_appendOperand rfl _ fun _ h => by simp [ipv4Operand_length h]⟩
  | addPcscf4Addr alen =>
    exact ⟨_, rfl, commandEnd_appendOperand rfl _ fun _ h => by simp [ipv4Operand_length h]⟩
  | addDns6Addr alen =>
    exact ⟨_, rfl, commandEnd_appendOperand rfl _ fun _ h => by simp [ipv6Operand_length h]⟩
  | getUnit idx =>
    refine ⟨_, rfl, ?_⟩
    split
    · exact .refused _ _ 0
    · exact .answered rfl _
  | getByte idx bidx =>
    refine ⟨_, rfl, ?_⟩
    split
    · exact .refused _ _ 0
    · split
      · exact .refused _ _ 0
      · exact .answered rfl _
  | cntRead sel => exact ⟨_, rfl, commandEnd_counterQuery rfl sel _⟩
  | cntGetOvf sel => exact ⟨_, rfl, commandEnd_counterQuery rfl sel _⟩
  | cntGetSqn sel => exact ⟨_, rfl, commandEnd_counterQuery rfl sel _⟩
  | cntSet sel ovf sqn => exact ⟨_, rfl, commandEnd_counterWrite rfl sel _⟩
  | cntSetOvf sel ovf => exact ⟨_, rfl, commandEnd_counterWrite rfl sel _⟩
  | cntSetSqn sel sqn => exact ⟨_, rfl, commandEnd_counterWrite rfl sel _⟩
  | cntInc sel => exact ⟨_, rfl, commandEnd_counterWrite rfl sel _⟩
  | timerEnc =>
    refine ⟨_, rfl, ?_⟩
    split
    · exact .refused _ _ 0
    · exact .answered rfl _

/-- The state a command leaves is the completion of one of its ends. -/
theorem commandEnd_of_exec {i : Instr} {s t : State} (h : exec i s = .next t) :
    ∃ e, t = e.complete ∧ CommandEnd s i e := by
  obtain ⟨e, he, hend⟩ := exec_commandEnd i s
  rw [he] at h
  exact ⟨e, by cases h; rfl, hend⟩

/-! ## What completing a command leaves alone (30_encoding.md R84) -/

section complete
variable (e : Ended)

@[simp] theorem complete_result : e.complete.result = e.state.result := by cases e <;> rfl
@[simp] theorem complete_units : e.complete.units = e.state.units := by cases e <;> rfl
@[simp] theorem complete_obuf : e.complete.obuf = e.state.obuf := by cases e <;> rfl
@[simp] theorem complete_outLen : e.complete.outLen = e.state.outLen := by cases e <;> rfl
@[simp] theorem complete_obufPtr : e.complete.obufPtr = e.state.obufPtr := by cases e <;> rfl
@[simp] theorem complete_decState : e.complete.decState = e.state.decState := by cases e <;> rfl

/-- A state has its operands unchanged after completion exactly when it had before. -/
@[simp] theorem operandsUnchanged_complete {s : State} :
    OperandsUnchanged s e.complete ↔ OperandsUnchanged s e.state := by cases e <;> exact Iff.rfl

/-- A frame holds after completion exactly when it held before. -/
@[simp] theorem unchangedBut_complete {written : List Part} {s : State} :
    UnchangedBut written s e.complete ↔ UnchangedBut written s e.state := by cases e <;> exact Iff.rfl

end complete

end Sys2Proof.Machine
end

