-- ==== Sys2Proof/Proofs/CommandFrames.lean ====
section
/-! SUPPORT. What no command writes, and which commands write RESULT, the unit list, OBUF with its registers, and DEC_STATE. -/

namespace Sys2Proof.Machine

/-- However a command ends, its operands and what is outside the engine are as they were. -/
theorem CommandEnd.operandsUnchanged {s : State} {i : Instr} {e : Ended} (h : CommandEnd s i e) :
    OperandsUnchanged s e.state := by
  cases h with
  | refused | answered | counted | appended | cleared => simp [OperandsUnchanged]
  | encoded fit state => simp [OperandsUnchanged, state]
  | decoded m n fit room code state => simp [OperandsUnchanged, state]

/-- A command that ends with another RESULT is a query, and has succeeded. -/
theorem CommandEnd.query_of_result {s : State} {i : Instr} {e : Ended} (h : CommandEnd s i e)
    (hne : e.state.result ≠ s.result) : commandKind i = .query ∧ e.complete.err = false := by
  cases h with
  | answered kind w => exact ⟨kind, rfl⟩
  | refused | counted | appended | cleared => simp at hne
  | encoded fit state => simp [state] at hne
  | decoded m n fit room code state => simp [state] at hne

/-- A command that ends with another unit list is CLEAR, DECODE or a command that appends. -/
theorem CommandEnd.listCommand_of_units {s : State} {i : Instr} {e : Ended} (h : CommandEnd s i e)
    (hne : e.state.units ≠ s.units) : i = .clear ∨ (∃ n, i = .decode n) ∨ commandKind i = .append := by
  cases h with
  | cleared => exact .inl rfl
  | decoded m => exact .inr (.inl ⟨m, rfl⟩)
  | appended kind => exact .inr (.inr kind)
  | refused | answered | counted => simp at hne
  | encoded fit state => simp [state] at hne

/-- A command other than ENCODE ends with OBUF and its two registers as they were. -/
theorem CommandEnd.obuf_of_ne_encode {s : State} {i : Instr} {e : Ended} (h : CommandEnd s i e) (hi : i ≠ .encode) :
    e.state.obuf = s.obuf ∧ e.state.outLen = s.outLen ∧ e.state.obufPtr = s.obufPtr := by
  cases h with
  | encoded => exact absurd rfl hi
  | refused | answered | counted | appended | cleared => simp
  | decoded m n fit room code state => simp [state]

/-- A command other than DECODE ends with DEC_STATE as it was. -/
theorem CommandEnd.decState_of_ne_decode {s : State} {i : Instr} {e : Ended} (h : CommandEnd s i e)
    (hi : ∀ n, i ≠ .decode n) : e.state.decState = s.decState := by
  cases h with
  | decoded m => exact absurd rfl (hi m)
  | refused | answered | counted | appended | cleared => simp
  | encoded fit state => simp [state]

/-- Settles O13. -/
theorem noCommandWritesItsOperands : Obligations.NoCommandWritesItsOperands := by
  intro i s t h
  obtain ⟨e, rfl, hend⟩ := commandEnd_of_exec h
  exact (operandsUnchanged_complete e).2 hend.operandsUnchanged

/-- Settles O14: the queries are the six commands of 10_state.md R29. -/
theorem onlySuccessfulQueriesWriteResult : Obligations.OnlySuccessfulQueriesWriteResult := by
  intro i s t h hne
  obtain ⟨e, rfl, hend⟩ := commandEnd_of_exec h
  obtain ⟨kind, success⟩ := hend.query_of_result (by simpa using hne)
  refine ⟨success, ?_⟩
  cases i <;> simp [commandKind] at kind ⊢

/-- Settles O15: the commands that append are ADD_UNIT and the seven builders. -/
theorem onlyListCommandsChangeTheList : Obligations.OnlyListCommandsChangeTheList := by
  intro i s t h hne
  obtain ⟨e, rfl, hend⟩ := commandEnd_of_exec h
  rcases hend.listCommand_of_units (by simpa using hne) with rfl | ⟨n, rfl⟩ | kind
  · simp
  · simp
  · cases i <;> simp [commandKind] at kind ⊢

/-- Settles O16. -/
theorem onlyTheCodecWritesItsRegisters : Obligations.OnlyTheCodecWritesItsRegisters := by
  intro i s t h
  obtain ⟨e, rfl, hend⟩ := commandEnd_of_exec h
  constructor
  · intro hi
    obtain ⟨hobuf, hlen, hptr⟩ := hend.obuf_of_ne_encode hi
    simp [hobuf, hlen, hptr]
  · intro hi
    simpa using hend.decState_of_ne_decode hi

end Sys2Proof.Machine
end

