-- ==== Sys2Proof/Proofs/Invariant.lean ====
section
/-! SUPPORT. The machine's invariant: what each named update, each command's end and each host access does to it, and from there every step. -/

namespace Sys2Proof.Machine

/-! ## Facts about the parameters and the words -/

/-- A legal block has at most 4 counters (00_scope.md R6). -/
theorem numCounters_le_of_legal {p : Params} (h : p.legal = true) : p.numCounters ≤ 4 := by
  simp only [Params.legal, Bool.and_eq_true, decide_eq_true_eq] at h
  omega

/-- A legal block's IBUF has 256 to 65536 bytes (R8). -/
theorem ibufSize_of_legal {p : Params} (h : p.legal = true) : 256 ≤ p.ibufSize ∧ p.ibufSize ≤ 65536 := by
  simp only [Params.legal, Bool.and_eq_true, List.any_eq_true, List.mem_range, beq_iff_eq] at h
  obtain ⟨⟨⟨_, k, hk, e⟩, _⟩, _⟩ := h
  rw [e]
  exact ⟨Nat.pow_le_pow_right (n := 2) (i := 8) (by decide) (by omega),
    Nat.pow_le_pow_right (n := 2) (j := 16) (by decide) (by omega)⟩

/-- A legal block's OBUF has 1 to 65536 bytes (R8). -/
theorem obufSize_of_legal {p : Params} (h : p.legal = true) : 1 ≤ p.obufSize ∧ p.obufSize ≤ 65536 := by
  simp only [Params.legal, Bool.and_eq_true, List.any_eq_true, List.mem_range, beq_iff_eq] at h
  obtain ⟨⟨_, k, hk, e⟩, _⟩ := h
  rw [e]
  exact ⟨Nat.pow_le_pow_right (n := 2) (i := 0) (by decide) (by omega),
    Nat.pow_le_pow_right (n := 2) (j := 16) (by decide) (by omega)⟩

/-- Every error kind has a legal code and detail (60_exceptions.md R171, R172). -/
theorem legalReport_error (e : CmdError) : legalReport true e.code e.detail = true := by
  cases e with
  | encoding f => cases f <;> decide
  | truncatedInput f => cases f <;> decide
  | invalidGranularity g => cases g <;> decide
  | command c => cases c <;> decide
  | invalidAddressFamily => decide
  | invalidLength => decide
  | capacity => decide

/-- A field of `hi - lo + 1` bits is below 2 to that power. -/
theorem bits_lt (w : Word) (hi lo : Nat) : bits w hi lo < 2 ^ (hi - lo + 1) :=
  Nat.mod_lt _ (Nat.two_pow_pos _)

/-- The operands the opcode map reads fit their fields (30_encoding.md R89). -/
theorem wellFormed_of_opcodeRow {op : Nat} {w : Word} {f : Format} {i : Instr}
    (h : opcodeRow op w = some (f, i)) : i.wellFormed = true := by
  have b16 := Nat.le_of_lt_succ (bits_lt w 23 8)
  have b16' := Nat.le_of_lt_succ (bits_lt w 15 0)
  have b8 := Nat.le_of_lt_succ (bits_lt w 7 0)
  have b5 := Nat.le_of_lt_succ (bits_lt w 4 0)
  have b2 := Nat.le_of_lt_succ (bits_lt w 25 24)
  unfold opcodeRow at h
  split at h <;> cases h <;> simp [Instr.wellFormed, fits16, fits8, fitsAlen, fitsSel] <;> omega

/-- The operands of a decoded command fit their fields (R97). -/
theorem wellFormed_of_decode {w : Word} {i : Instr} (h : decode w = .ok i) : i.wellFormed = true := by
  rcases decode_cases w with ⟨_, e⟩ | ⟨f, j, row, ⟨_, e⟩ | ⟨_, e⟩⟩ <;> rw [e] at h <;> cases h
  exact wellFormed_of_opcodeRow row

/-! ## The reset state -/

/-- The reset state of legal parameters has the invariant (10_state.md R51). -/
theorem inv_resetOf {p : Params} (h : p.legal = true) : (State.resetOf p).Inv where
  params_legal := h
  counts_masked k _ := by rcases k with _ | _ | _ | k <;> exact (by decide : (0 : Word).toNat < 2 ^ 24)
  units_bounded := Nat.zero_le _
  contents_fit _ hu := absurd hu List.not_mem_nil
  ibufPtr_in := Nat.lt_of_lt_of_le (by decide : (0 : Word).toNat < 256) (ibufSize_of_legal h).1
  obufPtr_in := Nat.lt_of_lt_of_le (by decide : (0 : Word).toNat < 1) (obufSize_of_legal h).1
  outLen_in := Nat.zero_le _
  ibuf_wf := ⟨List.Pairwise.nil, fun _ hc => absurd hc List.not_mem_nil⟩
  obuf_wf := ⟨List.Pairwise.nil, fun _ hc => absurd hc List.not_mem_nil⟩
  report_legal := rfl
  decState_legal := (by decide : (0 : BitVec 3).toNat ≤ 5)
  decode_gone := rfl
  reset_quiet h := by cases h

/-- The STATUS word is 0 after reset (R51). -/
theorem statusWord_resetOf (p : Params) : (State.resetOf p).statusWord = 0 := by
  simp [State.statusWord, State.resetOf, State.busy]

/-- Settles O58. -/
theorem resetStateMeetsTheTableAndTheInvariant : Obligations.ResetStateMeetsTheTableAndTheInvariant := by
  intro p h
  refine ⟨inv_resetOf h, statusWord_resetOf p, rfl, rfl, rfl, rfl, rfl, fun k _ => ?_, fun k _ => ?_, rfl, rfl,
    fun _ => rfl, fun _ => rfl⟩
  · rcases k with _ | _ | _ | k <;> rfl
  · rcases k with _ | _ | _ | k <;> rfl

/-! ## The named updates -/

section updates
variable {s : State}

theorem State.Inv.drawn (h : s.Inv) (n : Nat) : (s.drawn n).Inv := { h with }
theorem State.Inv.setPort (h : s.Inv) (es : List PortEvent) : (s.setPort es).Inv := { h with }
theorem State.Inv.setAnswer (h : s.Inv) (w : Option Word) : (s.setAnswer w).Inv := { h with }
theorem State.Inv.setResult (h : s.Inv) (w : Word) : (s.setResult w).Inv := { h with }
theorem State.Inv.clearSticky (h : s.Inv) : s.clearSticky.Inv := { h with }

/-- Outside reset an access may be held (20_memory.md R57). -/
theorem State.Inv.setHeld (h : s.Inv) (live : s.inReset = false) (a : Option Access) : (s.setHeld a).Inv :=
  { h with reset_quiet := fun hr => by simp [live] at hr }

/-- Outside reset a command may run (R65). -/
theorem State.Inv.setRunning (h : s.Inv) (live : s.inReset = false) (w : Word) : (s.setRunning w).Inv :=
  { h with reset_quiet := fun hr => by simp [live] at hr }

/-- A pointer reduced modulo IBUF_SIZE is an index of IBUF (R59, R60). -/
theorem State.Inv.setIbufPtr (h : s.Inv) (v : Nat) : (s.setIbufPtr (pointerOf v s.params.ibufSize)).Inv := by
  obtain ⟨low, high⟩ := ibufSize_of_legal h.params_legal
  exact { h with ibufPtr_in := pointerOf_lt v (by omega) (by omega) }

/-- A pointer reduced modulo OBUF_SIZE is an index of OBUF (R62, R63). -/
theorem State.Inv.setObufPtr (h : s.Inv) (v : Nat) : (s.setObufPtr (pointerOf v s.params.obufSize)).Inv := by
  obtain ⟨low, high⟩ := obufSize_of_legal h.params_legal
  exact { h with obufPtr_in := pointerOf_lt v (by omega) (by omega) }

theorem State.Inv.writeIbuf (h : s.Inv) {a : Nat} (ha : a < s.params.ibufSize) (b : Byte) : (s.writeIbuf a b).Inv :=
  { h with ibuf_wf := ⟨Memory.write_wf h.ibuf_wf.1 a b, Memory.write_within h.ibuf_wf.2 ha b⟩ }

theorem State.Inv.setArg (h : s.Inv) (k : Nat) (w : Word) : (s.setArg k w).Inv := by
  rcases k with _ | _ | _ | k <;> exact { h with }

/-- A counter write keeps bits 31:24 of every counter 0 (10_state.md R34). -/
theorem State.Inv.setCount (h : s.Inv) {k : Nat} (hk : k < 4) (v : Nat) : (s.setCount k v).Inv := by
  have masked : ∀ j, j < 4 → ((s.setCount k v).count j).toNat < 2 ^ 24 := by
    intro j hj
    by_cases e : j = k
    · rw [e, setCount_count_same, BitVec.toNat_ofNat]
      omega
    · rw [setCount_count_other s k v hk hj e]
      exact h.counts_masked j hj
  rcases k with _ | _ | _ | k <;> exact { h with counts_masked := masked }

theorem State.Inv.setUnits (h : s.Inv) {us : List ContainerUnit} (room : us.length ≤ s.params.maxUnits)
    (fit : ContentsFit us) : (s.setUnits us).Inv :=
  { h with units_bounded := room, contents_fit := fit }

theorem State.Inv.endDecode (h : s.Inv) {c : BitVec 3} (hc : c.toNat ≤ 5) : (s.endDecode c).Inv :=
  { h with decState_legal := hc, decode_gone := rfl }

/-- ENCODE's bytes from OBUF[0] on keep OBUF's store in form, and their number is an OUT_LEN (40_tlv_codec.md R106). -/
theorem State.Inv.encoded (h : s.Inv) {bytes : List Byte} (fit : bytes.length ≤ s.params.obufSize) :
    ((s.writeObuf 0 bytes).endEncode bytes.length).Inv :=
  { h with
    obufPtr_in := (obufSize_of_legal h.params_legal).1
    outLen_in := by
      rw [endEncode_outLen, BitVec.toNat_ofNat]
      exact Nat.le_trans (Nat.mod_le _ _) fit
    obuf_wf := ⟨Memory.writeBytes_wf bytes h.obuf_wf.1 0,
      Memory.writeBytes_within bytes h.obuf_wf.2 (by rwa [Nat.zero_add])⟩ }

/-- Asserting reset leaves no command running and no access held (70_reset_and_hazards.md R196, R199). -/
theorem State.Inv.assertReset (h : s.Inv) : s.assertReset.Inv :=
  { h with decode_gone := rfl, reset_quiet := fun _ => ⟨rfl, rfl⟩ }

theorem State.Inv.releaseReset (h : s.Inv) : s.releaseReset.Inv := { inv_resetOf h.params_legal with }

/-- The end of the envelope reports success or a legal error, and no command runs (30_encoding.md R84). -/
theorem State.Inv.complete {e : Ended} (h : e.state.Inv) : e.complete.Inv := by
  cases e with
  | ok s => exact { h with report_legal := rfl, reset_quiet := fun hr => ⟨rfl, (h.reset_quiet hr).2⟩ }
  | raised e s =>
    exact { h with
      report_legal := legalReport_error e
      reset_quiet := fun hr => ⟨rfl, (h.reset_quiet hr).2⟩ }

end updates

/-! ## Commands -/

/-- A command whose operands fit their fields ends in a state that keeps the invariant. -/
theorem CommandEnd.inv {s : State} {i : Instr} {e : Ended} (h : CommandEnd s i e) (hi : i.wellFormed = true)
    (hs : s.Inv) : e.state.Inv := by
  cases h with
  | refused _ _ n => exact hs.drawn n
  | answered _ w => exact hs.setResult w
  | counted _ v hk => exact hs.setCount (Nat.lt_of_lt_of_le hk (numCounters_le_of_legal hs.params_legal)) v
  | appended _ n fit room =>
    refine (hs.drawn n).setUnits ?_ fun v hv => ?_
    · have := hs.units_bounded
      simp only [List.length_append, List.length_singleton, drawn_params]
      omega
    · rcases List.mem_append.1 hv with hv | hv
      · exact hs.contents_fit v hv
      · rw [List.mem_singleton.1 hv]
        exact fit hi
  | cleared => exact hs.setUnits (Nat.zero_le _) fun _ hu => absurd hu List.not_mem_nil
  | encoded fit state => rw [state]; exact hs.encoded fit
  | decoded m n fit room code state => rw [state]; exact ((hs.drawn n).setUnits room fit).endDecode code

/-- The running word's command, or its CommandError, keeps the invariant. -/
theorem inv_runCommand {w : Word} {s t : State} (hs : s.Inv) (h : runCommand w s = .next t) : t.Inv := by
  cases hd : decode w with
  | error e =>
    rw [runCommand_illegal hd] at h
    cases h
    exact State.Inv.complete (e := .raised _ s) hs
  | ok i =>
    rw [runCommand_decoded hd] at h
    obtain ⟨e, rfl, hend⟩ := commandEnd_of_exec h
    exact (hend.inv (wellFormed_of_decode hd) hs).complete

/-! ## Host accesses (20_memory.md R55-R67) -/

theorem State.Inv.afterRead {s : State} (h : s.Inv) (r : Reg) : (s.afterRead r).Inv := by
  cases r with
  | status =>
    simp only [State.afterRead]
    split
    · exact h.drawn 1
    · exact h
  | ibufData => exact (h.drawn 1).setIbufPtr _
  | obufData => exact (h.drawn 1).setObufPtr _
  | cmd | result | unitCount | outLen | ibufPtr | obufPtr | arg | count | unmapped => exact h

theorem State.Inv.writeReg {s : State} (h : s.Inv) (live : s.inReset = false) (r : Reg) (w : Word) :
    (s.writeReg r w).Inv := by
  cases r with
  | cmd => exact h.setRunning live w
  | status =>
    simp only [State.writeReg]
    split
    · exact h.clearSticky
    · exact h
  | ibufPtr => exact h.setIbufPtr _
  | ibufData => exact (h.writeIbuf h.ibufPtr_in _).setIbufPtr _
  | obufPtr => exact h.setObufPtr _
  | arg k => exact h.setArg k w
  | result | unitCount | outLen | obufData | count | unmapped => exact h

/-- An access that is performed keeps the invariant. -/
theorem State.Inv.perform {s : State} (h : s.Inv) (live : s.inReset = false) (a : Access) : (s.perform a).Inv := by
  cases a with
  | read addr =>
    simp only [State.perform]
    split
    · exact (h.afterRead _).setAnswer _
    · exact h.setAnswer _
  | write addr w =>
    simp only [State.perform]
    split
    · exact h.writeReg live _ w
    · exact h

/-- An access that is ignored in reset keeps the invariant. -/
theorem State.Inv.ignore {s : State} (h : s.Inv) (a : Access) : (s.ignore a).Inv := by
  cases a with
  | read addr => exact h.setAnswer none
  | write addr w => exact h

/-! ## Steps, by what the block is doing -/

theorem inv_resetTurn {s : State} (h : s.Inv) : (resetTurn s).Inv := by
  unfold resetTurn
  split
  · exact h
  · exact (h.setPort _).ignore _
  · exact h.setPort _
  · exact h.setPort _
  · exact (h.setPort _).releaseReset

theorem inv_idleTurn {s : State} (h : s.Inv) (live : s.inReset = false) : (idleTurn s).Inv := by
  unfold idleTurn
  split
  · exact (h.setHeld live none).perform live _
  · split
    · exact h
    · next a rest _ => exact (h.setPort rest).perform live a
    · exact h.setPort _
    · exact (h.setPort _).assertReset
    · exact h.setPort _

theorem inv_busyTurn {w : Word} {s t : State} (h : s.Inv) (live : s.inReset = false) (ht : busyTurn w s = .next t) :
    t.Inv := by
  unfold busyTurn at ht
  split at ht
  · exact inv_runCommand h ht
  · next a rest _ =>
    split at ht
    · cases ht; exact (h.setPort rest).perform live a
    · split at ht
      · cases ht; exact (h.setHeld live _).setPort _
      · exact inv_runCommand h ht
  · exact inv_runCommand (h.setPort _) ht
  · cases ht; exact (h.setPort _).assertReset
  · cases ht; exact h.setPort _

/-- Settles O57: in reset, idle or with a command running, the step is made of operations that keep the invariant. -/
theorem stepKeepsTheInvariant : Obligations.StepKeepsTheInvariant := by
  intro s t h ht
  cases live : s.inReset with
  | true =>
    rw [step_in_reset live] at ht
    cases ht
    exact inv_resetTurn h
  | false =>
    cases hw : s.running with
    | none =>
      rw [step_not_running live hw] at ht
      cases ht
      exact inv_idleTurn h live
    | some w =>
      rw [step_running live hw] at ht
      exact inv_busyTurn h live ht

end Sys2Proof.Machine
end

