-- ==== Sys2Proof/Proofs/Appends.lean ====
section
/-! SUPPORT. The commands that append a unit: on a list with room and on a full one. -/

namespace Sys2Proof.Machine

/-- A command that raises before any write changes nothing but STATUS. -/
theorem unchanged_of_raised (s : State) (e : CmdError) (n : Nat) :
    UnchangedBut [] s (Ended.raised e (s.drawn n)).complete := by
  simp [UnchangedBut, OperandsUnchanged]

/-- A command that succeeds with a new unit list changes nothing but that list and STATUS. -/
theorem unchanged_but_units (s : State) (us : List ContainerUnit) (n : Nat) :
    UnchangedBut [.units] s (Ended.ok ((s.drawn n).setUnits us)).complete := by
  simp [UnchangedBut, OperandsUnchanged]

/-- A command that raises reports its error's code and detail (30_encoding.md R84). -/
theorem failed_complete_raised (s : State) (e : CmdError) : Failed e.code e.detail (Ended.raised e s).complete :=
  ⟨rfl, rfl, rfl, rfl, rfl⟩

/-- An append to a list with room adds the unit at its end. -/
theorem append_of_room {s : State} (room : s.units.length < s.params.maxUnits) (u : ContainerUnit) :
    s.append u = .ok (s.setUnits (s.units ++ [u])) := by
  rcases append_cases u s with ⟨full, _⟩ | ⟨_, e⟩
  · omega
  · exact e

/-- An append to a full list raises CapacityError (10_state.md R38). -/
theorem append_of_full {s : State} (full : s.units.length = s.params.maxUnits) (u : ContainerUnit) :
    s.append u = .raised .capacity s := by
  rcases append_cases u s with ⟨_, e⟩ | ⟨room, _⟩
  · exact e
  · exact absurd full room

/-- Settles O31. -/
theorem addUnitAppendsTheIbufBytes : Obligations.AddUnitAppendsTheIbufBytes := by
  intro s id len _ _ room
  have appended : exec (.addUnit id len) s = .next (Ended.ok
      ((s.drawn len).setUnits (s.units ++ [⟨BitVec.ofNat 16 id, s.ibufBytes 0 len⟩]))).complete := by
    show Host.Outcome.next ((s.drawn len).append ⟨BitVec.ofNat 16 id, s.ibufBytes 0 len⟩).complete = _
    rw [append_of_room (s := s.drawn len) room, drawn_units]
  refine ⟨_, s.ibufBytes 0 len, appended, succeeded_complete_ok rfl, rfl, ibufBytes_length s 0 len, ?_,
    unchanged_but_units s _ len⟩
  intro j b hj hb
  have written : s.ibufByte (0 + j) j = b := ibufByte_written (by rwa [Nat.zero_add]) j
  simpa [State.ibufBytes, hj] using written

/-- ARG0-ARG2 hold the first twelve bytes of an IPv4-mapped address (41_tlv_builders.md R129). -/
theorem v4Mapped_of_args {s : State} (h0 : s.arg0 = 0) (h1 : s.arg1 = 0) (h2 : s.arg2 = 0x0000FFFF) :
    s.v4Mapped = true := by
  have bytes : ∀ k, k < 12 → s.addrByte k = if k < 10 then 0x00 else 0xFF := by
    intro k hk
    interval_cases k <;> simp [State.addrByte, State.arg, h0, h1, h2]
  simp [State.v4Mapped, State.addrBytes, List.range_succ, bytes]

/-- An IPv4-mapped address is accepted where ACCEPT_V4MAPPED is true, as the four bytes of ARG3 (R129). -/
theorem ipv4Operand_mapped {s : State} (accept : s.params.acceptV4Mapped = true) (mapped : s.v4Mapped = true) :
    s.ipv4Operand 16 = .ok (s.addrBytes 12 4) := by
  simp [State.ipv4Operand, accept, mapped]

/-- A command that appends on a full list raises CapacityError and changes nothing but STATUS. -/
theorem capacityError_of_full {s : State} {i : Instr} {n : Nat} {u : ContainerUnit}
    (full : s.units.length = s.params.maxUnits) (h : exec i s = .next ((s.drawn n).append u).complete) :
    ∃ t, exec i s = .next t ∧ Failed 7 1 t ∧ UnchangedBut [] s t := by
  rw [append_of_full (s := s.drawn n) full] at h
  exact ⟨_, h, failed_complete_raised _ .capacity, unchanged_of_raised s _ n⟩

/-- An operand that was accepted makes no difference to it. -/
theorem capacityError_of_full_operand {s : State} {i : Instr} {id : BitVec 16} {c : Except CmdError (List Byte)}
    {content : List Byte} (full : s.units.length = s.params.maxUnits) (accepted : c = .ok content)
    (h : exec i s = .next (s.appendOperand id c).complete) :
    ∃ t, exec i s = .next t ∧ Failed 7 1 t ∧ UnchangedBut [] s t := by
  subst accepted
  exact capacityError_of_full full (n := 0) h

/-- Settles O36. -/
theorem appendToAFullListRaisesCapacityError : Obligations.AppendToAFullListRaisesCapacityError := by
  intro s id len mtu _ _ _ full
  constructor
  · intro i hi
    simp only [List.mem_cons, List.not_mem_nil, or_false] at hi
    rcases hi with rfl | rfl | rfl | rfl | rfl | rfl | rfl | rfl
    · exact capacityError_of_full full (n := len) rfl
    all_goals exact capacityError_of_full full (n := 0) rfl
  · intro accept h0 h1 h2 i hi
    have operand := ipv4Operand_mapped accept (v4Mapped_of_args h0 h1 h2)
    simp only [List.mem_cons, List.not_mem_nil, or_false] at hi
    rcases hi with rfl | rfl
    all_goals exact capacityError_of_full_operand full operand rfl

end Sys2Proof.Machine
end

