-- ==== Sys2Proof/Proofs/DecodeWritten.lean ====
section
/-! SUPPORT. DECODE of bytes that IBUF holds: the steps that read one unit, the units read one after the other, and the unit that no longer fits. -/

namespace Sys2Proof.Machine

/-! ## Wire forms -/

/-- The wire form of joined lists is the joined wire forms (40_tlv_codec.md R102). -/
@[simp] theorem wireUnits_append (us vs : List ContainerUnit) :
    wireUnits (us ++ vs) = wireUnits us ++ wireUnits vs := by
  simp [wireUnits]

/-- The header a unit's wire form begins with, and the content after it (R101). -/
theorem holds_wireUnit {m : Memory} {a : Nat} {u : ContainerUnit} :
    Holds m a (wireUnit u) ↔
      m.read a = some (BitVec.ofNat 8 (u.id.toNat / 256)) ∧ m.read (a + 1) = some (BitVec.ofNat 8 (u.id.toNat % 256))
        ∧ m.read (a + 2) = some (BitVec.ofNat 8 u.content.length) ∧ Holds m (a + 3) u.content := by
  simp only [wireUnit, List.cons_append, List.nil_append, holds_cons, Nat.add_assoc]

/-! ## The steps that read one unit -/

/-- A step that leaves a unit open, or a byte remaining, is followed by the next step (R113). -/
theorem decodeLoop_goes_on {s t : State} {d : DecodeState} (fuel : Nat) (h : decodeStep s = .ok (t.setDecoding d))
    (more : d.st ≠ .readingId ∨ d.rem ≠ 0) : decodeLoop (fuel + 1) s = decodeLoop fuel (t.setDecoding d) := by
  have unfinished : (t.setDecoding d).decodeFinished = false := by
    rcases more with h | h <;> simp [State.decodeFinished, h]
  rw [decodeLoop_ok fuel h, unfinished]
  rfl

/-- The append of a decoded unit does not depend on the decode state it replaces. -/
theorem decodeAppend_setDecoding (d next x : DecodeState) (u : ContainerUnit) (s : State) :
    decodeAppend d next u (s.setDecoding x) = decodeAppend d next u s := by
  rcases decodeAppend_cases d next u (s.setDecoding x) with ⟨h, e⟩ | ⟨h, e⟩ <;>
    rcases decodeAppend_cases d next u s with ⟨h', e'⟩ | ⟨h', e'⟩
  · rw [e, e']; rfl
  · exact absurd h h'
  · exact absurd h' h
  · rw [e, e']; rfl

/-- Draws taken one after the other are one draw of their number. -/
theorem drawn_drawn (s : State) (m n : Nat) : (s.drawn m).drawn n = s.drawn (m + n) := by
  simp [State.drawn, Nat.add_assoc]

/-- READING_ID of two written bytes reads the id they spell (R110). -/
theorem decodeStep_id {s : State} {cur rem : Nat} {id : BitVec 16} (hd : s.decoding = some ⟨.readingId, cur, rem⟩)
    (hi : s.ibuf.read cur = some (BitVec.ofNat 8 (id.toNat / 256)))
    (lo : s.ibuf.read (cur + 1) = some (BitVec.ofNat 8 (id.toNat % 256))) (room : 2 ≤ rem) :
    decodeStep s = .ok ((s.drawn 2).setDecoding ⟨.readingLength id, cur + 2, rem - 2⟩) := by
  simp only [decodeStep, hd, decodeId, ibufByte_written hi, ibufByte_written lo, be16_bytes]
  exact if_neg (by omega)

/-- READING_LENGTH of a written 0 appends an empty unit (R111). -/
theorem decodeStep_length_zero {s : State} {cur rem : Nat} {id : BitVec 16}
    (hd : s.decoding = some ⟨.readingLength id, cur, rem⟩) (len : s.ibuf.read cur = some 0) (room : 1 ≤ rem) :
    decodeStep s = decodeAppend ⟨.readingLength id, cur, rem⟩ ⟨.readingId, cur + 1, rem - 1⟩ ⟨id, []⟩
      (s.drawn 1) := by
  simp only [decodeStep, hd, decodeLength, ibufByte_written len, if_true]
  exact if_neg (by omega)

/-- READING_LENGTH of a written byte other than 0 goes on to the content (R111). -/
theorem decodeStep_length {s : State} {cur rem : Nat} {id : BitVec 16} {len : Byte}
    (hd : s.decoding = some ⟨.readingLength id, cur, rem⟩) (written : s.ibuf.read cur = some len) (pos : len ≠ 0)
    (room : 1 ≤ rem) :
    decodeStep s = .ok ((s.drawn 1).setDecoding ⟨.readingContent id len, cur + 1, rem - 1⟩) := by
  simp only [decodeStep, hd, decodeLength, ibufByte_written written, if_neg pos]
  exact if_neg (by omega)

/-- READING_CONTENT of written bytes appends the unit of them (R112). -/
theorem decodeStep_content {s : State} {cur rem : Nat} {id : BitVec 16} {content : List Byte} {len : Byte}
    (hd : s.decoding = some ⟨.readingContent id len, cur, rem⟩) (hlen : len.toNat = content.length)
    (written : Holds s.ibuf cur content) (room : content.length ≤ rem) :
    decodeStep s = decodeAppend ⟨.readingContent id len, cur, rem⟩
      ⟨.readingId, cur + content.length, rem - content.length⟩ ⟨id, content⟩ (s.drawn content.length) := by
  simp only [decodeStep, hd, decodeContent, hlen, ibufBytes_written written]
  exact if_neg (by omega)

/-- The length byte of a content of at most 255 bytes is its length (R101). -/
theorem lengthByte_toNat {content : List Byte} (fit : content.length ≤ 255) :
    (BitVec.ofNat 8 content.length).toNat = content.length := by
  rw [BitVec.toNat_ofNat]
  omega

/-- The DEC_STATE value of the state that completes a unit: READING_LENGTH for an empty one, READING_CONTENT for
another (R116). -/
def completingCode (u : ContainerUnit) : BitVec 3 := if u.content = [] then 3 else 4

/-- From READING_ID over a unit's wire form the loop comes to the step that appends the unit (R110-R112). -/
theorem decodeLoop_reaches_append {s : State} {cur rem fuel : Nat} {u : ContainerUnit}
    (hd : s.decoding = some ⟨.readingId, cur, rem⟩) (held : Holds s.ibuf cur (wireUnit u))
    (fit : u.content.length ≤ 255) (room : (wireUnit u).length ≤ rem) (hf : rem < fuel) :
    ∃ t fuel' n d, decodeLoop fuel s = decodeLoop (fuel' + 1) t ∧ rem - (wireUnit u).length < fuel'
      ∧ d.st.code = completingCode u
      ∧ decodeStep t = decodeAppend d ⟨.readingId, cur + (wireUnit u).length, rem - (wireUnit u).length⟩ u
          (s.drawn n) := by
  obtain ⟨hi, lo, len, content⟩ := holds_wireUnit.1 held
  rw [wireUnit_length] at room ⊢
  obtain ⟨id, bytes⟩ := u
  simp only at hi lo len content fit room ⊢
  obtain ⟨k, rfl⟩ := Nat.exists_eq_add_of_le' (show 3 ≤ fuel by omega)
  have idRead := decodeLoop_goes_on (k + 2) (decodeStep_id hd hi lo (by omega)) (.inl nofun)
  cases bytes with
  | nil =>
    refine ⟨_, k + 1, 3, ⟨.readingLength id, cur + 2, rem - 2⟩, idRead, by simp only [List.length_nil]; omega, rfl,
      ?_⟩
    refine (decodeStep_length_zero rfl ?_ ?_).trans
      (decodeAppend_setDecoding _ _ ⟨.readingLength id, cur + 2, rem - 2⟩ _ (s.drawn 3))
    · exact len
    · omega
  | cons b bs =>
    have hlen := lengthByte_toNat fit
    have pos : BitVec.ofNat 8 (b :: bs).length ≠ 0 := fun h => by
      rw [h] at hlen
      simp at hlen
    have lengthRead := decodeLoop_goes_on (k + 1) (decodeStep_length (s := (s.drawn 2).setDecoding
      ⟨.readingLength id, cur + 2, rem - 2⟩) rfl len pos (by omega)) (.inl nofun)
    refine ⟨_, k, 3 + (b :: bs).length, ⟨.readingContent id (BitVec.ofNat 8 (b :: bs).length), cur + 3, rem - 3⟩,
      idRead.trans lengthRead, by simp only [List.length_cons] at room ⊢; omega, rfl, ?_⟩
    rw [show cur + (3 + (b :: bs).length) = cur + 3 + (b :: bs).length by omega,
      show rem - (3 + (b :: bs).length) = rem - 3 - (b :: bs).length by omega, ← drawn_drawn]
    refine (decodeStep_content rfl hlen ?_ ?_).trans (decodeAppend_setDecoding _ _
      ⟨.readingContent id (BitVec.ofNat 8 (b :: bs).length), cur + 3, rem - 3⟩ _ ((s.drawn 3).drawn (b :: bs).length))
    · simpa only [setDecoding_ibuf, drawn_ibuf] using content
    · omega

/-- A unit that is not the last of the bytes is appended where the list has room, and the loop is at READING_ID
again (R110-R113). -/
theorem decodeLoop_unit {s : State} {cur rem fuel : Nat} {u : ContainerUnit}
    (hd : s.decoding = some ⟨.readingId, cur, rem⟩) (held : Holds s.ibuf cur (wireUnit u))
    (fit : u.content.length ≤ 255) (more : (wireUnit u).length < rem) (hf : rem < fuel)
    (room : s.units.length ≠ s.params.maxUnits) :
    ∃ fuel' n, rem - (wireUnit u).length < fuel' ∧ decodeLoop fuel s
      = decodeLoop fuel' (((s.drawn n).setUnits (s.units ++ [u])).setDecoding
          ⟨.readingId, cur + (wireUnit u).length, rem - (wireUnit u).length⟩) := by
  obtain ⟨t, fuel', n, d, reach, hf', _, step⟩ := decodeLoop_reaches_append hd held fit (Nat.le_of_lt more) hf
  rcases decodeAppend_cases d ⟨.readingId, cur + (wireUnit u).length, rem - (wireUnit u).length⟩ u (s.drawn n) with
    ⟨full, _⟩ | ⟨_, e⟩
  · exact absurd full room
  · refine ⟨fuel', n, hf', ?_⟩
    rw [reach, decodeLoop_goes_on fuel' (step.trans e) (.inr (Nat.sub_ne_zero_of_lt more)), drawn_units]

/-- Units that are not the last of the bytes are appended one after the other where the list has room for all. -/
theorem decodeLoop_units {us : List ContainerUnit} {s : State} {cur rem fuel : Nat}
    (hd : s.decoding = some ⟨.readingId, cur, rem⟩) (held : Holds s.ibuf cur (wireUnits us)) (fit : ContentsFit us)
    (more : (wireUnits us).length < rem) (hf : rem < fuel) (room : s.units.length + us.length ≤ s.params.maxUnits) :
    ∃ fuel' n, rem - (wireUnits us).length < fuel' ∧ decodeLoop fuel s
      = decodeLoop fuel' (((s.drawn n).setUnits (s.units ++ us)).setDecoding
          ⟨.readingId, cur + (wireUnits us).length, rem - (wireUnits us).length⟩) := by
  induction us generalizing s cur rem fuel with
  | nil =>
    refine ⟨fuel, 0, by simpa using hf, congrArg _ ?_⟩
    simp [State.drawn, State.setUnits, State.setDecoding, ← hd]
  | cons u us ih =>
    rw [wireUnits_cons, holds_append] at held
    rw [wireUnits_cons, List.length_append] at more ⊢
    rw [List.length_cons] at room
    obtain ⟨fuel₁, n, hf₁, first⟩ :=
      decodeLoop_unit hd held.1 (fit u List.mem_cons_self) (by omega) hf (by omega)
    obtain ⟨fuel₂, m, hf₂, others⟩ := ih (s := ((s.drawn n).setUnits (s.units ++ [u])).setDecoding
        ⟨.readingId, cur + (wireUnit u).length, rem - (wireUnit u).length⟩) rfl held.2
      (fun v hv => fit v (List.mem_cons_of_mem u hv)) (by omega) hf₁ (by simp; omega)
    refine ⟨fuel₂, n + m, by omega, ?_⟩
    rw [first, others]
    simp [State.drawn, State.setUnits, State.setDecoding, Nat.add_assoc, Nat.sub_sub]

/-- A complete unit on a full list raises CapacityError in the state that completes it (R108, R116). -/
theorem decodeLoop_unit_full {s : State} {cur rem fuel : Nat} {u : ContainerUnit}
    (hd : s.decoding = some ⟨.readingId, cur, rem⟩) (held : Holds s.ibuf cur (wireUnit u))
    (fit : u.content.length ≤ 255) (whole : (wireUnit u).length ≤ rem) (hf : rem < fuel)
    (full : s.units.length = s.params.maxUnits) :
    ∃ n, decodeLoop fuel s = .raised .capacity ((s.drawn n).endDecode (completingCode u)) := by
  obtain ⟨t, fuel', n, d, reach, _, code, step⟩ := decodeLoop_reaches_append hd held fit whole hf
  rcases decodeAppend_cases d ⟨.readingId, cur + (wireUnit u).length, rem - (wireUnit u).length⟩ u (s.drawn n) with
    ⟨_, e⟩ | ⟨room, _⟩
  · exact ⟨n, by rw [reach, decodeLoop_raised fuel' (step.trans e), code]⟩
  · exact absurd full room

/-- Where the units before it fill the list, the next complete unit raises CapacityError and they stay (R108, R116). -/
theorem decodeLoop_units_full {us : List ContainerUnit} {u : ContainerUnit} {s : State} {cur rem fuel : Nat}
    (hd : s.decoding = some ⟨.readingId, cur, rem⟩) (held : Holds s.ibuf cur (wireUnits (us ++ [u])))
    (fit : ContentsFit (us ++ [u])) (whole : (wireUnits (us ++ [u])).length ≤ rem) (hf : rem < fuel)
    (full : s.units.length + us.length = s.params.maxUnits) :
    ∃ n, decodeLoop fuel s
      = .raised .capacity (((s.drawn n).setUnits (s.units ++ us)).endDecode (completingCode u)) := by
  simp only [wireUnits_append, wireUnits_cons, wireUnits_nil, List.append_nil, List.length_append] at held whole
  obtain ⟨before, last⟩ := holds_append.1 held
  have header : 3 ≤ (wireUnit u).length := by rw [wireUnit_length]; omega
  obtain ⟨fuel', m, hf', units⟩ := decodeLoop_units hd before (fun v hv => fit v (List.mem_append_left _ hv))
    (by omega) hf (by omega)
  obtain ⟨n, raises⟩ := decodeLoop_unit_full (u := u) (fuel := fuel')
    (s := ((s.drawn m).setUnits (s.units ++ us)).setDecoding
      ⟨.readingId, cur + (wireUnits us).length, rem - (wireUnits us).length⟩) rfl last
    (fit u (List.mem_append_right _ (List.mem_singleton_self u))) (by omega) hf' (by simpa using full)
  refine ⟨m + n, ?_⟩
  rw [units, raises, ← drawn_drawn]
  rfl

/-! ## DECODE from its start -/

/-- DECODE of bytes that IBUF can hold, more than one of them, discards the first and goes on at READING_ID with an
empty list (R107, R109). -/
theorem exec_decode_of_more {s : State} {n : Nat} (size : n + 1 ≤ s.params.ibufSize) (more : n ≠ 0) :
    exec (.decode (n + 1)) s = .next (decodeLoop (n + 1)
      (((s.setUnits []).drawn 1).setDecoding ⟨.readingId, 1, n⟩)).complete := by
  have first : decodeStep ((s.setUnits []).setDecoding ⟨.metaByte, 0, n + 1⟩)
      = .ok (((s.setUnits []).drawn 1).setDecoding ⟨.readingId, 1, n⟩) := by
    simp only [decodeStep, setDecoding_decoding, decodeMeta]
    exact if_neg (by simp)
  show Host.Outcome.next (if n + 1 > s.params.ibufSize then Ended.raised (.command .badOperand) s
    else decodeLoop (n + 1 + 1) ((s.setUnits []).setDecoding ⟨.metaByte, 0, n + 1⟩)).complete = _
  rw [if_neg (by omega), decodeLoop_goes_on (n + 1) first (.inr more)]

/-- Settles O27. -/
theorem decodeStopsWhenTheListIsFull : Obligations.DecodeStopsWhenTheListIsFull := by
  intro s m us u rest size held fit full
  obtain ⟨units, _⟩ := holds_append.1 (holds_cons.1 held).2
  have some_bytes : 3 ≤ (wireUnits (us ++ [u])).length := by simp; omega
  obtain ⟨n, raises⟩ := decodeLoop_units_full
    (s := ((s.setUnits []).drawn 1).setDecoding ⟨.readingId, 1, (wireUnits (us ++ [u])).length + rest.length⟩)
    rfl units fit (Nat.le_add_right _ _) (Nat.lt_succ_self _) (by simpa using full)
  have run : exec (.decode (1 + (wireUnits (us ++ [u])).length + rest.length)) s = .next (Ended.raised .capacity
      (((s.drawn (1 + n)).setUnits us).endDecode (completingCode u))).complete := by
    rw [show 1 + (wireUnits (us ++ [u])).length + rest.length
        = (wireUnits (us ++ [u])).length + rest.length + 1 by omega,
      exec_decode_of_more (by omega) (by omega), raises, ← drawn_drawn]
    rfl
  exact ⟨_, run, failed_complete_raised _ .capacity, by simp, by simp [completingCode],
    by simp [UnchangedBut, OperandsUnchanged]⟩

end Sys2Proof.Machine
end

