-- ==== Sys2Proof/Proofs/HostReads.lean ====
section
/-! SUPPORT. Which register an address of the window reaches, the reads without a side effect, the CMD write, and the STATUS read of a busy block. -/

namespace Sys2Proof.Machine

/-! ## The register map (10_state.md R20) -/

section map
variable {p : Params} {addr : Nat}

/-- Indices 9 to 12 are the operand registers. -/
theorem regAt_arg {k : Nat} (hk : k < 4) (h : addr / 4 % 64 = 9 + k) : regAt p addr = .arg k := by
  interval_cases k <;> simp [regAt, h]

/-- Indices 13 to 16 are the counters that exist, and unmapped past NUM_COUNTERS (20_memory.md R55). -/
theorem regAt_count {k : Nat} (hk : k < 4) (h : addr / 4 % 64 = 13 + k) :
    regAt p addr = if k < p.numCounters then .count k else .unmapped := by
  interval_cases k <;> simp [regAt, h]

/-- No register stands at index 17 or above. -/
theorem regAt_unmapped (h : 17 ≤ addr / 4 % 64) : regAt p addr = .unmapped := by
  unfold regAt
  split
  case h_18 => rfl
  all_goals omega

/-- The registers whose read has a side effect or draws stand at indices 1, 6 and 8 only. -/
theorem regAt_plain (h1 : addr / 4 % 64 ≠ 1) (h6 : addr / 4 % 64 ≠ 6) (h8 : addr / 4 % 64 ≠ 8) :
    regAt p addr ≠ .status ∧ regAt p addr ≠ .ibufData ∧ regAt p addr ≠ .obufData := by
  by_cases low : addr / 4 % 64 < 9
  · have plain : addr / 4 % 64 = 0 ∨ addr / 4 % 64 = 2 ∨ addr / 4 % 64 = 3 ∨ addr / 4 % 64 = 4
        ∨ addr / 4 % 64 = 5 ∨ addr / 4 % 64 = 7 := by omega
    rcases plain with h | h | h | h | h | h <;> simp [regAt, h]
  by_cases args : addr / 4 % 64 < 13
  · rw [regAt_arg (k := addr / 4 % 64 - 9) (by omega) (by omega)]
    simp
  by_cases counts : addr / 4 % 64 < 17
  · rw [regAt_count (k := addr / 4 % 64 - 13) (by omega) (by omega)]
    split <;> simp
  · rw [regAt_unmapped (by omega)]
    simp

end map

/-- A read of a register other than STATUS and the two data ports has no effect (20_memory.md R59-R67). -/
theorem afterRead_plain {r : Reg} (s : State) (h : r ≠ .status ∧ r ≠ .ibufData ∧ r ≠ .obufData) :
    s.afterRead r = s := by
  obtain ⟨hs, hi, ho⟩ := h
  cases r with
  | status => exact absurd rfl hs
  | ibufData => exact absurd rfl hi
  | obufData => exact absurd rfl ho
  | cmd | result | unitCount | outLen | ibufPtr | obufPtr | arg | count | unmapped => rfl

/-- Settles O49. -/
theorem plainReadsAnswerTheirRegister : Obligations.PlainReadsAnswerTheirRegister := by
  intro s addr rest idle counters port low high h1 h6 h8
  have answered : step s = .next
      { s with port := rest, answer := some ((s.setPort rest).readWord (regAt s.params addr)) } := by
    rw [step_access idle port, perform_read (s := s.setPort rest) (selects_of low high), setPort_params,
      afterRead_plain _ (regAt_plain h1 h6 h8)]
    rfl
  refine ⟨_, answered, ?_, ?_, ?_, ?_, ?_, ?_, fun k hk h => ?_, fun k hk h => ?_, fun h => ?_⟩
  case refine_7 => rw [regAt_arg hk h]; rfl
  case refine_8 => rw [regAt_count (by omega) h, if_pos hk]; rfl
  case refine_9 =>
    by_cases mapped : addr / 4 % 64 < 17
    · rw [regAt_count (k := addr / 4 % 64 - 13) (by omega) (by omega), if_neg (by omega)]
      rfl
    · rw [regAt_unmapped (by omega)]
      rfl
  all_goals
    intro h
    simp [regAt, h, State.readWord, State.unitCount]

/-- Settles O7. -/
theorem cmdWriteStartsTheCommand : Obligations.CmdWriteStartsTheCommand := by
  intro s addr w rest idle port low high h
  have cmd : regAt s.params addr = .cmd := by simp [regAt, h]
  refine ⟨_, ?_, rfl, rfl⟩
  rw [step_access idle port, perform_write (s := s.setPort rest) (selects_of low high), setPort_params, cmd]
  rfl

/-- Bit 0 of a STATUS read while a command runs is BUSY (10_state.md R28). -/
theorem busyStatusWord_bit0 (s : State) : s.busyStatusWord.getLsbD 0 = true := by
  rw [State.busyStatusWord, BitVec.getLsbD_append]
  rfl

/-- Settles O10: a STATUS read passes the interlock (20_memory.md R57). -/
theorem busyStatusReadIsAnsweredAtOnce : Obligations.BusyStatusReadIsAnsweredAtOnce := by
  intro s w addr rest live running port low high h
  have status : regAt s.params addr = .status := by simp [regAt, h]
  have passes : (Access.read addr).passes s.params = true := by simp [Access.passes, status]
  have busy : (s.setPort rest).busy = true := by simp [State.busy, running]
  refine ⟨(s.setPort rest).busyStatusWord, s.draws + 1, busyStatusWord_bit0 _, ?_⟩
  rw [step_running live running, busyTurn, port]
  simp only [passes, if_true]
  rw [perform_read (s := s.setPort rest) (selects_of low high), setPort_params, status, State.readWord,
    State.afterRead, if_pos busy, if_pos busy]
  rfl

end Sys2Proof.Machine
end

