-- ==== Sys2Proof/Proofs/RunningWords.lean ====
section
/-! SUPPORT. The step of a block whose command runs: the decoded command, the word that is no command, and the accesses the interlock holds. -/

namespace Sys2Proof.Machine

/-- Settles O6: each of the three schedules is one of the ways a running word completes. -/
theorem stepRunsTheDecodedCommand : Obligations.StepRunsTheDecodedCommand := by
  intro s w i live running decoded
  have runs : ∀ u, CompletesFrom w s u → step s = exec i u := fun u h => by
    rw [step_completesFrom h, runCommand_decoded decoded]
  refine ⟨fun port => ?_, fun rest port => ?_, fun a b rest port waits held => ?_⟩
  · exact runs s ⟨live, running, .inl ⟨port, rfl⟩⟩
  · exact runs _ ⟨live, running, .inr (.inl ⟨rest, port, rfl⟩)⟩
  · exact runs s ⟨live, running, .inr (.inr ⟨a, b, rest, port, waits, held, rfl⟩)⟩

/-! ## Words that are no command (30_encoding.md R85, R86) -/

/-- The OP field is the word's top six bits (R82). -/
theorem bits_op (w : Word) : bits w 31 26 = w.toNat / 2 ^ 26 := by
  have := w.isLt
  unfold bits
  omega

/-- Every row of the table is a row of the opcode map, with the table's mask (R90). -/
theorem opcodeRow_of_table (w : Word) : ∀ row ∈ tableOpcodes, ∃ f i,
    opcodeRow row.1 w = some (f, i) ∧ f.reservedMask = row.2 := by
  simp [tableOpcodes, opcodeRow, Format.reservedMask]

/-- Every row of the opcode map stands in the table (R90). -/
theorem table_of_opcodeRow {op : Nat} {w : Word} {f : Format} {i : Instr} (h : opcodeRow op w = some (f, i)) :
    (op, f.reservedMask) ∈ tableOpcodes := by
  unfold opcodeRow at h
  split at h <;> cases h <;> decide

/-- A word whose OP is not in the table is refused as a bad opcode (R85). -/
theorem decode_badOpcode {w : Word} (h : ∀ row ∈ tableOpcodes, row.1 ≠ w.toNat / 2 ^ 26) :
    decode w = .error .badOpcode := by
  rcases decode_cases w with ⟨_, bad⟩ | ⟨f, i, row, _⟩
  · exact bad
  · exact absurd (bits_op w) (h _ (table_of_opcodeRow row))

/-- A word whose OP is in the table and that has a reserved bit set is refused for it (R86). -/
theorem decode_reservedNonzero {w : Word} (h : ∃ row ∈ tableOpcodes, row.1 = w.toNat / 2 ^ 26 ∧ w &&& row.2 ≠ 0) :
    decode w = .error .reservedNonzero := by
  obtain ⟨row, mem, op, set⟩ := h
  obtain ⟨f, i, known, mask⟩ := opcodeRow_of_table w row mem
  rw [op, ← bits_op] at known
  simp only [decode, known, mask, if_neg set]

/-- A word that is no command raises its CommandError where it completes, and changes nothing but STATUS. -/
theorem step_illegal {w : Word} {s u : State} {e : DecodeError} (h : CompletesFrom w s u) (he : decode w = .error e) :
    ∃ t, step s = .next t ∧ Failed 6 (CommandFault.ofDecode e).detail t ∧ UnchangedBut [] u t := by
  rw [step_completesFrom h, runCommand_illegal he]
  exact ⟨_, rfl, failed_complete_raised u (.command (CommandFault.ofDecode e)), unchanged_of_raised u _ 0⟩

/-- Settles O8. -/
theorem illegalWordChangesOnlyStatus : Obligations.IllegalWordChangesOnlyStatus := by
  intro s u w completes
  exact ⟨fun undefined => step_illegal completes (decode_badOpcode undefined),
    fun reserved => step_illegal completes (decode_reservedNonzero reserved)⟩

/-! ## The interlock (20_memory.md R57) -/

/-- Only index 1 is STATUS (10_state.md R20). -/
theorem regAt_eq_status {p : Params} {addr : Nat} : regAt p addr = .status ↔ addr / 4 % 64 = 1 := by
  refine ⟨fun h => by_contra fun h1 => ?_, fun h => by simp [regAt, h]⟩
  by_cases h6 : addr / 4 % 64 = 6
  · simp [regAt, h6] at h
  by_cases h8 : addr / 4 % 64 = 8
  · simp [regAt, h8] at h
  · exact (regAt_plain h1 h6 h8).1 h

@[simp] theorem Access.addr_read (addr : Nat) : (Access.read addr).addr = addr := rfl
@[simp] theorem Access.addr_write (addr : Nat) (w : Word) : (Access.write addr w).addr = addr := rfl

/-- An access to the window that is no read of STATUS must wait while a command runs. -/
theorem passes_eq_false {p : Params} {a : Access} (selected : selects p a.addr = true)
    (other : a.addr / 4 % 64 ≠ 1 ∨ ∃ addr v, a = .write addr v) : a.passes p = false := by
  cases a with
  | write addr v => simpa [Access.passes] using selected
  | read addr =>
    have index : addr / 4 % 64 ≠ 1 := by simpa using other
    simpa [Access.passes, regAt_eq_status, index] using selected

/-- Settles O9. -/
theorem interlockHoldsAccessesUntilIdle : Obligations.InterlockHoldsAccessesUntilIdle := by
  constructor
  · intro s w a rest live running held port low high other
    have waits := passes_eq_false (selects_of low high) other
    rw [step_running live running, busyTurn, port]
    simp [waits, held, State.setHeld, State.setPort]
  · intro s a live running held
    rw [step_not_running live running, idleTurn, held]
    rfl

/-! ## Accesses outside the window (20_memory.md R53, log 11) -/

/-- An address outside the window does not select the block. -/
theorem selects_outside {p : Params} {addr : Nat} (h : addr < p.baseAddr ∨ p.baseAddr + 0xFF < addr) :
    selects p addr = false := by
  simp only [selects, Bool.and_eq_false_iff, decide_eq_false_iff_not]
  omega

/-- An access that does not reach the block is not held. -/
theorem passes_outside {p : Params} {a : Access} (h : selects p a.addr = false) : a.passes p = true := by
  cases a with
  | read addr => simpa [Access.passes] using .inl h
  | write addr w => simpa [Access.passes] using h

/-- A read outside the window has no answer and no effect. -/
theorem perform_read_outside {s : State} {addr : Nat} (h : selects s.params addr = false) :
    s.perform (.read addr) = s.setAnswer none := by
  simp [State.perform, h]

/-- A write outside the window has no effect. -/
theorem perform_write_outside {s : State} {addr : Nat} {w : Word} (h : selects s.params addr = false) :
    s.perform (.write addr w) = s := by
  simp [State.perform, h]

/-- With nothing held, an access that passes the interlock is performed whether or not a command runs. -/
theorem step_passing_access {s : State} {a : Access} {rest : List PortEvent} (live : s.inReset = false)
    (held : s.held = none) (port : s.port = .access a :: rest) (passes : a.passes s.params = true) :
    step s = .next ((s.setPort rest).perform a) := by
  cases running : s.running with
  | none => exact step_access ⟨live, running, held⟩ port
  | some w =>
    rw [step_running live running, busyTurn, port]
    simp [passes]

/-- Settles O54. -/
theorem accessOutsideTheWindowChangesNothing : Obligations.AccessOutsideTheWindowChangesNothing := by
  intro s a rest live held port outside
  have unselected := selects_outside outside
  have performed := step_passing_access live held port (passes_outside unselected)
  constructor
  · rintro addr w rfl
    exact performed.trans (congrArg _ (perform_write_outside (s := s.setPort rest) unselected))
  · rintro addr rfl
    exact performed.trans (congrArg _ (perform_read_outside (s := s.setPort rest) unselected))

end Sys2Proof.Machine
end

