-- ==== Sys2Proof/Proofs/HostAccesses.lean ====
section
/-! SUPPORT. Accesses to the window of an idle block: STATUS, the data ports, the pointer and operand writes, and the writes that are ignored. -/

namespace Sys2Proof.Machine

/-! ## One step of an idle block -/

section window
variable {s : State} {addr : Nat} {rest : List PortEvent}

/-- The step that takes a write to the window writes the register at its address. -/
theorem step_write {w : Word} (idle : Idle s) (port : s.port = .access (.write addr w) :: rest)
    (low : s.params.baseAddr ≤ addr) (high : addr ≤ s.params.baseAddr + 0xFF) :
    step s = .next ((s.setPort rest).writeReg (regAt s.params addr) w) := by
  rw [step_access idle port, perform_write (s := s.setPort rest) (selects_of low high), setPort_params]

/-- The step that takes a read from the window answers the register at its address and has its read effect. -/
theorem step_read (idle : Idle s) (port : s.port = .access (.read addr) :: rest)
    (low : s.params.baseAddr ≤ addr) (high : addr ≤ s.params.baseAddr + 0xFF) :
    step s = .next (((s.setPort rest).afterRead (regAt s.params addr)).setAnswer
      (some ((s.setPort rest).readWord (regAt s.params addr)))) := by
  rw [step_access idle port, perform_read (s := s.setPort rest) (selects_of low high), setPort_params]

end window

/-! ## STATUS (10_state.md R22-R28, 20_memory.md R58) -/

/-- The fields of the STATUS word of an idle block, at their places, with 0 in the reserved bits. -/
theorem statusWord_fields {s : State} (running : s.running = none) :
    s.statusWord.getLsbD 0 = false ∧ s.statusWord.getLsbD 1 = s.err ∧ s.statusWord.getLsbD 2 = s.sticky
      ∧ s.statusWord.extractLsb' 3 5 = 0 ∧ s.statusWord.extractLsb' 8 4 = s.errCode
      ∧ s.statusWord.extractLsb' 12 4 = s.errDetail ∧ s.statusWord.extractLsb' 16 3 = s.decState
      ∧ s.statusWord.extractLsb' 19 13 = 0 := by
  have busy : s.busy = false := by simp [State.busy, running]
  rw [State.statusWord, busy]
  refine ⟨?_, ?_, ?_, ?_, ?_, ?_, ?_, ?_⟩
  case refine_1 | refine_2 | refine_3 =>
    repeat rw [BitVec.getLsbD_append, if_neg (by decide)]
    rw [BitVec.getLsbD_append, if_pos (by decide)]
    simp
  case refine_8 =>
    repeat rw [BitVec.extractLsb'_append_eq_of_le (by decide)]
    exact BitVec.extractLsb'_eq_self
  all_goals
    repeat rw [BitVec.extractLsb'_append_eq_of_le (by decide)]
    exact BitVec.extractLsb'_append_eq_right

/-- Settles O48. -/
theorem statusReadsItsFieldsAndWritesClearSticky : Obligations.StatusReadsItsFieldsAndWritesClearSticky := by
  intro s addr rest idle low high index
  have status : regAt s.params addr = .status := regAt_eq_status.2 index
  have running : s.running = none := idle.2.1
  refine ⟨fun port => ⟨s.statusWord, ?_, statusWord_fields running⟩, fun w port => ?_⟩
  · have busy : (s.setPort rest).busy = false := by simp [State.busy, running]
    rw [step_read idle port low high, status]
    simp only [State.afterRead, State.readWord, busy]
    rfl
  · rw [step_write idle port low high, status]
    simp only [State.writeReg]
    cases w.getLsbD 2 <;> simp [State.setPort, State.clearSticky]

/-! ## Writes that are ignored (20_memory.md R55, R56) -/

/-- A write to a read-only register or to an unmapped offset has no effect. -/
theorem writeReg_readOnly {p : Params} {addr : Nat} (s : State) (w : Word)
    (h : addr / 4 % 64 ∈ [2, 3, 4, 8] ∨ 13 ≤ addr / 4 % 64) : s.writeReg (regAt p addr) w = s := by
  rcases h with low | high
  · simp only [List.mem_cons, List.not_mem_nil, or_false] at low
    rcases low with h | h | h | h <;> simp [regAt, h, State.writeReg]
  by_cases counts : addr / 4 % 64 < 17
  · rw [regAt_count (k := addr / 4 % 64 - 13) (by omega) (by omega)]
    split <;> rfl
  · rw [regAt_unmapped (by omega)]
    rfl

/-- Settles O50. -/
theorem writesToReadOnlyAndUnmappedOffsetsAreIgnored : Obligations.WritesToReadOnlyAndUnmappedOffsetsAreIgnored := by
  intro s addr w rest idle port low high readOnly
  rw [step_write idle port low high, writeReg_readOnly _ w readOnly]
  rfl

/-! ## Pointers, operands and the data ports (R59-R64) -/

/-- Settles O51. -/
theorem pointerAndOperandWritesStoreTheirWord : Obligations.PointerAndOperandWritesStoreTheirWord := by
  intro s addr w rest idle port low high
  rw [step_write idle port low high]
  refine ⟨fun h => ?_, fun h => ?_, fun h => ?_, fun h => ?_, fun h => ?_, fun h => ?_⟩
  case refine_1 | refine_2 => rw [regAt, h]; rfl
  case refine_3 => rw [regAt_arg (k := 0) (by decide) h]; rfl
  case refine_4 => rw [regAt_arg (k := 1) (by decide) h]; rfl
  case refine_5 => rw [regAt_arg (k := 2) (by decide) h]; rfl
  case refine_6 => rw [regAt_arg (k := 3) (by decide) h]; rfl

/-- A zero-extended byte is the word of its value. -/
theorem byte_setWidth (b : Byte) : b.setWidth 32 = BitVec.ofNat 32 b.toNat := by
  rw [BitVec.ofNat_toNat]

/-- A written byte is what OBUF_DATA answers at its index (R63). -/
theorem obufByte_written {s : State} {a : Nat} {b : Byte} (h : s.obuf.read a = some b) : s.obufByte a = b := by
  simp [State.obufByte, h]

/-- Settles O52. -/
theorem dataPortReadsAnswerAByteAndAdvance : Obligations.DataPortReadsAnswerAByteAndAdvance := by
  intro s addr rest idle low high
  refine ⟨fun port index => ?_, fun port index => ?_, fun w port index => ?_⟩
  · have ibufData : regAt s.params addr = .ibufData := by simp [regAt, index]
    refine ⟨s.ibufByte s.ibufPtr.toNat 0, s.draws + 1, ?_, fun c written => ibufByte_written written 0⟩
    rw [step_read idle port low high, ibufData, ← byte_setWidth]
    rfl
  · have obufData : regAt s.params addr = .obufData := by simp [regAt, index]
    refine ⟨s.obufByte s.obufPtr.toNat, s.draws + 1, ?_, fun c written => obufByte_written written⟩
    rw [step_read idle port low high, obufData, ← byte_setWidth]
    rfl
  · exact writesToReadOnlyAndUnmappedOffsetsAreIgnored s addr w rest idle port low high (.inl (by simp [index]))

end Sys2Proof.Machine
end

