-- ==== Sys2Proof/Proofs/IbufBurst.lean ====
section
/-! SUPPORT. A burst of IBUF_DATA writes: bytes stored one after the other in a buffer whose index wraps. -/

namespace Sys2Proof.Machine

/-! ## Bytes stored in a ring of `size` indices -/

/-- Store the bytes at index `a` and the ones after it, wrapping at `size`. -/
def Memory.writeRing (size : Nat) : Memory → Nat → List Byte → Memory
  | m, _, [] => m
  | m, a, b :: bs => Memory.writeRing size (Memory.write m a b) ((a + 1) % size) bs

/-- The index `j` places after the one following `a` is `j + 1` places after `a`. -/
theorem ring_succ (a j size : Nat) : ((a + 1) % size + j) % size = (a + (j + 1)) % size := by
  rw [Nat.mod_add_mod, Nat.add_assoc, Nat.add_comm 1 j]

/-- Fewer than `size` places on, the ring has not come back to the index it began at. -/
theorem ring_ne {a d size : Nat} (ha : a < size) (pos : 0 < d) (hd : d < size) : a ≠ (a + d) % size := by
  by_cases wraps : a + d < size
  · rw [Nat.mod_eq_of_lt wraps]
    omega
  · rw [Nat.mod_eq_sub_mod (by omega), Nat.mod_eq_of_lt (by omega)]
    omega

/-- An index that the bytes do not reach keeps its byte. -/
theorem Memory.read_writeRing_other {size : Nat} (bs : List Byte) (m : Memory) {a c : Nat}
    (h : ∀ j, j < bs.length → c ≠ (a + j) % size) (ha : a < size) :
    Memory.read (Memory.writeRing size m a bs) c = Memory.read m c := by
  induction bs generalizing m a with
  | nil => rfl
  | cons b bs ih =>
    have first : c ≠ a := by simpa [Nat.mod_eq_of_lt ha] using h 0 (by simp)
    rw [Memory.writeRing, ih _ (fun j hj => ?_) (Nat.mod_lt _ (by omega)), Memory.read_write_other m b first]
    rw [ring_succ]
    exact h (j + 1) (by simpa using hj)

/-- Bytes that do not outnumber the indices read back, each at its own index. -/
theorem Memory.read_writeRing_inside {size : Nat} (bs : List Byte) (m : Memory) {a j : Nat} (ha : a < size)
    (room : bs.length ≤ size) (hj : j < bs.length) :
    Memory.read (Memory.writeRing size m a bs) ((a + j) % size) = bs[j]? := by
  induction bs generalizing m a j with
  | nil => simp at hj
  | cons b bs ih =>
    have next : (a + 1) % size < size := Nat.mod_lt _ (by omega)
    simp only [List.length_cons] at room hj
    rw [Memory.writeRing]
    cases j with
    | zero =>
      have untouched : ∀ j, j < bs.length → a ≠ ((a + 1) % size + j) % size := fun j hj => by
        rw [ring_succ]
        exact ring_ne ha (by omega) (by omega)
      rw [show (a + 0) % size = a from Nat.mod_eq_of_lt ha, Memory.read_writeRing_other bs _ untouched next]
      simp
    | succ j =>
      rw [← ring_succ a j, ih _ next (by omega) (by omega)]
      simp

/-! ## The burst (20_memory.md R60) -/

/-- `s` after a burst that stores `bytes` from index `a` on and ends with the rest of the schedule. -/
def State.afterBurst (a : Nat) (bytes : List Byte) (rest : List PortEvent) (s : State) : State :=
  { s with
    port := rest
    ibuf := s.ibuf.writeRing s.params.ibufSize a bytes
    ibufPtr := pointerOf (a + bytes.length) s.params.ibufSize }

/-- A burst after the burst of one byte is the burst of all of them. -/
theorem afterBurst_cons {s : State} {a : Nat} (pos : 0 < s.params.ibufSize) (size : s.params.ibufSize ≤ 2 ^ 32)
    (b : Byte) (bytes : List Byte) (es rest : List PortEvent) :
    (s.afterBurst a [b] es).afterBurst (s.afterBurst a [b] es).ibufPtr.toNat bytes rest
      = s.afterBurst a (b :: bytes) rest := by
  have next : (pointerOf (a + 1) s.params.ibufSize).toNat = (a + 1) % s.params.ibufSize :=
    pointerOf_toNat (a + 1) pos size
  have last : pointerOf ((a + 1) % s.params.ibufSize + bytes.length) s.params.ibufSize
      = pointerOf (a + (bytes.length + 1)) s.params.ibufSize := congrArg _ (ring_succ a _ _)
  simp only [State.afterBurst, List.length_cons, List.length_nil, Nat.zero_add, next, last, Memory.writeRing]

/-- One write to IBUF_DATA stores the low byte at the pointer and advances it. -/
theorem step_write_ibufData {s : State} {addr : Nat} {w : Word} {rest : List PortEvent} (idle : Idle s)
    (port : s.port = .access (.write addr w) :: rest) (low : s.params.baseAddr ≤ addr)
    (high : addr ≤ s.params.baseAddr + 0xFF) (index : addr / 4 % 64 = 6) :
    step s = .next (s.afterBurst s.ibufPtr.toNat [w.setWidth 8] rest) := by
  have ibufData : regAt s.params addr = .ibufData := by simp [regAt, index]
  rw [step_write idle port low high, ibufData]
  rfl

/-- A run goes on from the state its first step gives. -/
theorem run_succ {m : Host.Core} {s u : m.State} (h : m.step s = .next u) (k : Nat) :
    m.run (k + 1) s = m.run k u := by
  simp [Host.Core.run, h]

/-- A burst of writes to IBUF_DATA stores the low bytes of its words in the ring. -/
theorem run_burst {ws : List (Nat × Word)} {s : State} {rest : List PortEvent} (idle : Idle s)
    (size : s.params.ibufSize ≤ 2 ^ 32) (ptr : s.ibufPtr.toNat < s.params.ibufSize)
    (select : ∀ p ∈ ws, s.params.baseAddr ≤ p.1 ∧ p.1 ≤ s.params.baseAddr + 0xFF ∧ p.1 / 4 % 64 = 6)
    (port : s.port = ws.map (fun p => .access (.write p.1 p.2)) ++ rest) :
    Host.Core.run Sys2Proof.core ws.length s
      = .next (s.afterBurst s.ibufPtr.toNat (ws.map fun p => p.2.setWidth 8) rest) := by
  induction ws generalizing s with
  | nil =>
    have same : pointerOf s.ibufPtr.toNat s.params.ibufSize = s.ibufPtr := by
      rw [pointerOf, Nat.mod_eq_of_lt ptr, BitVec.ofNat_toNat, BitVec.setWidth_eq]
    obtain rfl : s.port = rest := port
    simp [Host.Core.run, State.afterBurst, Memory.writeRing, same]
  | cons p ws ih =>
    obtain ⟨low, high, index⟩ := select p List.mem_cons_self
    have pos : 0 < s.params.ibufSize := by omega
    have others := ih (s := s.afterBurst s.ibufPtr.toNat [p.2.setWidth 8] _) idle size (pointerOf_lt _ pos size)
      (fun q hq => select q (List.mem_cons_of_mem p hq)) rfl
    rw [List.length_cons, run_succ (m := Sys2Proof.core) (step_write_ibufData idle port low high index)]
    exact others.trans (congrArg _ (afterBurst_cons pos size _ _ _ rest))

/-- Settles O53. -/
theorem ibufDataWritesFillTheBufferInOrder : Obligations.IbufDataWritesFillTheBufferInOrder := by
  intro s ws rest idle legal ptr room select port
  obtain ⟨low, high⟩ := ibufSize_of_legal legal
  have pointer : (pointerOf (s.ibufPtr.toNat + ws.length) s.params.ibufSize).toNat
      = (s.ibufPtr.toNat + ws.length) % s.params.ibufSize := pointerOf_toNat _ (by omega) (by omega)
  refine ⟨_, run_burst idle (by omega) ptr select port, ?_, fun full => ?_, fun j addr w word => ?_,
    fun a untouched => ?_, rfl⟩
  · simpa [State.afterBurst] using pointer
  · apply BitVec.eq_of_toNat_eq
    simpa [State.afterBurst, full, Nat.mod_eq_of_lt ptr] using pointer
  · have hj : j < ws.length := (List.getElem?_eq_some_iff.1 word).1
    rw [State.afterBurst, Memory.read_writeRing_inside _ _ ptr (by simpa using room) (by simpa using hj)]
    simp [word]
  · exact Memory.read_writeRing_other _ _ (by simpa using untouched) ptr

end Sys2Proof.Machine
end

