-- ==== Sys2Proof/Proofs/EncodeTwice.lean ====
section
/-! SUPPORT. What ENCODE writes and reports depends on the list and OBUF_SIZE alone, and writing it again changes nothing. -/

namespace Sys2Proof.Machine

/-- The same bytes written again at the same place change nothing. -/
theorem Memory.writeBytes_again {m : Memory} (h : m.wf) (a : Nat) (bs : List Byte) :
    Memory.writeBytes (Memory.writeBytes m a bs) a bs = Memory.writeBytes m a bs := by
  have wf := Memory.writeBytes_wf bs h a
  refine Memory.eq_of_read (Memory.writeBytes_wf bs wf a) wf fun c => ?_
  by_cases below : c < a
  · exact Memory.read_writeBytes_below bs _ below
  by_cases above : a + bs.length ≤ c
  · exact Memory.read_writeBytes_above bs _ above
  · obtain ⟨j, rfl⟩ := Nat.exists_eq_add_of_le (Nat.le_of_not_lt below)
    have inside : j < bs.length := by omega
    rw [Memory.read_writeBytes_inside bs _ a inside, Memory.read_writeBytes_inside bs m a inside]

/-- The end of a command's pseudocode in state `s`, by the error it raises there, if any. -/
def Ended.of : Option CmdError → State → Ended
  | none, s => .ok s
  | some e, s => .raised e s

/-- On every state whose OBUF has `size` bytes, this part of ENCODE writes the same bytes from offset `o` on and ends
in the same way. -/
def WritesAlike (size o : Nat) (part : State → Ended) : Prop :=
  ∃ (bytes : List Byte) (e : Option CmdError), ∀ s : State, s.params.obufSize = size →
    part s = Ended.of e ((s.writeObuf o bytes).endEncode (o + bytes.length))

/-- A field write followed by a part of ENCODE writes its field and the part's bytes, or ends ENCODE, and which of the
two depends on the sizes alone (40_tlv_codec.md R105). -/
theorem writesAlike_put {size o : Nat} {k : Nat → State → Ended} (f : WireField) (field : List Byte)
    (after : WritesAlike size (o + field.length) (k (o + field.length))) :
    WritesAlike size o fun s => s.put f field o k := by
  obtain ⟨bytes, e, alike⟩ := after
  by_cases fits : o + field.length ≤ size
  · refine ⟨field ++ bytes, e, fun s hs => ?_⟩
    show s.put f field o k = _
    rw [put_of_fits k (hs ▸ fits), alike (s.writeObuf o field) hs, writeObuf_append, List.length_append, Nat.add_assoc]
  · refine ⟨[], some (.encoding f), fun s hs => ?_⟩
    rcases put_cases f field o s k with ⟨_, passed⟩ | ⟨h, _⟩
    · exact passed
    · omega

/-- ENCODE's loop writes the same on every state with the same OBUF_SIZE (R104). -/
theorem writesAlike_encodeUnits (size : Nat) (us : List ContainerUnit) (o : Nat) :
    WritesAlike size o (encodeUnits us o) := by
  induction us generalizing o with
  | nil => exact ⟨[], none, fun _ _ => rfl⟩
  | cons u us ih => exact writesAlike_put .id _ (writesAlike_put .length _ (writesAlike_put .content _ (ih _)))

/-- What ENCODE does to states with the same list and OBUF_SIZE is the same writes with the same report. -/
theorem exec_encode_writes (units : List ContainerUnit) (size : Nat) :
    ∃ (bytes : List Byte) (e : Option CmdError), ∀ s : State, s.units = units → s.params.obufSize = size →
      exec .encode s = .next (Ended.of e ((s.writeObuf 0 bytes).endEncode bytes.length)).complete := by
  obtain ⟨bytes, e, alike⟩ := writesAlike_put .metaByte [0x80] (writesAlike_encodeUnits size units _) (o := 0)
  rw [Nat.zero_add] at alike
  refine ⟨bytes, e, fun s hunits hsize => ?_⟩
  rw [← alike s hsize, ← hunits]
  rfl

/-- The writes of ENCODE, with either report, are already there after it. -/
theorem encode_writes_again {s : State} (wf : s.obuf.wf) (bytes : List Byte) (e : Option CmdError) :
    (Ended.of e (((Ended.of e ((s.writeObuf 0 bytes).endEncode bytes.length)).complete.writeObuf 0 bytes).endEncode
        bytes.length)).complete
      = (Ended.of e ((s.writeObuf 0 bytes).endEncode bytes.length)).complete := by
  have again := Memory.writeBytes_again wf 0 bytes
  cases e <;> simp [Ended.of, Ended.complete, State.writeObuf, State.endEncode, again]

/-- Settles O21: the first ENCODE leaves the list and OBUF_SIZE, so the second makes the same writes again. -/
theorem encodeTwiceIsEncodeOnce : Obligations.EncodeTwiceIsEncodeOnce := by
  intro s t wf first
  obtain ⟨bytes, e, writes⟩ := exec_encode_writes s.units s.params.obufSize
  rw [writes s rfl rfl] at first
  cases first
  rw [writes _ (by cases e <;> rfl) (by cases e <;> rfl), encode_writes_again wf]

end Sys2Proof.Machine
end

