-- ==== Sys2Proof/Proofs/CommandWords.lean ====
section
/-! SUPPORT. Command words by their OP, SEL and IMM fields: the encoder and the decoder undo each other. -/

namespace Sys2Proof

open Laws

/-! ## The fields of a word (30_encoding.md R83, R89) -/

/-- OP, SEL and IMM of a word (R83). -/
def wordFields (w : Word) : Nat × Nat × Nat := (bits w 31 26, bits w 25 24, bits w 23 0)

/-- A word is the sum of its three fields at their places. -/
theorem toNat_eq_fields (w : Word) : w.toNat = bits w 31 26 * 2 ^ 26 + bits w 25 24 * 2 ^ 24 + bits w 23 0 := by
  have := w.isLt
  unfold bits
  omega

/-- OP, SEL and IMM together are the whole word. -/
theorem wordFields_injective {v w : Word} (h : wordFields v = wordFields w) : v = w := by
  simp only [wordFields, Prod.mk.injEq] at h
  obtain ⟨op, sel, imm⟩ := h
  refine BitVec.eq_of_toNat_eq ?_
  rw [toNat_eq_fields v, toNat_eq_fields w, op, sel, imm]

/-- The fields of a word that is the sum of three numbers within their bounds are those numbers. -/
theorem wordFields_of_toNat {w : Word} {op sel imm : Nat} (h : w.toNat = op * 2 ^ 26 + sel * 2 ^ 24 + imm)
    (hsel : sel < 2 ^ 2) (himm : imm < 2 ^ 24) : wordFields w = (op, sel, imm) := by
  have := w.isLt
  simp only [wordFields, bits, Prod.mk.injEq]
  omega

/-! The operand fields of 16, 8 and 5 bits are parts of IMM (R89). -/

theorem bits_23_8 (w : Word) : bits w 23 8 = bits w 23 0 / 256 := by unfold bits; omega
theorem bits_15_0 (w : Word) : bits w 15 0 = bits w 23 0 % 2 ^ 16 := by unfold bits; omega
theorem bits_7_0 (w : Word) : bits w 7 0 = bits w 23 0 % 256 := by unfold bits; omega
theorem bits_4_0 (w : Word) : bits w 4 0 = bits w 23 0 % 2 ^ 5 := by unfold bits; omega

theorem mul256_add_div {high low : Nat} (h : low < 256) : (high * 256 + low) / 256 = high := by omega
theorem mul256_add_mod {high low : Nat} (h : low < 256) : (high * 256 + low) % 256 = low := by omega

/-! ## What a format leaves to SEL and IMM (R86, R89) -/

/-- The format of each command (R90). -/
def formatOf : Instr → Format
  | .clear | .encode | .addDns4Req | .addDns6Req | .addIpalloc | .timerEnc => .n
  | .decode _ => .d
  | .addUnit _ _ => .u
  | .addDns4Addr _ | .addPcscf4Addr _ | .addDns6Addr _ => .a
  | .addMtu _ => .m
  | .getUnit _ => .i
  | .getByte _ _ => .ib
  | .cntRead _ | .cntGetOvf _ | .cntGetSqn _ | .cntInc _ => .c
  | .cntSet _ _ _ => .cs
  | .cntSetOvf _ _ => .co
  | .cntSetSqn _ _ => .cq

/-- The values of SEL and IMM with no reserved bit of the format. -/
def Format.Admits (sel imm : Nat) : Format → Prop
  | .n => sel = 0 ∧ imm = 0
  | .d | .m => sel = 0 ∧ imm < 2 ^ 16
  | .u | .ib => sel = 0
  | .a => sel = 0 ∧ imm < 2 ^ 5
  | .i => sel = 0 ∧ imm % 256 = 0
  | .c => imm = 0
  | .cs => True
  | .co => imm % 256 = 0
  | .cq => imm < 256

/-- Check 2 of the envelope in terms of SEL and IMM (R86). -/
theorem reserved_zero_iff_admits (w : Word) (f : Format) :
    w &&& f.reservedMask = 0 ↔ f.Admits (bits w 25 24) (bits w 23 0) := by
  rw [reserved_zero_iff]
  cases f <;> simp only [Format.Admits, bits] <;> omega

/-! A well-formed command's operands as bounds (R97). -/

@[simp] theorem fits16_iff {v : Nat} : fits16 v = true ↔ v < 2 ^ 16 := by simp only [fits16, decide_eq_true_eq]; omega
@[simp] theorem fits8_iff {v : Nat} : fits8 v = true ↔ v < 256 := by simp only [fits8, decide_eq_true_eq]; omega
@[simp] theorem fitsAlen_iff {v : Nat} : fitsAlen v = true ↔ v < 2 ^ 5 := by
  simp only [fitsAlen, decide_eq_true_eq]; omega
@[simp] theorem fitsSel_iff {v : Nat} : fitsSel v = true ↔ v < 2 ^ 2 := by
  simp only [fitsSel, decide_eq_true_eq]; omega

/-- The operands of a well-formed command lie in what its format admits (R89, R97). -/
theorem fieldsOf_admitted {i : Instr} (wf : i.wellFormed = true) :
    (formatOf i).Admits (fieldsOf i).2.1 (fieldsOf i).2.2 := by
  cases i
  case clear | encode | addDns4Req | addDns6Req | addIpalloc | timerEnc => exact ⟨rfl, rfl⟩
  case decode n | addMtu n => exact ⟨rfl, fits16_iff.1 wf⟩
  case addDns4Addr alen | addPcscf4Addr alen | addDns6Addr alen => exact ⟨rfl, fitsAlen_iff.1 wf⟩
  case getUnit idx => exact ⟨rfl, Nat.mul_mod_left idx 256⟩
  case cntSetOvf sel ovf => exact Nat.mul_mod_left ovf 256
  case cntSetSqn sel sqn =>
    simp only [Instr.wellFormed, Bool.and_eq_true, fits8_iff] at wf
    exact wf.2
  case cntSet => exact trivial
  case addUnit | getByte | cntRead | cntGetOvf | cntGetSqn | cntInc => exact rfl

/-- SEL and IMM of a well-formed command fit their fields (R83, R97). -/
theorem fieldsOf_lt {i : Instr} (wf : i.wellFormed = true) :
    (fieldsOf i).2.1 < 2 ^ 2 ∧ (fieldsOf i).2.2 < 2 ^ 24 := by
  cases i <;> simp only [Instr.wellFormed, Bool.and_eq_true, fits16_iff, fits8_iff, fitsAlen_iff, fitsSel_iff] at wf <;>
    simp only [fieldsOf] <;> omega

/-! ## The opcode map by fields (R90) -/

/-- A word with a well-formed command's fields is read as that command. -/
theorem opcodeRow_of_fields {w : Word} {i : Instr} (wf : i.wellFormed = true) (h : wordFields w = fieldsOf i) :
    opcodeRow (bits w 31 26) w = some (formatOf i, i) := by
  simp only [wordFields, Prod.ext_iff] at h
  obtain ⟨op, sel, imm⟩ := h
  rw [op]
  cases i <;> simp only [fieldsOf] at sel imm ⊢ <;> simp only [opcodeRow, formatOf, sel]
  case decode n | addMtu n => rw [bits_15_0, imm, Nat.mod_eq_of_lt (fits16_iff.1 wf)]
  case addDns4Addr alen | addPcscf4Addr alen | addDns6Addr alen =>
    rw [bits_4_0, imm, Nat.mod_eq_of_lt (fitsAlen_iff.1 wf)]
  case getUnit idx | cntSetOvf sel ovf => rw [bits_23_8, imm, Nat.mul_div_cancel _ (by decide : 0 < 256)]
  case cntSetSqn sel sqn =>
    simp only [Instr.wellFormed, Bool.and_eq_true, fits8_iff] at wf
    rw [bits_7_0, imm, Nat.mod_eq_of_lt wf.2]
  case addUnit high low | getByte high low | cntSet sel high low =>
    simp only [Instr.wellFormed, Bool.and_eq_true, fits8_iff] at wf
    rw [bits_23_8, bits_7_0, imm, mul256_add_div wf.2, mul256_add_mod wf.2]

/-- A command read from a word whose format admits its SEL and IMM has the word's fields. -/
theorem fieldsOf_of_opcodeRow {op : Nat} {w : Word} {f : Format} {i : Instr} (row : opcodeRow op w = some (f, i))
    (admitted : f.Admits (bits w 25 24) (bits w 23 0)) : fieldsOf i = (op, bits w 25 24, bits w 23 0) := by
  unfold opcodeRow at row
  split at row <;> cases row <;> simp only [Format.Admits] at admitted <;>
    simp only [fieldsOf, bits_23_8, bits_15_0, bits_7_0, bits_4_0, Prod.mk.injEq, true_and] <;> omega

/-! ## The round trip (R83, R89, R92) -/

/-- The assembled word is the sum of the command's fields at their places (R83). -/
theorem encode_toNat : ∀ i : Instr, EncodedFields.Statement i
  | .clear => EncodedFields.clear
  | .encode => EncodedFields.encode
  | .decode n => EncodedFields.decode n
  | .addUnit id len => EncodedFields.addUnit id len
  | .addDns4Req => EncodedFields.addDns4Req
  | .addDns6Req => EncodedFields.addDns6Req
  | .addIpalloc => EncodedFields.addIpalloc
  | .addDns4Addr alen => EncodedFields.addDns4Addr alen
  | .addPcscf4Addr alen => EncodedFields.addPcscf4Addr alen
  | .addDns6Addr alen => EncodedFields.addDns6Addr alen
  | .addMtu mtu => EncodedFields.addMtu mtu
  | .getUnit idx => EncodedFields.getUnit idx
  | .getByte idx bidx => EncodedFields.getByte idx bidx
  | .cntRead sel => EncodedFields.cntRead sel
  | .cntGetOvf sel => EncodedFields.cntGetOvf sel
  | .cntGetSqn sel => EncodedFields.cntGetSqn sel
  | .cntSet sel ovf sqn => EncodedFields.cntSet sel ovf sqn
  | .cntSetOvf sel ovf => EncodedFields.cntSetOvf sel ovf
  | .cntSetSqn sel sqn => EncodedFields.cntSetSqn sel sqn
  | .cntInc sel => EncodedFields.cntInc sel
  | .timerEnc => EncodedFields.timerEnc

/-- The fields of the assembled word are the command's. -/
theorem wordFields_encode {i : Instr} (wf : i.wellFormed = true) : wordFields (encode i) = fieldsOf i :=
  wordFields_of_toNat (encode_toNat i wf) (fieldsOf_lt wf).1 (fieldsOf_lt wf).2

/-- Settles O1: the word's fields are the command's, so its row is the command's and its reserved bits are 0. -/
theorem encodedCommandDecodesToItself : Obligations.EncodedCommandDecodesToItself := by
  intro i wf
  have fields := wordFields_encode wf
  have row := opcodeRow_of_fields wf fields
  refine decode_of_row row ((reserved_zero_iff_admits _ _).2 ?_)
  simp only [wordFields, Prod.ext_iff] at fields
  obtain ⟨-, sel, imm⟩ := fields
  rw [sel, imm]
  exact fieldsOf_admitted wf

/-- Settles O2: the command has the word's fields, and OP, SEL and IMM are the whole word. -/
theorem decodedWordIsItsCommandsEncoding : Obligations.DecodedWordIsItsCommandsEncoding := by
  intro w i h
  have wf := Machine.wellFormed_of_decode h
  refine ⟨wf, wordFields_injective ?_⟩
  rcases decode_cases w with ⟨_, e⟩ | ⟨f, j, row, ⟨free, e⟩ | ⟨_, e⟩⟩ <;> rw [e] at h <;> cases h
  rw [wordFields_encode wf]
  exact fieldsOf_of_opcodeRow row ((reserved_zero_iff_admits _ _).1 free)

end Sys2Proof
end

