-- ==== Sys2Proof/Proofs/WordClasses.lean ====
section
/-! SUPPORT. The three classes of words, the assembler's example words, and the word an accepted command line writes. -/

namespace Sys2Proof.Machine

/-! ## The three classes (30_encoding.md R92) -/

/-- A word whose OP is in the table and that has no reserved bit set decodes. -/
theorem decode_ok_of_table {w : Word} (h : ∃ row ∈ tableOpcodes, row.1 = w.toNat / 2 ^ 26 ∧ w &&& row.2 = 0) :
    ∃ i, decode w = .ok i := by
  obtain ⟨row, mem, op, free⟩ := h
  obtain ⟨f, i, known, mask⟩ := opcodeRow_of_table w row mem
  rw [op, ← bits_op] at known
  exact ⟨i, decode_of_row known (by rwa [mask])⟩

/-- By the table, every word is in one of the three classes. -/
theorem table_cases (w : Word) :
    (∀ row ∈ tableOpcodes, row.1 ≠ w.toNat / 2 ^ 26)
      ∨ (∃ row ∈ tableOpcodes, row.1 = w.toNat / 2 ^ 26 ∧ w &&& row.2 ≠ 0)
      ∨ (∃ row ∈ tableOpcodes, row.1 = w.toNat / 2 ^ 26 ∧ w &&& row.2 = 0) := by
  by_cases defined : ∃ row ∈ tableOpcodes, row.1 = w.toNat / 2 ^ 26
  · obtain ⟨row, mem, op⟩ := defined
    by_cases free : w &&& row.2 = 0
    · exact .inr (.inr ⟨row, mem, op, free⟩)
    · exact .inr (.inl ⟨row, mem, op, free⟩)
  · exact .inl fun row mem op => defined ⟨row, mem, op⟩

/-- Settles O3: each class of the table has its own answer of the decoder, and the classes cover every word. -/
theorem wordFallsInOneOfThreeClasses : Obligations.WordFallsInOneOfThreeClasses := by
  intro w
  refine ⟨⟨fun bad => ?_, decode_badOpcode⟩, ⟨fun reserved => ?_, decode_reservedNonzero⟩,
    ⟨fun ⟨i, ok⟩ => ?_, decode_ok_of_table⟩⟩ <;>
  rcases table_cases w with undefined | set | free
  · exact undefined
  · simp [decode_reservedNonzero set] at bad
  · obtain ⟨i, ok⟩ := decode_ok_of_table free
    simp [ok] at bad
  · simp [decode_badOpcode undefined] at reserved
  · exact set
  · obtain ⟨i, ok⟩ := decode_ok_of_table free
    simp [ok] at reserved
  · simp [decode_badOpcode undefined] at ok
  · simp [decode_reservedNonzero set] at ok
  · exact free

/-! ## The assembler's words (R95-R97) -/

/-- Settles O5: an accepted line's command is well-formed, so the word written is one that decodes to it. -/
theorem assembledCommandWritesAValidWordToCmd : Obligations.AssembledCommandWritesAValidWordToCmd := by
  intro p i es accepted
  simp only [HostLine.events, Option.ite_none_right_eq_some, Option.some.injEq] at accepted
  obtain ⟨wf, rfl⟩ := accepted
  exact ⟨wf, encode i, encodedCommandDecodesToItself i wf, rfl⟩

/-- A word that is the encoding of a well-formed command decodes to it. -/
theorem decode_of_encode {w : Word} {i : Instr} (word : encode i = w) (wf : i.wellFormed = true) :
    decode w = .ok i := by
  rw [← word, encodedCommandDecodesToItself i wf]

/-- Settles O4: each word is the encoding of its line's command. -/
theorem assemblerExampleWordsDecode : Obligations.AssemblerExampleWordsDecode := by
  refine ⟨?_, ?_, ?_, ?_, ?_, ?_, ?_, ?_, ?_, ?_, ?_⟩
  all_goals exact decode_of_encode rfl rfl

end Sys2Proof.Machine
end

