-- ==== Sys2Proof/Proofs/CommandReports.lean ====
section
/-! SUPPORT. What a command reports in STATUS: one legal outcome always, and the operand and select checks that fail before any write. -/

namespace Sys2Proof.Machine

/-! ## Every command's report (30_encoding.md R84, 60_exceptions.md R186) -/

/-- No command writes STICKY before it completes. -/
theorem CommandEnd.sticky {s : State} {i : Instr} {e : Ended} (h : CommandEnd s i e) : e.state.sticky = s.sticky := by
  cases h with
  | refused | answered | counted | appended | cleared => simp
  | encoded fit state => simp [state]
  | decoded m n fit room code state => simp [state]

/-- Completing a command reports success or its error, clears BUSY, and leaves STICKY set where it was. -/
theorem complete_report (e : Ended) : e.complete.busy = false
    ∧ legalReport e.complete.err e.complete.errCode e.complete.errDetail = true
    ∧ e.complete.sticky = (e.state.sticky || e.complete.err) := by
  cases e with
  | ok s => simp [State.busy, legalReport]
  | raised e s => simp [State.busy, legalReport_error]

/-- Settles O12. -/
theorem everyCommandReportsOneLegalOutcome : Obligations.EveryCommandReportsOneLegalOutcome := by
  intro i s
  obtain ⟨e, completes, hend⟩ := exec_commandEnd i s
  obtain ⟨idle, legal, sticky⟩ := complete_report e
  exact ⟨e.complete, completes, idle, legal, by rw [sticky, hend.sticky]⟩

/-! ## Checks that fail before any write (30_encoding.md R87, R88) -/

/-- A command that raises at once fails with its error, and nothing but STATUS changes. -/
theorem failed_of_raised {s : State} {i : Instr} {e : CmdError}
    (h : exec i s = .next (Ended.raised e s).complete) :
    ∃ t, exec i s = .next t ∧ Failed e.code e.detail t ∧ UnchangedBut [] s t :=
  ⟨_, h, failed_complete_raised s e, unchanged_of_raised s e 0⟩

/-- Settles O22. -/
theorem decodeRefusesMoreBytesThanIbufHolds : Obligations.DecodeRefusesMoreBytesThanIbufHolds := by
  intro s n above
  refine failed_of_raised (e := .command .badOperand) ?_
  simp only [exec, execDecode, if_pos above]

/-- GET_UNIT of an index past the list raises BAD_OPERAND (41_tlv_builders.md R139). -/
theorem exec_getUnit_past_list {s : State} {idx : Nat} (past : s.units.length ≤ idx) :
    exec (.getUnit idx) s = .next (Ended.raised (.command .badOperand) s).complete := by
  simp only [exec, execGetUnit, List.getElem?_eq_none past]

/-- GET_BYTE of an index past the list raises BAD_OPERAND (R140). -/
theorem exec_getByte_past_list {s : State} {idx : Nat} (bidx : Nat) (past : s.units.length ≤ idx) :
    exec (.getByte idx bidx) s = .next (Ended.raised (.command .badOperand) s).complete := by
  simp only [exec, execGetByte, List.getElem?_eq_none past]

/-- GET_BYTE of a byte past the unit's content raises BAD_OPERAND (R140). -/
theorem exec_getByte_past_content {s : State} {idx bidx : Nat} {u : ContainerUnit} (unit : s.units[idx]? = some u)
    (past : u.content.length ≤ bidx) :
    exec (.getByte idx bidx) s = .next (Ended.raised (.command .badOperand) s).complete := by
  simp only [exec, execGetByte, unit, List.getElem?_eq_none past]

/-- Settles O39. -/
theorem readbackPastTheEndIsABadOperand : Obligations.ReadbackPastTheEndIsABadOperand := by
  intro s idx bidx
  exact ⟨fun past => failed_of_raised (exec_getUnit_past_list past),
    fun past => failed_of_raised (exec_getByte_past_list bidx past),
    fun _ unit past => failed_of_raised (exec_getByte_past_content unit past)⟩

/-- A counter the block does not have fails the select check, whatever the command's effect (30_encoding.md R87). -/
theorem withCounter_absent {s : State} {sel : Nat} (absent : s.params.numCounters ≤ sel) (effect : State → State) :
    s.withCounter sel effect = .raised (.command .badSelect) s := by
  rcases withCounter_cases sel s effect with ⟨_, refused⟩ | ⟨present, _⟩
  · exact refused
  · omega

/-- A command that checks its select and finds no such counter raises BAD_SELECT and changes nothing but STATUS. -/
theorem badSelect_of_absent {s : State} {i : Instr} {sel : Nat} {effect : State → State}
    (absent : s.params.numCounters ≤ sel) (h : exec i s = .next (s.withCounter sel effect).complete) :
    ∃ t, exec i s = .next t ∧ Failed 6 3 t ∧ UnchangedBut [] s t := by
  rw [withCounter_absent absent] at h
  exact failed_of_raised h

/-- Settles O42: all seven commands run their effect through the select check. -/
theorem badCounterSelectChangesOnlyStatus : Obligations.BadCounterSelectChangesOnlyStatus := by
  intro s sel ovf sqn absent i hi
  simp only [List.mem_cons, List.not_mem_nil, or_false] at hi
  rcases hi with rfl | rfl | rfl | rfl | rfl | rfl | rfl
  all_goals exact badSelect_of_absent absent rfl

end Sys2Proof.Machine
end

section
/-! SUPPORT. The wire form as ENCODE's field writes: the list that fits, and the first field that does not. CLEAR. -/

namespace Sys2Proof.Machine

/-! ## CLEAR (40_tlv_codec.md R103) -/

/-- Settles O17. -/
theorem clearEmptiesTheList : Obligations.ClearEmptiesTheList := by
  intro s
  exact ⟨_, rfl, succeeded_complete_ok rfl, rfl, rfl, unchanged_but_units s [] 0⟩

/-! ## ENCODE's writes -/

/-- The wire form has as many bytes as its size says (R102). -/
theorem wireForm_length (us : List ContainerUnit) : (wireForm us).length = wireSize us := by
  rw [wireSize_eq, wireForm, List.length_cons, Nat.add_comm]

/-- Bytes that were just written are held. -/
theorem Memory.holds_writeBytes (m : Memory) (a : Nat) (bytes : List Byte) :
    Holds (Memory.writeBytes m a bytes) a bytes :=
  fun _ inside => Memory.read_writeBytes_inside bytes m a inside

/-- ENCODE that has written `bytes`, with success or an error, holds them at OBUF[0], has left every byte past them,
and has written nothing but OBUF and its registers (R104-R106). -/
theorem encode_wrote {s : State} {bytes : List Byte} {e : Ended}
    (wrote : e.state = (s.writeObuf 0 bytes).endEncode bytes.length) :
    e.complete.outLen = BitVec.ofNat 32 bytes.length ∧ e.complete.obufPtr = 0
      ∧ Holds e.complete.obuf 0 bytes
      ∧ (∀ a, bytes.length ≤ a → e.complete.obuf.read a = s.obuf.read a)
      ∧ UnchangedBut [.obuf, .outPort] s e.complete := by
  have obuf : e.complete.obuf = Memory.writeBytes s.obuf 0 bytes := by rw [complete_obuf, wrote]; rfl
  refine ⟨by rw [complete_outLen, wrote]; rfl, by rw [complete_obufPtr, wrote]; rfl, ?_, fun a past => ?_, ?_⟩
  · rw [obuf]
    exact Memory.holds_writeBytes s.obuf 0 bytes
  · rw [obuf]
    exact Memory.read_writeBytes_above bytes s.obuf (by omega)
  · rw [unchangedBut_complete, wrote]
    simp [UnchangedBut, OperandsUnchanged]

/-- Settles O18. -/
theorem encodeWritesTheWireForm : Obligations.EncodeWritesTheWireForm := by
  intro s fits
  have wrote := encode_wrote (s := s) (bytes := wireForm s.units)
    (e := .ok ((s.writeObuf 0 (wireForm s.units)).endEncode (wireSize s.units))) (by rw [wireForm_length]; rfl)
  rw [wireForm_length] at wrote
  exact ⟨_, exec_encode_of_fits fits, succeeded_complete_ok rfl, wrote⟩

/-! ## The first field that does not fit (R105, R173) -/

/-- The bytes of fields one after the other. -/
def fieldBytes (fields : List (BitVec 4 × List Byte)) : List Byte := fields.flatMap Prod.snd

/-- The three fields of a unit's wire form in the order ENCODE writes them (R104). -/
def unitFields (u : ContainerUnit) : List (BitVec 4 × List Byte) :=
  [(WireField.id.detail, bytes16 u.id), (WireField.length.detail, [BitVec.ofNat 8 u.content.length]),
    (WireField.content.detail, u.content)]

/-- A list's wire fields are the meta byte's and then each unit's. -/
theorem wireFields_eq (us : List ContainerUnit) :
    wireFields us = (WireField.metaByte.detail, [0x80]) :: us.flatMap unitFields := by
  simp only [wireFields, ← bytes16_eq]
  rfl

/-- On every state whose OBUF has `size` bytes, this part of ENCODE writes the whole ones of `fields` from offset `o`
on, up to the first that passes the end of OBUF, and raises EncodingError naming that one. -/
def StopsAtMisfit (size o : Nat) (fields : List (BitVec 4 × List Byte)) (part : State → Ended) : Prop :=
  ∃ before f bytes after, fields = before ++ (WireField.detail f, bytes) :: after
    ∧ o + (fieldBytes before).length ≤ size ∧ size < o + (fieldBytes before).length + bytes.length
    ∧ ∀ s : State, s.params.obufSize = size → part s
      = .raised (.encoding f) ((s.writeObuf o (fieldBytes before)).endEncode (o + (fieldBytes before).length))

/-- A field write stops at its own field, or else where the part after it stops. -/
theorem stopsAtMisfit_put {size o : Nat} {fields : List (BitVec 4 × List Byte)} {k : Nat → State → Ended}
    (f : WireField) (bytes : List Byte) (inside : o ≤ size)
    (after : o + bytes.length ≤ size → StopsAtMisfit size (o + bytes.length) fields (k (o + bytes.length))) :
    StopsAtMisfit size o ((f.detail, bytes) :: fields) fun s => s.put f bytes o k := by
  by_cases fits : o + bytes.length ≤ size
  · obtain ⟨before, g, misfit, rest, split, whole, past, stops⟩ := after fits
    have joined : fieldBytes ((f.detail, bytes) :: before) = bytes ++ fieldBytes before := rfl
    refine ⟨(f.detail, bytes) :: before, g, misfit, rest, by rw [split]; rfl, ?_, ?_, fun s hs => ?_⟩
    · rw [joined, List.length_append]; omega
    · rw [joined, List.length_append]; omega
    · show s.put f bytes o k = _
      rw [put_of_fits k (hs ▸ fits), stops (s.writeObuf o bytes) hs, writeObuf_append, joined, List.length_append,
        Nat.add_assoc]
  · refine ⟨[], f, bytes, fields, rfl, inside, by simpa [fieldBytes] using fits, fun s hs => ?_⟩
    rcases put_cases f bytes o s k with ⟨_, passed⟩ | ⟨h, _⟩
    · exact passed
    · omega

/-- ENCODE's loop over units whose wire form does not fit stops at the first field that passes the end (R104). -/
theorem stopsAtMisfit_encodeUnits {size : Nat} {us : List ContainerUnit} {o : Nat} (inside : o ≤ size)
    (past : size < o + (wireUnits us).length) :
    StopsAtMisfit size o (us.flatMap unitFields) (encodeUnits us o) := by
  induction us generalizing o with
  | nil => simp at past; omega
  | cons u us ih =>
    rw [wireUnits_cons, List.length_append, wireUnit_length] at past
    refine stopsAtMisfit_put .id (bytes16 u.id) inside fun idFits => ?_
    refine stopsAtMisfit_put .length _ idFits fun lengthFits => ?_
    refine stopsAtMisfit_put .content u.content lengthFits fun contentFits => ih contentFits ?_
    have idLength : (bytes16 u.id).length = 2 := rfl
    simp only [idLength, List.length_singleton]
    omega

/-- ENCODE of a list whose wire form does not fit stops at the first field that passes the end of OBUF. -/
theorem stopsAtMisfit_encode {size : Nat} {us : List ContainerUnit} (past : size < wireSize us) :
    StopsAtMisfit size 0 (wireFields us) fun s => s.put .metaByte [0x80] 0 (encodeUnits us) := by
  rw [wireFields_eq]
  rw [wireSize_eq] at past
  exact stopsAtMisfit_put .metaByte [0x80] (Nat.zero_le size) fun metaFits => stopsAtMisfit_encodeUnits metaFits past

/-- Settles O19. -/
theorem encodeStopsAtTheFirstFieldThatDoesNotFit : Obligations.EncodeStopsAtTheFirstFieldThatDoesNotFit := by
  intro s misfit
  obtain ⟨before, f, bytes, after, split, whole, past, stops⟩ := stopsAtMisfit_encode misfit
  rw [Nat.zero_add] at whole past
  have run : exec .encode s = .next (Ended.raised (.encoding f)
      ((s.writeObuf 0 (fieldBytes before)).endEncode (0 + (fieldBytes before).length))).complete :=
    congrArg (fun e => Host.Outcome.next (Ended.complete e)) (stops s rfl)
  rw [Nat.zero_add] at run
  exact ⟨before, f.detail, bytes, after, _, split, whole, past, run, failed_complete_raised _ (.encoding f),
    encode_wrote rfl⟩

end Sys2Proof.Machine
end

section
/-! SUPPORT. DECODE's state machine on every input: the bytes a step consumes, and the number of steps. -/

namespace Sys2Proof.Machine

/-! ## One step (40_tlv_codec.md R109-R112, R114) -/

/-- The number of bytes the step of a state reads (R118). -/
def DecodeSt.bytesRead : DecodeSt → Nat
  | .metaByte => 1
  | .readingId => 2
  | .readingLength _ => 1
  | .readingContent _ clen => clen.toNat
  | .done => 0

/-- A state other than DONE and content of length 0 reads at least one byte. -/
theorem DecodeSt.bytesRead_pos {st : DecodeSt} (notDone : st ≠ .done) (notEmpty : ∀ cid, st ≠ .readingContent cid 0) :
    0 < st.bytesRead := by
  cases st with
  | metaByte | readingId | readingLength => simp [DecodeSt.bytesRead]
  | done => exact absurd rfl notDone
  | readingContent cid clen =>
    refine Nat.pos_of_ne_zero fun h => notEmpty cid ?_
    rw [BitVec.eq_of_toNat_eq (x := clen) (y := 0) h]

/-- An append that is made leaves the decode state it was told to. -/
theorem decodeAppend_ok_decoding {d next : DecodeState} {u : ContainerUnit} {s t : State}
    (h : decodeAppend d next u s = .ok t) : t.decoding = some next := by
  rcases decodeAppend_cases d next u s with ⟨_, e⟩ | ⟨_, e⟩ <;> rw [e] at h <;> cases h
  rfl

/-- A step that does not raise found the bytes it reads, and moves them from the remaining count to the cursor. -/
theorem decodeStep_ok_consumes {s t : State} {d : DecodeState} (hd : s.decoding = some d)
    (step : decodeStep s = .ok t) :
    d.st.bytesRead ≤ d.rem
      ∧ ∃ st, t.decoding = some ⟨st, d.cur + d.st.bytesRead, d.rem - d.st.bytesRead⟩ := by
  obtain ⟨st, cur, rem⟩ := d
  cases st with
  | metaByte =>
    simp only [decodeStep, hd, decodeMeta] at step
    split at step
    · cases step
    · cases step
      exact ⟨by simp only [DecodeSt.bytesRead]; omega, _, rfl⟩
  | readingId =>
    simp only [decodeStep, hd, decodeId] at step
    split at step
    · cases step
    · cases step
      exact ⟨by simp only [DecodeSt.bytesRead]; omega, _, rfl⟩
  | readingLength cid =>
    simp only [decodeStep, hd, decodeLength] at step
    split at step
    · cases step
    · refine ⟨by simp only [DecodeSt.bytesRead]; omega, ?_⟩
      split at step
      · exact ⟨_, decodeAppend_ok_decoding step⟩
      · cases step
        exact ⟨_, rfl⟩
  | readingContent cid clen =>
    simp only [decodeStep, hd, decodeContent] at step
    split at step
    · cases step
    · exact ⟨by simp only [DecodeSt.bytesRead]; omega, _, decodeAppend_ok_decoding step⟩
  | done =>
    simp only [decodeStep, hd] at step
    cases step
    exact ⟨Nat.zero_le _, _, hd⟩

/-- Settles O28. -/
theorem decodeStepKeepsCursorPlusRemaining : Obligations.DecodeStepKeepsCursorPlusRemaining := by
  intro s t d d' hd step hd'
  obtain ⟨enough, st, moved⟩ := decodeStep_ok_consumes hd step
  obtain rfl : _ = d' := Option.some.inj (moved.symm.trans hd')
  refine ⟨by simp only; omega, fun notDone notEmpty => ?_⟩
  have := DecodeSt.bytesRead_pos notDone notEmpty
  simp only
  omega

/-! ## The whole run (R113, R119) -/

/-- Once the fuel exceeds the bytes remaining, more of it changes nothing. -/
theorem decodeLoop_more_fuel {fuel : Nat} (extra : Nat) {s : State} {d : DecodeState} (hd : s.decoding = some d)
    (runs : d.st.runs) (enough : d.rem < fuel) : decodeLoop (fuel + extra) s = decodeLoop fuel s := by
  induction fuel generalizing s d with
  | zero => omega
  | succ fuel ih =>
    rw [Nat.add_right_comm]
    rcases decodeStep_cases s d hd runs with ⟨e, n, step, _⟩ | ⟨us, n, d', step, runs', less, _⟩
    · rw [decodeLoop_raised _ step, decodeLoop_raised _ step]
    · rw [decodeLoop_ok _ step, decodeLoop_ok _ step, ih (setDecoding_decoding _ _) runs' (by omega)]

/-- Settles O29. -/
theorem decodeStopsWithinNPlusOneSteps : Obligations.DecodeStopsWithinNPlusOneSteps := by
  intro s n
  have more := fun extra => decodeLoop_more_fuel (fuel := n + 1) extra
    (s := (s.setUnits []).setDecoding ⟨.metaByte, 0, n⟩) rfl trivial (Nat.lt_succ_self n)
  obtain ⟨us, m, c, _, _, finished | ⟨e, raised, code⟩⟩ := decodeLoop_cases (n + 1)
    ((s.setUnits []).setDecoding ⟨.metaByte, 0, n⟩) _ rfl trivial (Nat.lt_succ_self n)
  · exact ⟨_, rfl, .inl ⟨finished, rfl⟩, more⟩
  · exact ⟨_, rfl, .inr ⟨e, raised, code⟩, more⟩

end Sys2Proof.Machine
end

section
/-! SUPPORT. DECODE of written bytes: the whole wire form, the bytes that end inside a unit, and that there is no third kind of bytes. -/

namespace Sys2Proof.Machine

/-! ## DECODE of at most one byte (40_tlv_codec.md R107-R109) -/

/-- DECODE of no bytes fails at the meta byte. -/
theorem exec_decode_zero (s : State) : exec (.decode 0) s
    = .next (Ended.raised (.truncatedInput .metaByte) (((s.drawn 0).setUnits []).endDecode 1)).complete := rfl

/-- DECODE of one byte discards it and ends DONE with an empty list. -/
theorem exec_decode_one {s : State} (size : 1 ≤ s.params.ibufSize) : exec (.decode 1) s
    = .next (Ended.ok (((s.drawn 1).setUnits []).endDecode 5)).complete := by
  show Host.Outcome.next (if 1 > s.params.ibufSize then Ended.raised (.command .badOperand) s
    else decodeLoop (1 + 1) ((s.setUnits []).setDecoding ⟨.metaByte, 0, 1⟩)).complete = _
  rw [if_neg (by omega)]
  rfl

/-- A DECODE that ends with a list and a DEC_STATE, with success or an error, writes nothing else but STATUS. -/
theorem unchanged_but_decode {s : State} {us : List ContainerUnit} {n : Nat} {c : BitVec 3} {e : Ended}
    (ended : e.state = ((s.drawn n).setUnits us).endDecode c) : UnchangedBut [.units, .decState] s e.complete := by
  rw [unchangedBut_complete, ended]
  simp [UnchangedBut, OperandsUnchanged]

/-- Settles O26. -/
theorem decodeOfNoBytesFailsAtTheMetaByte : Obligations.DecodeOfNoBytesFailsAtTheMetaByte := by
  intro s
  exact ⟨_, exec_decode_zero s, failed_complete_raised _ (.truncatedInput .metaByte), rfl, rfl,
    unchanged_but_decode rfl⟩

/-! ## The whole wire form (R113, R117, R118) -/

/-- A unit that is the last of the bytes is appended where the list has room, and the loop ends DONE. -/
theorem decodeLoop_last_unit {s : State} {cur fuel : Nat} {u : ContainerUnit}
    (hd : s.decoding = some ⟨.readingId, cur, (wireUnit u).length⟩) (held : Holds s.ibuf cur (wireUnit u))
    (fit : u.content.length ≤ 255) (hf : (wireUnit u).length < fuel) (room : s.units.length ≠ s.params.maxUnits) :
    ∃ n, decodeLoop fuel s = .ok (((s.drawn n).setUnits (s.units ++ [u])).endDecode 5) := by
  obtain ⟨t, fuel', n, d, reach, _, _, step⟩ := decodeLoop_reaches_append hd held fit (Nat.le_refl _) hf
  rw [Nat.sub_self] at step
  rcases decodeAppend_cases d ⟨.readingId, cur + (wireUnit u).length, 0⟩ u (s.drawn n) with ⟨full, _⟩ | ⟨_, e⟩
  · exact absurd full room
  · exact ⟨n, by rw [reach, decodeLoop_ok fuel' (step.trans e)]; rfl⟩

/-- DECODE of a meta byte, the wire form of units that fit, and more bytes after them, comes to READING_ID at those
bytes with the units in the list. -/
theorem exec_decode_reaches {s : State} {m : Byte} {us : List ContainerUnit} {r : List Byte}
    (size : 1 + (wireUnits us).length + r.length ≤ s.params.ibufSize)
    (held : Holds s.ibuf 0 (m :: wireUnits us ++ r)) (fit : ContentsFit us) (room : us.length ≤ s.params.maxUnits)
    (more : 0 < r.length) :
    ∃ fuel n cur, r.length < fuel ∧ Holds s.ibuf cur r ∧ exec (.decode (1 + (wireUnits us).length + r.length)) s
      = .next (decodeLoop fuel (((s.drawn n).setUnits us).setDecoding ⟨.readingId, cur, r.length⟩)).complete := by
  obtain ⟨units, after⟩ := holds_append.1 (holds_cons.1 held).2
  obtain ⟨fuel, n, hf, first⟩ := decodeLoop_units (fuel := (wireUnits us).length + r.length + 1)
    (s := ((s.setUnits []).drawn 1).setDecoding ⟨.readingId, 1, (wireUnits us).length + r.length⟩)
    rfl units fit (by omega) (Nat.lt_succ_self _) (by simpa using room)
  rw [Nat.add_sub_cancel_left] at hf first
  refine ⟨fuel, 1 + n, _, hf, after, ?_⟩
  rw [Nat.add_assoc, Nat.add_comm 1, exec_decode_of_more (by omega) (by omega), first, ← drawn_drawn, Nat.zero_add]
  rfl

/-- DECODE of a meta byte and the wire form of a list that fits ends with success, that list, and DONE. -/
theorem exec_decode_wireUnits {s : State} {m : Byte} {us : List ContainerUnit}
    (size : 1 + (wireUnits us).length ≤ s.params.ibufSize) (held : Holds s.ibuf 0 (m :: wireUnits us))
    (fit : ContentsFit us) (room : us.length ≤ s.params.maxUnits) :
    ∃ n, exec (.decode (1 + (wireUnits us).length)) s
      = .next (Ended.ok (((s.drawn n).setUnits us).endDecode 5)).complete := by
  rcases List.eq_nil_or_concat us with rfl | ⟨before, u, rfl⟩
  · exact ⟨1, exec_decode_one size⟩
  · simp only [List.concat_eq_append, wireUnits_append, wireUnits_cons, wireUnits_nil, List.append_nil,
      List.length_append, List.length_singleton, ← Nat.add_assoc] at size held fit room ⊢
    obtain ⟨fuel, k, cur, hf, last, run⟩ := exec_decode_reaches size held
      (fun v hv => fit v (List.mem_append_left _ hv)) (by omega) (by simp)
    obtain ⟨n, ends⟩ := decodeLoop_last_unit (u := u) (fuel := fuel)
      (s := ((s.drawn k).setUnits before).setDecoding ⟨.readingId, cur, (wireUnit u).length⟩) rfl last
      (fit u (List.mem_append_right _ (List.mem_singleton_self u))) hf (Nat.ne_of_lt room)
    refine ⟨k + n, ?_⟩
    rw [run, ends, ← drawn_drawn]
    rfl

/-- Settles O23. -/
theorem decodeRecoversTheUnitsOfAWireForm : Obligations.DecodeRecoversTheUnitsOfAWireForm := by
  rintro s _ m us size held rfl fit room
  obtain ⟨n, run⟩ := exec_decode_wireUnits size held fit room
  exact ⟨_, run, succeeded_complete_ok rfl, rfl, rfl, unchanged_but_decode rfl⟩

/-- Settles O30: ENCODE writes the wire form, whose meta byte DECODE discards. -/
theorem decodeAfterEncodeReturnsTheList : Obligations.DecodeAfterEncodeReturnsTheList := by
  intro s fit room outFits inFits
  obtain ⟨t, run, success, outLen, _, written, _, _⟩ := encodeWritesTheWireForm s outFits
  refine ⟨t, run, success, outLen, fun c params copied => ?_⟩
  have held : Holds c.ibuf 0 (wireForm s.units) := fun j hj => by
    rw [← written j hj, Nat.zero_add]
    exact copied j (by rwa [← wireForm_length])
  obtain ⟨d, decoded, recovered, units, _⟩ := decodeRecoversTheUnitsOfAWireForm c _ 0x80 s.units
    (by rwa [params]) held (wireSize_eq s.units) fit (by rwa [params])
  exact ⟨d, decoded, recovered, units⟩

/-! ## Bytes that end inside a unit (R110-R113, R121) -/

/-- The field of an open unit's wire form that its bytes do not complete (R101). -/
def missingField (r : List Byte) : WireField :=
  if r.length = 1 then .id else if r.length = 2 then .length else .content

/-- The DEC_STATE value of the state that reads a field (10_state.md R27, 40_tlv_codec.md R118). -/
def WireField.readCode : WireField → BitVec 3
  | .metaByte => 1
  | .id => 2
  | .length => 3
  | .content => 4

/-- READING_ID with at least two bytes remaining reads some id from them. -/
theorem decodeStep_some_id {s : State} {cur rem : Nat} (hd : s.decoding = some ⟨.readingId, cur, rem⟩)
    (room : 2 ≤ rem) :
    ∃ id, decodeStep s = .ok ((s.drawn 2).setDecoding ⟨.readingLength id, cur + 2, rem - 2⟩) := by
  refine ⟨be16 (s.ibufByte cur 0) (s.ibufByte (cur + 1) 1), ?_⟩
  simp only [decodeStep, hd, decodeId]
  exact if_neg (by omega)

/-- One byte lacks part of the id. -/
theorem missingField_of_one {r : List Byte} (h : r.length = 1) : missingField r = .id := if_pos h

/-- Two bytes lack the length. -/
theorem missingField_of_two {r : List Byte} (h : r.length = 2) : missingField r = .length := by
  simp [missingField, h]

/-- The header is whole, so an open unit lacks content. -/
theorem missingField_of_three_le {r : List Byte} (h : 3 ≤ r.length) : missingField r = .content := by
  rw [missingField, if_neg (by omega), if_neg (by omega)]

/-- READING_CONTENT with fewer bytes remaining than the unit's length raises TruncatedInputError (R112). -/
theorem decodeStep_content_short {s : State} {cur rem : Nat} {id : BitVec 16} {len : Byte}
    (hd : s.decoding = some ⟨.readingContent id len, cur, rem⟩) (short : rem < len.toNat) :
    decodeStep s = .raised (.truncatedInput .content) (s.endDecode 4) := by
  simp only [decodeStep, hd, decodeContent]
  exact if_pos short

/-- From READING_ID over an open unit that the bytes end in, the loop raises TruncatedInputError of the missing field
in the state that reads it, and appends nothing. -/
theorem decodeLoop_open {s : State} {cur fuel : Nat} {r : List Byte}
    (hd : s.decoding = some ⟨.readingId, cur, r.length⟩) (held : Holds s.ibuf cur r) (isOpen : OpenUnit r)
    (hf : r.length < fuel) :
    ∃ n, decodeLoop fuel s
      = .raised (.truncatedInput (missingField r)) ((s.drawn n).endDecode (missingField r).readCode) := by
  obtain ⟨nonempty, short⟩ := isOpen
  match r with
  | [_] =>
    obtain ⟨k, rfl⟩ := Nat.exists_eq_add_of_le' (show 1 ≤ fuel by omega)
    refine ⟨0, decodeLoop_raised k ?_⟩
    simp only [decodeStep, hd]
    rfl
  | [_, _] =>
    obtain ⟨k, rfl⟩ := Nat.exists_eq_add_of_le' (show 2 ≤ fuel from Nat.le_of_lt hf)
    obtain ⟨id, idRead⟩ := decodeStep_some_id hd (Nat.le_refl 2)
    exact ⟨2, (decodeLoop_goes_on (k + 1) idRead (.inl nofun)).trans (decodeLoop_raised k rfl)⟩
  | a :: b :: l :: content =>
    have lacking : (a :: b :: l :: content).length < 3 + l.toNat := short l rfl
    simp only [List.length_cons] at hd hf lacking
    obtain ⟨k, rfl⟩ := Nat.exists_eq_add_of_le' (show 3 ≤ fuel by omega)
    obtain ⟨id, idRead⟩ := decodeStep_some_id hd (by omega)
    have pos : l ≠ 0 := by rintro rfl; simp at lacking; omega
    have lengthRead := decodeStep_length (s := (s.drawn 2).setDecoding
      ⟨.readingLength id, cur + 2, content.length + 1⟩) rfl (held 2 (by simp)) pos (by omega)
    have contentShort := decodeStep_content_short (s := ((s.drawn 2).drawn 1).setDecoding
      ⟨.readingContent id l, cur + 3, content.length⟩) rfl (by omega)
    refine ⟨3, (decodeLoop_goes_on (k + 2) idRead (.inl nofun)).trans
      ((decodeLoop_goes_on (k + 1) lengthRead (.inl nofun)).trans ((decodeLoop_raised k contentShort).trans ?_))⟩
    rfl

/-- Settles O25. -/
theorem decodeNeverStoresAnOpenUnit : Obligations.DecodeNeverStoresAnOpenUnit := by
  intro s m us r size held fit room isOpen
  obtain ⟨fuel, k, cur, hf, last, reach⟩ := exec_decode_reaches size held fit room isOpen.1
  obtain ⟨n, ends⟩ := decodeLoop_open (fuel := fuel)
    (s := ((s.drawn k).setUnits us).setDecoding ⟨.readingId, cur, r.length⟩) rfl last isOpen hf
  have run : exec (.decode (1 + (wireUnits us).length + r.length)) s
      = .next (Ended.raised (.truncatedInput (missingField r))
          (((s.drawn (k + n)).setUnits us).endDecode (missingField r).readCode)).complete := by
    rw [reach, ends, ← drawn_drawn]
    rfl
  have failed := failed_complete_raised (((s.drawn (k + n)).setUnits us).endDecode (missingField r).readCode)
    (.truncatedInput (missingField r))
  refine ⟨_, run, rfl, fun one => ?_, fun two => ?_, fun three => ?_, unchanged_but_decode rfl⟩
  · rw [missingField_of_one one] at failed ⊢
    exact ⟨failed, rfl⟩
  · rw [missingField_of_two two] at failed ⊢
    exact ⟨failed, rfl⟩
  · rw [missingField_of_three_le three] at failed ⊢
    exact ⟨failed, rfl⟩

/-! ## There is no third kind of bytes (R113) -/

/-- The two big-endian bytes of the value two bytes spell are those bytes (20_memory.md R68). -/
theorem bytes16_be16 (a b : Byte) : bytes16 (be16 a b) = [a, b] := by
  have low : (a ++ b).extractLsb' 0 8 = b := BitVec.extractLsb'_append_eq_right
  have high : (a ++ b).extractLsb' 8 8 = a := BitVec.extractLsb'_append_eq_left
  rw [bytes16, be16, low, high]

/-- A unit read from its three header bytes and as many bytes as the third says. -/
theorem wireUnit_of_header {a b l : Byte} {content : List Byte} (whole : content.length = l.toNat) :
    wireUnit ⟨be16 a b, content⟩ = a :: b :: l :: content := by
  rw [wireUnit_fields, bytes16_be16, whole, BitVec.ofNat_toNat, BitVec.setWidth_eq]
  rfl

/-- Every string of bytes is the wire form of some units, followed by nothing or by an open unit. -/
theorem exists_wireUnits_append (bytes : List Byte) :
    ∃ us r, bytes = wireUnits us ++ r ∧ ContentsFit us ∧ (r = [] ∨ OpenUnit r) := by
  have noUnits : ContentsFit [] := fun _ h => absurd h List.not_mem_nil
  match bytes with
  | [] => exact ⟨[], [], rfl, noUnits, .inl rfl⟩
  | [a] => exact ⟨[], [a], rfl, noUnits, .inr ⟨by simp, by simp⟩⟩
  | [a, b] => exact ⟨[], [a, b], rfl, noUnits, .inr ⟨by simp, by simp⟩⟩
  | a :: b :: l :: rest =>
    by_cases short : rest.length < l.toNat
    · refine ⟨[], a :: b :: l :: rest, rfl, noUnits, .inr ⟨by simp, fun k hk => ?_⟩⟩
      obtain rfl : l = k := Option.some.inj hk
      simp only [List.length_cons]
      omega
    · have whole : (rest.take l.toNat).length = l.toNat := by rw [List.length_take]; omega
      obtain ⟨us, r, split, fit, ending⟩ := exists_wireUnits_append (rest.drop l.toNat)
      refine ⟨⟨be16 a b, rest.take l.toNat⟩ :: us, r, ?_, ?_, ending⟩
      · rw [wireUnits_cons, wireUnit_of_header whole, List.append_assoc, ← split]
        simp
      · refine List.forall_mem_cons.2 ⟨?_, fit⟩
        have := l.isLt
        simp only [whole]
        omega
termination_by bytes.length
decreasing_by simp; omega

/-- DECODE of bytes that end inside a unit fails. -/
theorem decode_of_open_unit_fails {s : State} {m : Byte} {us : List ContainerUnit} {r : List Byte}
    (size : 1 + (wireUnits us).length + r.length ≤ s.params.ibufSize)
    (held : Holds s.ibuf 0 (m :: wireUnits us ++ r)) (fit : ContentsFit us) (room : us.length ≤ s.params.maxUnits)
    (isOpen : OpenUnit r) :
    ∃ t, exec (.decode (1 + (wireUnits us).length + r.length)) s = .next t ∧ t.err = true := by
  obtain ⟨t, run, _, one, two, three, _⟩ := decodeNeverStoresAnOpenUnit s m us r size held fit room isOpen
  refine ⟨t, run, ?_⟩
  have nonempty := isOpen.1
  obtain h | h | h : r.length = 1 ∨ r.length = 2 ∨ 3 ≤ r.length := by omega
  · exact (one h).1.1
  · exact (two h).1.1
  · exact (three h).1.1

/-- DECODE of more units than the list holds fails, whatever comes after them. -/
theorem decode_past_maxUnits_fails {s : State} {m : Byte} {us : List ContainerUnit} {r : List Byte}
    (size : 1 + (wireUnits us).length + r.length ≤ s.params.ibufSize)
    (held : Holds s.ibuf 0 (m :: wireUnits us ++ r)) (fit : ContentsFit us) (past : s.params.maxUnits < us.length) :
    ∃ t, exec (.decode (1 + (wireUnits us).length + r.length)) s = .next t ∧ t.err = true := by
  obtain ⟨before, u, after, rfl, full⟩ : ∃ before u after, us = before ++ [u] ++ after
      ∧ before.length = s.params.maxUnits :=
    ⟨us.take s.params.maxUnits, us[s.params.maxUnits], us.drop (s.params.maxUnits + 1), by simp, by simp; omega⟩
  rw [wireUnits_append, List.length_append, ← Nat.add_assoc, Nat.add_assoc _ (wireUnits after).length,
    ← List.length_append] at size ⊢
  obtain ⟨t, run, failed, _⟩ := decodeStopsWhenTheListIsFull s m before u (wireUnits after ++ r) size
    (by simpa using held) (fun v hv => fit v (List.mem_append_left _ hv)) full
  exact ⟨t, run, failed.1⟩

/-- Settles O24: after the meta byte come some units and nothing or an open unit. A success leaves neither an open unit
(O25) nor more units than the list holds (O27), and of the rest it recovers the units (O23). -/
theorem successfulDecodeReadAWholeWireForm : Obligations.SuccessfulDecodeReadAWholeWireForm := by
  intro s t bytes size held run ok
  cases bytes with
  | nil =>
    rw [List.length_nil, exec_decode_zero] at run
    cases run
    cases ok
  | cons m body =>
    obtain ⟨us, r, rfl, fit, ending⟩ := exists_wireUnits_append body
    have length : (m :: (wireUnits us ++ r)).length = 1 + (wireUnits us).length + r.length := by
      simp only [List.length_cons, List.length_append]
      omega
    rw [length] at size run
    have succeeds : ¬ ∃ t', exec (.decode (1 + (wireUnits us).length + r.length)) s = .next t' ∧ t'.err = true := by
      rintro ⟨t', decoded, failed⟩
      obtain rfl : t' = t := Host.Outcome.next.inj (decoded.symm.trans run)
      rw [failed] at ok
      cases ok
    by_cases room : us.length ≤ s.params.maxUnits
    · rcases ending with rfl | isOpen
      · simp only [List.append_nil, List.length_nil, Nat.add_zero] at size held run ⊢
        obtain ⟨t', decoded, _, units, _⟩ := decodeRecoversTheUnitsOfAWireForm s _ m us size held rfl fit room
        obtain rfl : t' = t := Host.Outcome.next.inj (decoded.symm.trans run)
        exact ⟨units ▸ fit, m, by rw [units]⟩
      · exact absurd (decode_of_open_unit_fails size held fit room isOpen) succeeds
    · exact absurd (decode_past_maxUnits_fails size held fit (Nat.lt_of_not_le room)) succeeds

end Sys2Proof.Machine
end

section
/-! SUPPORT. What the commands that append one unit put into it, and what they refuse (41_tlv_builders.md R124-R137); the readback of a unit and of its bytes (R139, R140). -/

namespace Sys2Proof.Machine

/-! ## Appends on a list with room -/

/-- A command that appends a unit on a list with room succeeds, and only that list and STATUS change. -/
theorem appends_of_room {s : State} {i : Instr} {u : ContainerUnit} (room : s.units.length < s.params.maxUnits)
    (h : exec i s = .next (s.append u).complete) :
    ∃ t, exec i s = .next t ∧ Succeeded s t ∧ t.units = s.units ++ [u] ∧ UnchangedBut [.units] s t := by
  rw [append_of_room room] at h
  exact ⟨_, h, succeeded_complete_ok rfl, rfl, unchanged_but_units s _ 0⟩

/-- A builder whose operand is accepted on a list with room succeeds with the operand's bytes as the content. -/
theorem appends_of_operand {s : State} {i : Instr} {id : BitVec 16} {c : Except CmdError (List Byte)}
    {content : List Byte} (room : s.units.length < s.params.maxUnits) (accepted : c = .ok content)
    (h : exec i s = .next (s.appendOperand id c).complete) :
    ∃ t, exec i s = .next t ∧ Succeeded s t ∧ t.units = s.units ++ [⟨id, content⟩]
      ∧ UnchangedBut [.units] s t := by
  rw [accepted, appendOperand_ok] at h
  exact appends_of_room room h

/-- A builder whose operand raised fails with the operand's error, and nothing but STATUS changes (R127). -/
theorem fails_of_operand {s : State} {i : Instr} {id : BitVec 16} {c : Except CmdError (List Byte)} {e : CmdError}
    (refused : c = .error e) (h : exec i s = .next (s.appendOperand id c).complete) :
    ∃ t, exec i s = .next t ∧ Failed e.code e.detail t ∧ UnchangedBut [] s t := by
  rw [refused, appendOperand_error] at h
  exact failed_of_raised h

/-! ## Address bytes (R128) -/

/-- A register's four bytes determine it. -/
theorem registerBytes_injective : Function.Injective registerBytes := by
  intro v w h
  simp only [registerBytes, List.cons.injEq, and_true, BitVec.toNat_eq, BitVec.toNat_ofNat] at h
  obtain ⟨byte3, byte2, byte1, byte0⟩ := h
  have hv := v.isLt
  have hw := w.isLt
  apply BitVec.eq_of_toNat_eq
  omega

/-- The bytes of an address in two parts, one after the other. -/
theorem addrBytes_add (s : State) (first m n : Nat) :
    s.addrBytes first (m + n) = s.addrBytes first m ++ s.addrBytes (first + m) n := by
  simp [State.addrBytes, List.range_add, Nat.add_assoc]

/-- Address byte 4k + j is byte j of ARG[k], the most significant first. -/
theorem addrByte_register (s : State) (k : Nat) {j : Nat} (hj : j < 4) :
    s.addrByte (4 * k + j) = BitVec.ofNat 8 ((s.arg k).toNat / 2 ^ (24 - 8 * j)) := by
  rw [State.addrByte, show (4 * k + j) / 4 = k by omega, show (4 * k + j) % 4 = j by omega, BitVec.extractLsb',
    Nat.shiftRight_eq_div_pow]

/-- Address bytes 4k to 4k + 3 are the bytes of ARG[k]. -/
theorem addrBytes_register (s : State) (k : Nat) : s.addrBytes (4 * k) 4 = registerBytes (s.arg k) := by
  calc s.addrBytes (4 * k) 4
      = [s.addrByte (4 * k + 0), s.addrByte (4 * k + 1), s.addrByte (4 * k + 2), s.addrByte (4 * k + 3)] := rfl
    _ = registerBytes (s.arg k) := by
      simp only [addrByte_register, registerBytes, Nat.reduceLT, Nat.reduceMul, Nat.reduceSub, pow_zero, Nat.div_one]

/-- The first twelve address bytes are those of ARG0, ARG1 and ARG2. -/
theorem addrBytes_twelve (s : State) :
    s.addrBytes 0 12 = registerBytes s.arg0 ++ registerBytes s.arg1 ++ registerBytes s.arg2 := by
  rw [addrBytes_add s 0 8 4, addrBytes_add s 0 4 4]
  exact congrArg₂ _ (congrArg₂ _ (addrBytes_register s 0) (addrBytes_register s 1)) (addrBytes_register s 2)

/-- The sixteen address bytes are those of ARG0 to ARG3. -/
theorem addrBytes_sixteen (s : State) :
    s.addrBytes 0 16
      = registerBytes s.arg0 ++ registerBytes s.arg1 ++ registerBytes s.arg2 ++ registerBytes s.arg3 := by
  rw [addrBytes_add s 0 12 4, addrBytes_twelve]
  exact congrArg _ (addrBytes_register s 3)

/-- The converse of `v4Mapped_of_args`: an IPv4-mapped address is in ARG0-ARG2 in no other way (R129),
because the twelve bytes tested determine ARG0, ARG1 and ARG2. -/
theorem args_of_v4Mapped {s : State} (h : s.v4Mapped = true) :
    s.arg0 = 0 ∧ s.arg1 = 0 ∧ s.arg2 = 0x0000FFFF := by
  simp only [State.v4Mapped, Bool.and_eq_true, beq_iff_eq] at h
  obtain ⟨zeros, ones⟩ := h
  have bytes : registerBytes s.arg0 ++ registerBytes s.arg1 ++ registerBytes s.arg2
      = registerBytes 0 ++ registerBytes 0 ++ registerBytes 0x0000FFFF := by
    rw [← addrBytes_twelve, addrBytes_add s 0 10 2, zeros, ones]
    decide
  obtain ⟨front, third⟩ := List.append_inj' bytes rfl
  obtain ⟨first, second⟩ := List.append_inj' front rfl
  exact ⟨registerBytes_injective first, registerBytes_injective second, registerBytes_injective third⟩

/-! ## Address operands (R129, R130) -/

/-- An IPv4 operand of four bytes is those of ARG0. -/
theorem ipv4Operand_four (s : State) : s.ipv4Operand 4 = .ok (registerBytes s.arg0) := by
  rw [State.ipv4Operand, if_pos rfl]
  exact congrArg _ (addrBytes_register s 0)

/-- An IPv4 operand of sixteen bytes that is not accepted as IPv4-mapped is of the other family. -/
theorem ipv4Operand_unmapped {s : State} (refused : ¬ (s.params.acceptV4Mapped = true ∧ s.v4Mapped = true)) :
    s.ipv4Operand 16 = .error .invalidAddressFamily := by
  rw [State.ipv4Operand, if_neg (by decide), if_pos rfl, if_neg (by rwa [Bool.and_eq_true])]

/-- An IPv4 operand of neither family's length. -/
theorem ipv4Operand_odd (s : State) {alen : Nat} (h4 : alen ≠ 4) (h16 : alen ≠ 16) :
    s.ipv4Operand alen = .error .invalidLength := by
  rw [State.ipv4Operand, if_neg h4, if_neg h16]

/-- An IPv6 operand of sixteen bytes is those of ARG0 to ARG3. -/
theorem ipv6Operand_sixteen (s : State) :
    s.ipv6Operand 16
      = .ok (registerBytes s.arg0 ++ registerBytes s.arg1 ++ registerBytes s.arg2 ++ registerBytes s.arg3) := by
  rw [State.ipv6Operand, if_pos rfl, addrBytes_sixteen]

/-- An IPv6 operand of four bytes is of the other family. -/
theorem ipv6Operand_four (s : State) : s.ipv6Operand 4 = .error .invalidAddressFamily := by
  rw [State.ipv6Operand, if_neg (by decide), if_pos rfl]

/-- An IPv6 operand of neither family's length. -/
theorem ipv6Operand_odd (s : State) {alen : Nat} (h4 : alen ≠ 4) (h16 : alen ≠ 16) :
    s.ipv6Operand alen = .error .invalidLength := by
  rw [State.ipv6Operand, if_neg h16, if_neg h4]

/-! ## The builders -/

/-- Settles O33: both accepted forms are four bytes of one register. -/
theorem ipv4BuildersAppendFourAddressBytes : Obligations.Ipv4BuildersAppendFourAddressBytes := by
  intro s alen reg room form
  have accepted : s.ipv4Operand alen = .ok (registerBytes reg) := by
    rcases form with ⟨rfl, rfl⟩ | ⟨rfl, accept, h0, h1, h2, rfl⟩
    · exact ipv4Operand_four s
    · rw [ipv4Operand_mapped accept (v4Mapped_of_args h0 h1 h2)]
      exact congrArg _ (addrBytes_register s 3)
  exact ⟨appends_of_operand room accepted rfl, appends_of_operand room accepted rfl⟩

/-- Settles O35: the operand raises before the append looks at the list. -/
theorem addressBuildersRefuseTheOtherFamilyAndOddLengths :
    Obligations.AddressBuildersRefuseTheOtherFamilyAndOddLengths := by
  intro s alen
  refine ⟨?ipv6InIpv4, ?ipv4InIpv6, ?oddLength⟩
  case ipv6InIpv4 =>
    rintro rfl unmapped
    have refused : s.ipv4Operand 16 = .error .invalidAddressFamily :=
      ipv4Operand_unmapped fun ⟨accept, mapped⟩ => unmapped ⟨accept, args_of_v4Mapped mapped⟩
    exact ⟨fails_of_operand refused rfl, fails_of_operand refused rfl⟩
  case ipv4InIpv6 =>
    rintro rfl
    exact fails_of_operand (ipv6Operand_four s) rfl
  case oddLength =>
    intro _ h4 h16 i hi
    simp only [List.mem_cons, List.not_mem_nil, or_false] at hi
    rcases hi with rfl | rfl | rfl
    · exact fails_of_operand (ipv4Operand_odd s h4 h16) rfl
    · exact fails_of_operand (ipv4Operand_odd s h4 h16) rfl
    · exact fails_of_operand (ipv6Operand_odd s h4 h16) rfl

/-- A command that appends ends with one unit more, or raised with the list as it was. -/
theorem CommandEnd.one_unit_or_none {s : State} {i : Instr} {e : Ended} (h : CommandEnd s i e)
    (kind : commandKind i = .append) :
    (e.complete.err = false ∧ ∃ u, e.complete.units = s.units ++ [u])
      ∨ (e.complete.err = true ∧ e.complete.units = s.units) := by
  cases h with
  | refused => exact .inr ⟨rfl, rfl⟩
  | appended => exact .inl ⟨rfl, _, rfl⟩
  | answered other | counted other => rw [other] at kind; cases kind
  | cleared | encoded | decoded => cases kind

/-- Settles O37: ADD_UNIT and the seven builders are the commands that append. -/
theorem buildersAppendOneUnitOrNone : Obligations.BuildersAppendOneUnitOrNone := by
  intro s t i h builder
  have kind : commandKind i = .append := by
    rcases builder with ⟨id, len, rfl⟩ | rfl | rfl | rfl | ⟨l, rfl⟩ | ⟨l, rfl⟩ | ⟨l, rfl⟩ | ⟨m, rfl⟩ <;> rfl
  obtain ⟨e, rfl, hend⟩ := commandEnd_of_exec h
  rcases hend.one_unit_or_none kind with ⟨ok, unit⟩ | ⟨failed, same⟩
  · exact ⟨fun _ => unit, by simp [ok]⟩
  · exact ⟨by simp [failed], fun _ => same⟩

/-- The two big-endian bytes of an MTU that fits its field (R136). -/
theorem bytes16_ofNat {v : Nat} (h : v ≤ 0xFFFF) :
    bytes16 (BitVec.ofNat 16 v) = [BitVec.ofNat 8 (v / 256), BitVec.ofNat 8 (v % 256)] := by
  rw [bytes16_eq, BitVec.toNat_ofNat, Nat.mod_eq_of_lt (by omega)]

/-- Settles O32. -/
theorem requestAndMtuBuildersAppendTheirUnit : Obligations.RequestAndMtuBuildersAppendTheirUnit := by
  intro s mtu fits room
  refine ⟨appends_of_room room rfl, appends_of_room room rfl, appends_of_room room rfl, ?_⟩
  rw [← bytes16_ofNat fits]
  exact appends_of_room room rfl

/-- Settles O34. -/
theorem ipv6BuilderAppendsSixteenAddressBytes : Obligations.Ipv6BuilderAppendsSixteenAddressBytes :=
  fun s room => appends_of_operand room (ipv6Operand_sixteen s) rfl

/-! ## Readback (R139, R140) -/

/-- A query that answers succeeds, and only RESULT and STATUS change. -/
theorem answers_of_ok {s : State} {i : Instr} {w : Word}
    (h : exec i s = .next (Ended.ok (s.setResult w)).complete) :
    ∃ t, exec i s = .next t ∧ Succeeded s t ∧ t.result = w ∧ UnchangedBut [.result] s t :=
  ⟨_, h, succeeded_complete_ok rfl, rfl, by simp [UnchangedBut, OperandsUnchanged]⟩

/-- GET_UNIT of an index of the list answers the unit's header. -/
theorem exec_getUnit_of_unit {s : State} {idx : Nat} {u : ContainerUnit} (unit : s.units[idx]? = some u) :
    exec (.getUnit idx) s = .next (Ended.ok (s.setResult u.header)).complete := by
  simp only [exec, execGetUnit, unit]

/-- GET_BYTE of an index of the unit's content answers that byte. -/
theorem exec_getByte_of_byte {s : State} {idx bidx : Nat} {u : ContainerUnit} {b : Byte}
    (unit : s.units[idx]? = some u) (byte : u.content[bidx]? = some b) :
    exec (.getByte idx bidx) s = .next (Ended.ok (s.setResult (b.setWidth 32))).complete := by
  simp only [exec, execGetByte, unit, byte]

/-- In the header of a unit that fits, the length does not reach the id's bits. -/
theorem header_eq_add {u : ContainerUnit} (fit : u.content.length ≤ 255) :
    u.header = BitVec.ofNat 32 (u.id.toNat * 256 + u.content.length) := by
  rw [ContainerUnit.header, ← Nat.shiftLeft_add_eq_or_of_lt (by omega), Nat.shiftLeft_eq]

/-- Settles O38. -/
theorem readbackAnswersTheUnitAndItsBytes : Obligations.ReadbackAnswersTheUnitAndItsBytes := by
  intro s idx bidx u unit fit
  constructor
  · rw [← header_eq_add fit]
    exact answers_of_ok (exec_getUnit_of_unit unit)
  · intro b byte
    rw [BitVec.ofNat_toNat]
    exact answers_of_ok (exec_getByte_of_byte unit byte)

end Sys2Proof.Machine
end

section
/-! SUPPORT. The security counter commands: the fields of a counter, what a query answers and a write leaves, and increments one after the other. -/

namespace Sys2Proof.Machine

/-! ## The fields of a counter (42_security_counter.md R142) -/

/-- The `overflow` field is bits 23:8. -/
theorem ofNat_overflowOf (c : Word) : BitVec.ofNat 32 (overflowOf c) = (c.extractLsb' 8 16).setWidth 32 := by
  apply BitVec.eq_of_toNat_eq
  simp [overflowOf, Nat.shiftRight_eq_div_pow]

/-- The `sqn` field is bits 7:0. -/
theorem ofNat_sqnOf (c : Word) : BitVec.ofNat 32 (sqnOf c) = (c.extractLsb' 0 8).setWidth 32 := by
  apply BitVec.eq_of_toNat_eq
  simp [sqnOf]

/-- Bits 23:8 of two counters are the same where their `overflow` is. -/
theorem extract_overflow_congr {c d : Word} (h : overflowOf c = overflowOf d) :
    c.extractLsb' 8 16 = d.extractLsb' 8 16 := by
  apply BitVec.eq_of_toNat_eq
  simpa [overflowOf, Nat.shiftRight_eq_div_pow] using h

/-- Bits 7:0 of two counters are the same where their `sqn` is. -/
theorem extract_sqn_congr {c d : Word} (h : sqnOf c = sqnOf d) : c.extractLsb' 0 8 = d.extractLsb' 0 8 := by
  apply BitVec.eq_of_toNat_eq
  simpa [sqnOf] using h

theorem overflowOf_le (c : Word) : overflowOf c ≤ 0xFFFF := by
  unfold overflowOf
  omega

theorem sqnOf_le (c : Word) : sqnOf c ≤ 0xFF := by
  unfold sqnOf
  omega

/-- A `sqn` that fits its field does not reach the bits of `overflow`. -/
theorem countOf_eq_add (ovf : Nat) {sqn : Nat} (hsqn : sqn ≤ 0xFF) : countOf ovf sqn = ovf * 256 + sqn := by
  rw [countOf, ← Nat.shiftLeft_add_eq_or_of_lt (by omega), Nat.shiftLeft_eq]

/-- Two fields that fit make a counter's 24 bits, so writing them reduces nothing (R143). -/
theorem countOf_mod {ovf sqn : Nat} (hovf : ovf ≤ 0xFFFF) (hsqn : sqn ≤ 0xFF) :
    countOf ovf sqn % 2 ^ 24 = countOf ovf sqn := by
  rw [countOf_eq_add ovf hsqn]
  omega

/-- A counter made of two fields that fit has that `overflow`. -/
theorem overflowOf_countOf {ovf sqn : Nat} (hovf : ovf ≤ 0xFFFF) (hsqn : sqn ≤ 0xFF) :
    overflowOf (BitVec.ofNat 32 (countOf ovf sqn)) = ovf := by
  rw [overflowOf, countOf_eq_add ovf hsqn, BitVec.toNat_ofNat]
  omega

/-- A counter made of two fields has that `sqn`, if it fits. -/
theorem sqnOf_countOf (ovf : Nat) {sqn : Nat} (hsqn : sqn ≤ 0xFF) :
    sqnOf (BitVec.ofNat 32 (countOf ovf sqn)) = sqn := by
  rw [sqnOf, countOf_eq_add ovf hsqn, BitVec.toNat_ofNat]
  omega

/-- The mask of bits 23:8 leaves `overflow` at its place. -/
theorem overflow_shift_eq_and (c : Word) : BitVec.ofNat 32 (overflowOf c <<< 8) = c &&& 0x00FFFF00 := by
  have masked : c.toNat &&& (2 ^ 16 - 1) <<< 8 = overflowOf c <<< 8 := by
    apply Nat.eq_of_testBit_eq
    intro i
    rw [overflowOf, Nat.testBit_and, Nat.testBit_shiftLeft, Nat.testBit_shiftLeft, Nat.testBit_mod_two_pow,
      Nat.testBit_div_two_pow, Nat.testBit_two_pow_sub_one]
    by_cases field : 8 ≤ i
    · simp [field, Bool.and_comm]
    · simp [field]
  rw [← masked, BitVec.ofNat_and, BitVec.ofNat_toNat, BitVec.setWidth_eq]
  rfl

/-- Replacing `sqn` keeps the bits of `overflow` and sets those below (R154). -/
theorem ofNat_countOf_overflow (c : Word) (sqn : Nat) :
    BitVec.ofNat 32 (countOf (overflowOf c) sqn) = (c &&& 0x00FFFF00) ||| BitVec.ofNat 32 sqn := by
  rw [countOf, BitVec.ofNat_or, overflow_shift_eq_and]

/-! ## Frames (R158) -/

/-- A command that writes nothing keeps every frame. -/
theorem UnchangedBut.refl (written : List Part) (s : State) : UnchangedBut written s s := by
  simp [UnchangedBut, OperandsUnchanged]

/-- A query's answer changes RESULT alone. -/
theorem unchangedBut_setResult {written : List Part} (listed : .result ∈ written) (s : State) (w : Word) :
    UnchangedBut written s (s.setResult w) := by
  simp [UnchangedBut, OperandsUnchanged, listed]

/-- A counter write changes that counter alone. -/
theorem unchangedBut_setCount {written : List Part} {k : Nat} (listed : .counter k ∈ written) (hk : k ≤ 3) (s : State)
    (v : Nat) : UnchangedBut written s (s.setCount k v) := by
  have others : ∀ j, j < 4 → .counter j ∉ written → (s.setCount k v).count j = s.count j := by
    intro j hj unlisted
    exact setCount_count_other s k v (by omega) hj fun same => unlisted (same ▸ listed)
  refine ⟨?_, ?_, others, ?_⟩ <;> simp [OperandsUnchanged]

/-- A command that checks its select keeps the frame of its effect, whether the check passes or not (30_encoding.md
R87). -/
theorem unchangedBut_of_withCounter {s : State} {i : Instr} {sel : Nat} {effect : State → State} {written : List Part}
    (frame : UnchangedBut written s (effect s)) (h : exec i s = .next (s.withCounter sel effect).complete) :
    ∃ t, exec i s = .next t ∧ UnchangedBut written s t := by
  refine ⟨_, h, (unchangedBut_complete _).2 ?_⟩
  rcases withCounter_cases sel s effect with ⟨_, refused⟩ | ⟨_, passed⟩
  · rw [refused]
    exact UnchangedBut.refl written s
  · rw [passed]
    exact frame

/-- Settles O44: the effect of every counter command is one write of RESULT or of its own counter. -/
theorem countersAreIndependent : Obligations.CountersAreIndependent := by
  intro s sel ovf sqn hsel _ _ i hi
  have answer := unchangedBut_setResult (written := [.result, .counter sel]) (by simp) s
  have count := unchangedBut_setCount (written := [.result, .counter sel]) (by simp) hsel s
  simp only [List.mem_cons, List.not_mem_nil, or_false] at hi
  rcases hi with rfl | rfl | rfl | rfl | rfl | rfl | rfl
  case inl | inr.inl | inr.inr.inl => exact unchangedBut_of_withCounter (answer _) rfl
  all_goals exact unchangedBut_of_withCounter (count _) rfl

/-! ## Commands of a counter that exists (R149-R155) -/

/-- A counter the block has passes the select check (30_encoding.md R87). -/
theorem withCounter_present {s : State} {sel : Nat} (present : sel < s.params.numCounters) (effect : State → State) :
    s.withCounter sel effect = .ok (effect s) := by
  rcases withCounter_cases sel s effect with ⟨absent, _⟩ | ⟨_, passed⟩
  · omega
  · exact passed

/-- A counter query of a counter that exists answers, and only RESULT and STATUS change (R148). -/
theorem answers_of_present {s : State} {i : Instr} {sel : Nat} {w : Word} (present : sel < s.params.numCounters)
    (h : exec i s = .next (s.withCounter sel (State.setResult w)).complete) :
    ∃ t, exec i s = .next t ∧ Succeeded s t ∧ t.result = w ∧ UnchangedBut [.result] s t := by
  rw [withCounter_present present] at h
  exact answers_of_ok h

/-- A write of a counter that exists succeeds and leaves the value modulo 2^24 there, and only that counter and STATUS
change (R143, R145). -/
theorem counts_of_present {s : State} {i : Instr} {sel v : Nat} {w : Word} (present : sel < s.params.numCounters)
    (hsel : sel ≤ 3) (h : exec i s = .next (s.withCounter sel (State.setCount sel v)).complete)
    (value : BitVec.ofNat 32 (v % 2 ^ 24) = w) :
    ∃ t, exec i s = .next t ∧ Succeeded s t ∧ t.count sel = w ∧ UnchangedBut [.counter sel] s t := by
  rw [withCounter_present present] at h
  refine ⟨_, h, succeeded_complete_ok (setCount_sticky s sel v), ?_, ?_⟩
  · rw [complete_ok_count, setCount_count_same, value]
  · exact (unchangedBut_complete _).2 (unchangedBut_setCount List.mem_cons_self hsel s v)

/-- Settles O40. -/
theorem counterQueriesAnswerTheFields : Obligations.CounterQueriesAnswerTheFields := by
  intro s sel present
  rw [← ofNat_overflowOf, ← ofNat_sqnOf]
  exact ⟨answers_of_present present rfl, answers_of_present present rfl, answers_of_present present rfl⟩

/-- Settles O41: the fields a setter joins fit, so only CNT_INC can wrap. -/
theorem counterCommandsWriteTheirCounter : Obligations.CounterCommandsWriteTheirCounter := by
  intro s sel ovf sqn present hsel hovf hsqn
  refine ⟨counts_of_present present hsel rfl ?set, counts_of_present present hsel rfl ?setOvf,
    counts_of_present present hsel rfl ?setSqn, counts_of_present present hsel rfl rfl⟩
  case set => rw [countOf_mod hovf hsqn, countOf_eq_add ovf hsqn]
  case setOvf =>
    rw [countOf_mod hovf (sqnOf_le _), countOf_eq_add ovf (sqnOf_le _)]
    rfl
  case setSqn => rw [countOf_mod (overflowOf_le _) hsqn, ofNat_countOf_overflow]

/-! ## Reading back (R156) -/

/-- The value of a query's answer, without its report and frame. -/
theorem result_of_present {s : State} {i : Instr} {sel : Nat} {w : Word} (present : sel < s.params.numCounters)
    (h : exec i s = .next (s.withCounter sel (State.setResult w)).complete) :
    ∃ t, exec i s = .next t ∧ t.result = w := by
  obtain ⟨t, run, _, result, _⟩ := answers_of_present present h
  exact ⟨t, run, result⟩

/-- A counter setter of a counter that exists leaves the two fields it joined, if they fit. -/
theorem fields_of_present {s : State} {i : Instr} {sel ovf sqn : Nat} (present : sel < s.params.numCounters)
    (hovf : ovf ≤ 0xFFFF) (hsqn : sqn ≤ 0xFF)
    (h : exec i s = .next (s.withCounter sel (State.setCount sel (countOf ovf sqn))).complete) :
    ∃ t, exec i s = .next t ∧ t.params = s.params ∧ t.count sel = BitVec.ofNat 32 (countOf ovf sqn) := by
  rw [withCounter_present present] at h
  exact ⟨_, h, by simp, by rw [complete_ok_count, setCount_count_same, countOf_mod hovf hsqn]⟩

/-- Settles O43. -/
theorem counterFieldsReadBackAsSet : Obligations.CounterFieldsReadBackAsSet := by
  intro s sel ovf sqn present _ hovf hsqn
  refine ⟨?readback, ?keepsSqn, ?keepsOvf⟩
  case readback =>
    obtain ⟨t, run, params, count⟩ := fields_of_present (i := .cntSet sel ovf sqn) present hovf hsqn rfl
    have still : sel < t.params.numCounters := by rwa [params]
    have ovfKept : overflowOf (t.count sel) = ovf := by rw [count, overflowOf_countOf hovf hsqn]
    have sqnKept : sqnOf (t.count sel) = sqn := by rw [count, sqnOf_countOf ovf hsqn]
    refine ⟨t, run, ?_, ?_, ?_⟩
    · rw [← ovfKept]
      exact result_of_present still rfl
    · rw [← sqnKept]
      exact result_of_present still rfl
    · show ∃ u, exec (.cntRead sel) t = .next u ∧ u.result = BitVec.ofNat 32 (countOf ovf sqn)
      rw [← count]
      exact result_of_present still rfl
  case keepsSqn =>
    obtain ⟨t, run, _, count⟩ := fields_of_present (i := .cntSetOvf sel ovf) present hovf (sqnOf_le _) rfl
    exact ⟨t, run, extract_sqn_congr (by rw [count, sqnOf_countOf ovf (sqnOf_le _)])⟩
  case keepsOvf =>
    obtain ⟨t, run, _, count⟩ := fields_of_present (i := .cntSetSqn sel sqn) present (overflowOf_le _) hsqn rfl
    exact ⟨t, run, extract_overflow_congr (by rw [count, overflowOf_countOf (overflowOf_le _) hsqn])⟩

/-! ## Increments one after the other (R157) -/

/-- CNT_INC of a counter that exists adds one modulo 2^24 and keeps the parameters (R155). -/
theorem cntInc_count {s t : State} {sel : Nat} (present : sel < s.params.numCounters)
    (h : exec (.cntInc sel) s = .next t) :
    t.params = s.params ∧ (t.count sel).toNat = ((s.count sel).toNat + 1) % 2 ^ 24 := by
  have run : exec (.cntInc sel) s
      = .next (s.withCounter sel (State.setCount sel ((s.count sel).toNat + 1))).complete := rfl
  rw [run, withCounter_present present] at h
  cases h
  refine ⟨by simp, ?_⟩
  rw [complete_ok_count, setCount_count_same, BitVec.toNat_ofNat]
  omega

/-- Each of a run of CNT_INC commands counts on from the value before the first, modulo 2^24. -/
theorem cntInc_run {run : Nat → State} {sel k : Nat} (present : sel < (run 0).params.numCounters)
    (start : ((run 0).count sel).toNat < 2 ^ 24)
    (steps : ∀ j, j < k → exec (.cntInc sel) (run j) = .next (run (j + 1))) (j : Nat) (hj : j ≤ k) :
    (run j).params = (run 0).params
      ∧ ((run j).count sel).toNat = (((run 0).count sel).toNat + j) % 2 ^ 24 := by
  induction j with
  | zero => exact ⟨rfl, (Nat.mod_eq_of_lt start).symm⟩
  | succ j ih =>
    obtain ⟨params, count⟩ := ih (by omega)
    obtain ⟨params', count'⟩ := cntInc_count (by rwa [params]) (steps j (by omega))
    refine ⟨params'.trans params, ?_⟩
    rw [count', count]
    omega

/-- Settles O45. -/
theorem repeatedIncrementsCountModulo2Pow24 : Obligations.RepeatedIncrementsCountModulo2Pow24 := by
  intro run sel k present _ start steps
  have count : ∀ j, j ≤ k → ((run j).count sel).toNat = (((run 0).count sel).toNat + j) % 2 ^ 24 :=
    fun j hj => (cntInc_run present start steps j hj).2
  refine ⟨count k le_rfl, fun j hj => ?_, fun full => ?_⟩
  · rw [count j hj]
    omega
  · apply BitVec.eq_of_toNat_eq
    rw [count k le_rfl, full]
    omega

end Sys2Proof.Machine
end

section
/-! SUPPORT. TIMER_ENC: the byte or the error of each tier, and what the command makes of it. -/

namespace Sys2Proof.Machine

/-! ## The byte of each tier (43_gprs_timer.md R162-R166) -/

/-- Tier 1 halves an even number of seconds (R163). -/
theorem timerByte_twoSeconds {sec : Nat} (low : sec ≤ 64) (even : sec % 2 = 0) : timerByte sec = .ok (sec / 2) := by
  simp only [timerByte, if_pos low, if_pos even]

/-- Tier 1 refuses an odd number of seconds (R163). -/
theorem timerByte_odd {sec : Nat} (low : sec ≤ 64) (odd : sec % 2 = 1) :
    timerByte sec = .error (.invalidGranularity .notMult2s) := by
  have uneven : ¬ sec % 2 = 0 := by omega
  simp only [timerByte, if_pos low, if_neg uneven]

/-- Tier 2 takes the whole minutes, up to 31 (R164). -/
theorem timerByte_minutes {sec : Nat} (above : 65 ≤ sec) (below : sec ≤ 1919) :
    timerByte sec = .ok (0x20 ||| sec / 60) := by
  have past : ¬ sec ≤ 64 := by omega
  have minutes : sec / 60 ≤ 31 := by omega
  simp only [timerByte, if_neg past, if_pos minutes]

/-- From 1920 seconds on only tier 3 is left, with its two checks in order (R165, R166). -/
theorem timerByte_tier3 {sec : Nat} (above : 1920 ≤ sec) :
    timerByte sec = if sec / 60 % 6 ≠ 0 then .error (.invalidGranularity .notMultDecihour)
      else if sec / 60 / 6 > 31 then .error (.invalidGranularity .outOfRange)
      else .ok (0x40 ||| sec / 60 / 6) := by
  have past : ¬ sec ≤ 64 := by omega
  have minutes : ¬ sec / 60 ≤ 31 := by omega
  simp only [timerByte, if_neg past, if_neg minutes]

/-- Tier 3 refuses minutes that are not whole deci-hours (R165). -/
theorem timerByte_offDecihour {sec : Nat} (above : 1920 ≤ sec) (off : sec / 60 % 6 ≠ 0) :
    timerByte sec = .error (.invalidGranularity .notMultDecihour) := by
  rw [timerByte_tier3 above, if_pos off]

/-- Tier 3 takes the deci-hours, up to 31 (R165). -/
theorem timerByte_decihours {sec : Nat} (above : 1920 ≤ sec) (below : sec ≤ 11519) (whole : sec / 60 % 6 = 0) :
    timerByte sec = .ok (0x40 ||| sec / 60 / 6) := by
  rw [timerByte_tier3 above, if_neg (not_not.2 whole), if_neg (by omega)]

/-- Tier 3 refuses 32 deci-hours and more (R166). -/
theorem timerByte_outOfRange {sec : Nat} (above : 11520 ≤ sec) (whole : sec / 60 % 6 = 0) :
    timerByte sec = .error (.invalidGranularity .outOfRange) := by
  rw [timerByte_tier3 (by omega), if_neg (not_not.2 whole), if_pos (by omega)]

/-- The tier a byte comes from; its value of 5 bits does not reach the unit bits, so joining them adds. -/
theorem timerByte_ok_cases {sec b : Nat} (h : timerByte sec = .ok b) :
    (sec ≤ 64 ∧ b = sec / 2)
      ∨ (65 ≤ sec ∧ sec ≤ 1919 ∧ b = 0x20 + sec / 60)
      ∨ (1920 ≤ sec ∧ sec ≤ 11519 ∧ sec / 60 % 6 = 0 ∧ b = 0x40 + sec / 60 / 6) := by
  rcases Nat.lt_or_ge sec 65 with low | past
  case inl =>
    rcases Nat.mod_two_eq_zero_or_one sec with even | odd
    · rw [timerByte_twoSeconds (by omega) even] at h
      cases h
      omega
    · rw [timerByte_odd (by omega) odd] at h
      cases h
  rcases Nat.lt_or_ge sec 1920 with below | above
  case inl =>
    rw [timerByte_minutes past (by omega), ← Nat.two_pow_add_eq_or_of_lt (i := 5) (by omega) 1] at h
    cases h
    omega
  by_cases whole : sec / 60 % 6 = 0
  case neg =>
    rw [timerByte_offDecihour above whole] at h
    cases h
  rcases Nat.lt_or_ge sec 11520 with inside | outside
  · rw [timerByte_decihours above (by omega) whole, ← Nat.two_pow_add_eq_or_of_lt (i := 6) (by omega) 1] at h
    cases h
    omega
  · rw [timerByte_outOfRange outside whole] at h
    cases h

/-! ## The command (R167, R168) -/

/-- TIMER_ENC of a number of seconds that has a byte answers it, and only RESULT and STATUS change. -/
theorem timerEnc_of_ok {s t : State} {b : Nat} (run : exec .timerEnc s = .next t)
    (byte : timerByte s.arg0.toNat = .ok b) :
    Succeeded s t ∧ t.result = BitVec.ofNat 32 b ∧ UnchangedBut [.result] s t := by
  have completes : exec .timerEnc s = .next (Ended.ok (s.setResult (BitVec.ofNat 32 b))).complete := by
    simp only [exec, execTimerEnc, byte]
  obtain ⟨u, run', outcome⟩ := answers_of_ok completes
  cases run.symm.trans run'
  exact outcome

/-- TIMER_ENC of a number of seconds that has none fails, and only STATUS changes. -/
theorem timerEnc_of_error {s t : State} {e : CmdError} (run : exec .timerEnc s = .next t)
    (error : timerByte s.arg0.toNat = .error e) : Failed e.code e.detail t ∧ UnchangedBut [] s t := by
  have completes : exec .timerEnc s = .next (Ended.raised e s).complete := by
    simp only [exec, execTimerEnc, error]
  obtain ⟨u, run', outcome⟩ := failed_of_raised completes
  cases run.symm.trans run'
  exact outcome

/-- Settles O46: from 11220 to 11519 seconds the minutes are not whole deci-hours, so every input above 11219 meets one
of tier 3's two failures. -/
theorem timerOutcomeOfEveryInput : Obligations.TimerOutcomeOfEveryInput := by
  intro s
  obtain ⟨t, run⟩ : ∃ t, exec .timerEnc s = .next t := ⟨_, rfl⟩
  have offDecihour (above : 1920 ≤ s.arg0.toNat) (off : s.arg0.toNat / 60 % 6 ≠ 0) :
      Failed 5 2 t ∧ UnchangedBut [] s t := timerEnc_of_error run (timerByte_offDecihour above off)
  have outOfRange (above : 11520 ≤ s.arg0.toNat) (whole : s.arg0.toNat / 60 % 6 = 0) :
      Failed 5 3 t ∧ UnchangedBut [] s t := timerEnc_of_error run (timerByte_outOfRange above whole)
  refine ⟨t, run, fun low even => timerEnc_of_ok run (timerByte_twoSeconds low even),
    fun above below => timerEnc_of_ok run (timerByte_minutes above below),
    fun above below whole => timerEnc_of_ok run (timerByte_decihours above below whole),
    fun low odd => timerEnc_of_error run (timerByte_odd low odd), offDecihour, outOfRange, fun past => ?_⟩
  by_cases whole : s.arg0.toNat / 60 % 6 = 0
  · exact (outOfRange (by omega) whole).1.1
  · exact (offDecihour (by omega) whole).1.1

/-- Settles O47: an input of at most 31 minutes gives at most 0x3F, and one of tier 3 has at least 32 minutes, so at
least 6 whole deci-hours. -/
theorem timerBytesOfTheTiersAreDisjoint : Obligations.TimerBytesOfTheTiersAreDisjoint := by
  intro s t run success
  cases byte : timerByte s.arg0.toNat with
  | error e =>
    obtain ⟨⟨failed, _⟩, _⟩ := timerEnc_of_error run byte
    exact absurd (failed.symm.trans success) (by decide)
  | ok b =>
    obtain ⟨_, result, _⟩ := timerEnc_of_ok run byte
    have tiers := timerByte_ok_cases byte
    have value : t.result.toNat = b := by
      rw [result, BitVec.toNat_ofNat]
      omega
    rw [value]
    rcases tiers with ⟨_, rfl⟩ | ⟨_, _, rfl⟩ | ⟨_, _, _, rfl⟩ <;> omega

end Sys2Proof.Machine
end

section
/-! SUPPORT. Every step answers a next state: only a running word could stop the machine, and every word completes. -/

namespace Sys2Proof.Machine

/-- The running word leaves a next state: its decoded command completes one of its ends, and a word that is no command
completes its CommandError (30_encoding.md R84-R86). -/
theorem runCommand_answers (w : Word) (s : State) : ∃ t, runCommand w s = .next t := by
  cases decoded : decode w with
  | error e => exact ⟨_, runCommand_illegal decoded s⟩
  | ok i =>
    obtain ⟨e, completes, _⟩ := exec_commandEnd i s
    exact ⟨e.complete, (runCommand_decoded decoded s).trans completes⟩

/-- While a command runs, the step either takes one event of the schedule or completes the command (20_memory.md R57,
logs 6 and 7). -/
theorem busyTurn_cases (w : Word) (s : State) :
    (∃ t, busyTurn w s = .next t) ∨ ∃ u, busyTurn w s = runCommand w u := by
  unfold busyTurn
  split
  · exact .inr ⟨_, rfl⟩
  · split
    · exact .inl ⟨_, rfl⟩
    · split
      · exact .inl ⟨_, rfl⟩
      · exact .inr ⟨_, rfl⟩
  · exact .inr ⟨_, rfl⟩
  · exact .inl ⟨_, rfl⟩
  · exact .inl ⟨_, rfl⟩

/-- A block whose command runs answers a next state in every schedule. -/
theorem busyTurn_answers (w : Word) (s : State) : ∃ t, busyTurn w s = .next t := by
  rcases busyTurn_cases w s with taken | ⟨u, completes⟩
  · exact taken
  · rw [completes]
    exact runCommand_answers w u

/-- Settles O11: in reset and idle the turn is a function to states; with a command running it is `busyTurn_answers`. -/
theorem everyStepAnswersANextState : Obligations.EveryStepAnswersANextState := by
  intro s
  cases live : s.inReset with
  | true => exact ⟨_, step_in_reset live⟩
  | false =>
    cases running : s.running with
    | none => exact ⟨_, step_not_running live running⟩
    | some w =>
      rw [step_running live running]
      exact busyTurn_answers w s

end Sys2Proof.Machine
end

section
/-! SUPPORT. Reset: the step that asserts it, the step that releases it, and the accesses that arrive in between. -/

namespace Sys2Proof.Machine

/-! ## Release (70_reset_and_hazards.md R197, R198) -/

/-- ARG0-ARG3 are 0 at reset (10_state.md R51). -/
@[simp] theorem resetOf_arg (p : Params) (k : Nat) : (State.resetOf p).arg k = 0 := by
  unfold State.arg
  split <;> rfl

/-- Every counter is 0 at reset (R51). -/
@[simp] theorem resetOf_count (p : Params) (k : Nat) : (State.resetOf p).count k = 0 := by
  unfold State.count
  split <;> rfl

/-- A block in reset takes the release that is scheduled next. -/
theorem step_releaseReset {s : State} {rest : List PortEvent} (inReset : s.inReset = true)
    (port : s.port = .releaseReset :: rest) : step s = .next (s.setPort rest).releaseReset := by
  rw [step_in_reset inReset, resetTurn, port]

/-- Settles O55: the released block has the registers, the list and the buffers of `State.resetOf` of its own
parameters; what it keeps is no register. -/
theorem releasingResetGivesTheResetState : Obligations.ReleasingResetGivesTheResetState := by
  intro s rest inReset port
  exact ⟨_, step_releaseReset inReset port, rfl, statusWord_resetOf s.params, rfl, rfl, rfl, rfl, rfl,
    fun k _ => resetOf_arg s.params k, fun k _ => resetOf_count s.params k, rfl, fun _ => rfl, fun _ => rfl, rfl, rfl,
    rfl, rfl⟩

/-! ## Assertion (R196, R199) -/

/-- A block out of reset takes the assertion that is scheduled next, busy or idle, unless an idle block still has a
held access to perform first (20_memory.md R57). -/
theorem step_assertReset {s : State} {rest : List PortEvent} (live : s.inReset = false)
    (turn : s.running ≠ none ∨ s.held = none) (port : s.port = .assertReset :: rest) :
    step s = .next (s.setPort rest).assertReset := by
  cases running : s.running with
  | some w => rw [step_running live running, busyTurn, port]
  | none =>
    have held : s.held = none := turn.resolve_left (not_not_intro running)
    rw [step_not_running live running, idleTurn, held, port]

/-- An access that arrives in reset is ignored (R196). -/
theorem step_access_in_reset {s : State} {a : Access} {rest : List PortEvent} (inReset : s.inReset = true)
    (port : s.port = .access a :: rest) : step s = .next ((s.setPort rest).ignore a) := by
  rw [step_in_reset inReset, resetTurn, port]

/-- An ignored access changes at most the host's answer. -/
theorem ignore_eq (s : State) (a : Access) : s.ignore a = { s with answer := (s.ignore a).answer } := by
  cases a <;> rfl

/-- Settles O56: the assertion is taken whether a command runs or not, and leaves neither a command nor a held access;
in reset an access is ignored. -/
theorem assertedResetEndsTheCommandAndIgnoresAccesses : Obligations.AssertedResetEndsTheCommandAndIgnoresAccesses := by
  refine ⟨fun s rest live turn port => ?_, fun s a rest inReset port => ?_⟩
  · exact ⟨_, step_assertReset live turn port, rfl, rfl, rfl, rfl⟩
  · refine ⟨_, step_access_in_reset inReset port, ignore_eq (s.setPort rest) a, ?_⟩
    rintro addr rfl
    rfl

end Sys2Proof.Machine
end
